-- ==== Sys2Proof/Word.lean ====
section
/-! DEFINITION. The words HUFF computes with (00_scope.md R9, R11): every value is unsigned, bit 0 is the least
significant, and nothing is ever sign-extended. -/

namespace Sys2Proof

/-- A register, a command word or a bus word: REG_W = 32 bits (00_scope.md R9). -/
abbrev Word := BitVec 32

/-- A count or a node frequency: FREQ_W = 32 bits (00_scope.md R9). -/
abbrev Count := BitVec 32

/-- A symbol: SYM_W = 8 bits (00_scope.md R7, R9). -/
abbrev Sym := BitVec 8

/-- A node id, a leaf count or a symbol count: 9 bits (00_scope.md R9, 10_state.md R40, R41, R45, R46). -/
abbrev NodeId := BitVec 9

/-- The stored bits of one code: CODEW = 256 bits, bit j the j-th bit emitted (00_scope.md R9, 10_state.md R42). -/
abbrev CodeBits := BitVec 256

end Sys2Proof
end

