-- ==== Sys2Proof/Syntax.lean ====
section
/-! DEFINITION. The command set: one constructor per row of spec/opcode_table.json, operands in the assembler's order
(30_encoding.md R71, R73, R80). -/

namespace Sys2Proof

/-- A command of HUFF with its operand fields (30_encoding.md R71, R72). -/
inductive Instr where
  /-- 40_control.md R85. -/
  | nop
  /-- 40_control.md R86. -/
  | clr (mask : BitVec 6)
  /-- 41_frequency.md R90. -/
  | count (sym : Sym)
  /-- 41_frequency.md R91. -/
  | countn (sym : Sym) (n : BitVec 16)
  /-- 42_tree_builder.md R95. -/
  | build
  /-- 43_encoder.md R105. -/
  | derive
  /-- 43_encoder.md R109. -/
  | enc (sym : Sym)
  /-- 43_encoder.md R110. -/
  | wrbits (n : BitVec 5) (v : BitVec 16)
  /-- 44_decoder.md R117. -/
  | decbit (b : Bool)
  /-- 44_decoder.md R118. -/
  | decend
  /-- 44_decoder.md R119. -/
  | decbuf
  /-- 45_readback.md R125. -/
  | rdfreq (sym : Sym)
  /-- 45_readback.md R126. -/
  | rdnode (id : NodeId)
  /-- 45_readback.md R127. -/
  | rdcode (sym : Sym) (w : BitVec 3)
  /-- 45_readback.md R128. -/
  | rdbits (k : BitVec 11)
  /-- 45_readback.md R129. -/
  | rdsym (idx : BitVec 16)
  deriving DecidableEq, Repr

end Sys2Proof
end

