-- ==== Sys2Proof/WellFormed.lean ====
section
/-! DEFINITION. The operand values the spec allows (30_encoding.md R76): all but COUNTN with n = 0 and WRBITS with n = 0 or
n > 16. -/

namespace Sys2Proof

/-- 30_encoding.md R76: "Every other value of every operand field is legal at decode". -/
def Instr.wf : Instr → Bool
  | .nop => true
  | .clr _ => true
  | .count _ => true
  | .countn _ n => n != 0
  | .build => true
  | .derive => true
  | .enc _ => true
  | .wrbits n _ => n != 0 && n.toNat ≤ 16
  | .decbit _ => true
  | .decend => true
  | .decbuf => true
  | .rdfreq _ => true
  | .rdnode _ => true
  | .rdcode _ _ => true
  | .rdbits _ => true
  | .rdsym _ => true

end Sys2Proof
end

