-- ==== Sys2Proof/Decode.lean ====
section
/-! DEFINITION. The decoder of 30_encoding.md R78, total on every 32-bit word and rejecting by name, and after it the
encoder, written from the same tables (R71, R72, R73). -/

namespace Sys2Proof

/-- The rows of the opcode map (30_encoding.md R73). -/
inductive Op where
  | nop | clr | count | countn | build | derive | enc | wrbits | decbit | decend | decbuf
  | rdfreq | rdnode | rdcode | rdbits | rdsym
  deriving DecidableEq, Repr

/-- Why a word is ILLEGAL (30_encoding.md R78 names the rule of each return). All three complete with ILLEGAL_CMD. -/
inductive DecodeReject where
  /-- Opcodes 0x0B..0x0F and 0x15..0x1F (R75). -/
  | reservedOpcode
  /-- A 1 in a bit the opcode's format marks 0 (R74). -/
  | nonzeroMustBeZero
  /-- COUNTN n = 0, WRBITS n = 0 or n > 16 (R76). -/
  | illegalField
  deriving DecidableEq, Repr

/-- The row whose opcode is `op`, or none for a reserved opcode (R73, R75). -/
def Op.ofOpcode (op : BitVec 5) : Option Op :=
  match op.toNat with
  | 0x00 => some .nop
  | 0x01 => some .clr
  | 0x02 => some .count
  | 0x03 => some .countn
  | 0x04 => some .build
  | 0x05 => some .derive
  | 0x06 => some .enc
  | 0x07 => some .wrbits
  | 0x08 => some .decbit
  | 0x09 => some .decend
  | 0x0A => some .decbuf
  | 0x10 => some .rdfreq
  | 0x11 => some .rdnode
  | 0x12 => some .rdcode
  | 0x13 => some .rdbits
  | 0x14 => some .rdsym
  | _ => none

/-- The column `match` of R73: the word with every operand field zero. -/
def Op.matchWord : Op → Word
  | .nop => 0x00000000
  | .clr => 0x08000000
  | .count => 0x10000000
  | .countn => 0x18000000
  | .build => 0x20000000
  | .derive => 0x28000000
  | .enc => 0x30000000
  | .wrbits => 0x38000000
  | .decbit => 0x40000000
  | .decend => 0x48000000
  | .decbuf => 0x50000000
  | .rdfreq => 0x80000000
  | .rdnode => 0x88000000
  | .rdcode => 0x90000000
  | .rdbits => 0x98000000
  | .rdsym => 0xA0000000

/-- The column `mask` of R73: 1 at the opcode bits and the must-be-zero bits. -/
def Op.maskWord : Op → Word
  | .nop => 0xFFFFFFFF
  | .clr => 0xFFFFFFC0
  | .count => 0xFFFFFF00
  | .countn => 0xFF000000
  | .build => 0xFFFFFFFF
  | .derive => 0xFFFFFFFF
  | .enc => 0xFFFFFF00
  | .wrbits => 0xFFE00000
  | .decbit => 0xFFFFFFFE
  | .decend => 0xFFFFFFFF
  | .decbuf => 0xFFFFFFFF
  | .rdfreq => 0xFFFFFF00
  | .rdnode => 0xFFFFFE00
  | .rdcode => 0xFFFFF800
  | .rdbits => 0xFFFFF800
  | .rdsym => 0xFFFF0000

/-- The opcode field, bits [31:27] (R70). -/
def opcodeOf (word : Word) : BitVec 5 := word.extractLsb' 27 5

/-- The operand fields of each row's format (R71, R72). -/
def Op.fields (op : Op) (word : Word) : Instr :=
  match op with
  | .nop => .nop
  | .clr => .clr (word.extractLsb' 0 6)
  | .count => .count (word.extractLsb' 0 8)
  | .countn => .countn (word.extractLsb' 0 8) (word.extractLsb' 8 16)
  | .build => .build
  | .derive => .derive
  | .enc => .enc (word.extractLsb' 0 8)
  | .wrbits => .wrbits (word.extractLsb' 16 5) (word.extractLsb' 0 16)
  | .decbit => .decbit (word.getLsbD 0)
  | .decend => .decend
  | .decbuf => .decbuf
  | .rdfreq => .rdfreq (word.extractLsb' 0 8)
  | .rdnode => .rdnode (word.extractLsb' 0 9)
  | .rdcode => .rdcode (word.extractLsb' 0 8) (word.extractLsb' 8 3)
  | .rdbits => .rdbits (word.extractLsb' 0 11)
  | .rdsym => .rdsym (word.extractLsb' 0 16)

/-- The decoder, in the order of R78's pseudocode: opcode, must-be-zero bits, illegal field values. -/
def decode (word : Word) : Except DecodeReject Instr :=
  match Op.ofOpcode (opcodeOf word) with
  | none => .error .reservedOpcode
  | some op =>
    if word &&& op.maskWord ≠ op.matchWord then .error .nonzeroMustBeZero
    else if (op.fields word).wf then .ok (op.fields word)
    else .error .illegalField

/-- The decoder over spec/opcode_table.json's numbering of bits: a command is one 32-bit word (R70), so the word is the number
itself, the bits above `nbits` being 0. -/
def decodeTableWord (nbits w : Nat) : Option Instr :=
  match decode (BitVec.ofNat 32 (w % 2 ^ nbits)) with
  | .ok i => some i
  | .error _ => none

/-- The row of a command. -/
def Instr.op : Instr → Op
  | .nop => .nop
  | .clr _ => .clr
  | .count _ => .count
  | .countn _ _ => .countn
  | .build => .build
  | .derive => .derive
  | .enc _ => .enc
  | .wrbits _ _ => .wrbits
  | .decbit _ => .decbit
  | .decend => .decend
  | .decbuf => .decbuf
  | .rdfreq _ => .rdfreq
  | .rdnode _ => .rdnode
  | .rdcode _ _ => .rdcode
  | .rdbits _ => .rdbits
  | .rdsym _ => .rdsym

/-- The operand bits [26:0] of a command (R71). -/
def Instr.operandWord : Instr → Word
  | .nop => 0
  | .clr mask => mask.setWidth 32
  | .count sym => sym.setWidth 32
  | .countn sym n => n.setWidth 32 <<< 8 ||| sym.setWidth 32
  | .build => 0
  | .derive => 0
  | .enc sym => sym.setWidth 32
  | .wrbits n v => n.setWidth 32 <<< 16 ||| v.setWidth 32
  | .decbit b => (BitVec.ofBool b).setWidth 32
  | .decend => 0
  | .decbuf => 0
  | .rdfreq sym => sym.setWidth 32
  | .rdnode id => id.setWidth 32
  | .rdcode sym w => w.setWidth 32 <<< 8 ||| sym.setWidth 32
  | .rdbits k => k.setWidth 32
  | .rdsym idx => idx.setWidth 32

/-- The encoder: the row's match word with the operand fields in their places (R71, R73). -/
def encode (i : Instr) : Word := i.op.matchWord ||| i.operandWord

end Sys2Proof
end

