-- ==== Sys2Proof/Config.lean ====
section
/-! DEFINITION. What an instance of HUFF fixes (00_scope.md R9, 93_implementation_defined.md U15 to U17) and the free
values, which nothing in Lean can evaluate. -/

namespace Sys2Proof

/-- Symbol values 0..255 (00_scope.md R9). -/
def Config.nsym : Nat := 256

/-- Node ids 0..510 (00_scope.md R9). -/
def Config.nnode : Nat := 511

/-- The longest possible code, in bits (00_scope.md R9, R10). -/
def Config.lmax : Nat := 255

/-- Bytes of the register window (00_scope.md R9, 20_memory.md R65). -/
def Config.windowBytes : Nat := 64

/-- FREE VALUE (DESIGN CHOICE, log 4): the word a read returns where the spec says "unspecified" (20_memory.md R64,
70_reset_and_hazards.md R161); the argument is the number of values drawn before. -/
opaque Config.drawWord : Nat → Word

/-- FREE VALUE (DESIGN CHOICE, log 1): how many host events pass between the acceptance of a command and its execution, a
finite and unspecified number (60_exceptions.md R141, R158); the argument is the number of values drawn before. -/
opaque Config.engineLatency : Nat → Nat

/-- FREE VALUE (log 7): HUFF_BASE divided by 64, the platform's choice (20_memory.md R65). -/
opaque Config.huffBaseBlock : Nat

/-- RESET_POLARITY (00_scope.md R9, 70_reset_and_hazards.md R161): "reset active level, synchrony and duration". -/
structure ResetPolarity where
  /-- The active level: true where reset is asserted by a high input. -/
  activeHigh : Bool
  /-- Whether reset is synchronous to a clock. -/
  synchronous : Bool
  /-- How long reset must be held, in the platform's own unit. -/
  duration : Nat
  deriving DecidableEq, Repr, Inhabited

/-- FREE VALUE (log 7): RESET_POLARITY, the platform's choice (70_reset_and_hazards.md R161). -/
opaque Config.resetPolarity : ResetPolarity

/-- The parameters of one instance (00_scope.md R9). The fields hold the constraints of R9 by their types. -/
structure Params where
  /-- log2 BITCAP minus 5: BITCAP is a power of two, 32..65536. -/
  bitcapExp : Fin 12
  /-- log2 SYMCAP: SYMCAP is a power of two, 1..65536. -/
  symcapExp : Fin 17
  /-- HUFF_BASE / 64: HUFF_BASE is a multiple of 64. -/
  baseBlock : Nat
  /-- RESET_POLARITY: OPEN, a model argument (R9, U17), which nothing of the register interface reads (R161; log 9). -/
  resetPolarity : ResetPolarity
  deriving DecidableEq, Repr

/-- log2 BITCAP (10_state.md R35). -/
def Params.log2Bitcap (p : Params) : Nat := 5 + p.bitcapExp.val

/-- log2 SYMCAP (10_state.md R35). -/
def Params.log2Symcap (p : Params) : Nat := p.symcapExp.val

/-- BITCAP, the bit-buffer capacity in bits (00_scope.md R9). -/
def Params.bitcap (p : Params) : Nat := 2 ^ p.log2Bitcap

/-- SYMCAP, the symbol-buffer capacity in symbols (00_scope.md R9). -/
def Params.symcap (p : Params) : Nat := 2 ^ p.log2Symcap

/-- HUFF_BASE, the base address of the register window (20_memory.md R65). -/
def Params.base (p : Params) : Nat := 64 * p.baseBlock

/-- This instance (00_scope.md R9): BITCAP = SYMCAP = 65536, HUFF_BASE and RESET_POLARITY open. -/
def Params.thisInstance : Params where
  bitcapExp := 11
  symcapExp := 16
  baseBlock := Config.huffBaseBlock
  resetPolarity := Config.resetPolarity

end Sys2Proof
end

