-- ==== Sys2Proof/Machine/State.lean ====
section
/-! DEFINITION. The state of HUFF: every store, register and status bit of 10_state.md, the reset input of
70_reset_and_hazards.md R161, and the model's own fields for what the outside world does next. Plain data throughout. -/

namespace Sys2Proof.Machine

/-- An indexed store (20_memory.md R61): pairs (index, element) with indexes strictly rising and no element equal to what an
unlisted index reads as. `Memory Sym` is a list of `Host.Cell`. -/
abbrev Memory (α : Type) : Type := List (Nat × α)

/-- A node of the tree (10_state.md R46): a leaf has a symbol and no children, an internal node exactly two children. -/
inductive Node where
  | leaf (sym : Sym) (freq : Count)
  | internal (freq : Count) (left right : NodeId)
  deriving DecidableEq, Repr

/-- An entry of the code table (10_state.md R42). -/
structure Code where
  valid : Bool
  len : BitVec 9
  bits : CodeBits
  deriving DecidableEq, Repr

/-- The error codes by name (60_exceptions.md R144); `ErrCode.code` gives the number. -/
inductive ErrCode where
  | ok | illegalCmd | emptyInput | unknownSymbol | malformed | truncated | noTree | overflow | bufFull | range
  deriving DecidableEq, Repr

/-- The width of a host access (20_memory.md R63). -/
inductive Width where
  | w8 | w16 | w32
  deriving DecidableEq, Repr

/-- What the outside world does to HUFF (00_scope.md R8, 20_memory.md R64, 70_reset_and_hazards.md R161). -/
inductive HostEvent where
  /-- `MemRead(addr, width)`. -/
  | read (addr : Nat) (width : Width)
  /-- `MemWrite(addr, width, data)`. -/
  | write (addr : Nat) (width : Width) (data : Word)
  /-- The platform asserts reset. -/
  | assertReset
  /-- The platform releases reset. -/
  | releaseReset
  deriving DecidableEq, Repr

/-- The machine state; INVENTORY.md lists each field with its rule and reset value. -/
structure State where
  /-- The parameters of the instance (00_scope.md R9); no step changes them (log 6). -/
  params : Params
  /-- FREQ (R40). -/
  freq : Memory Count
  /-- TOTAL (R40). -/
  total : Count
  /-- NDIST (R40). -/
  ndist : BitVec 9
  /-- TREE_VALID (R41). -/
  treeValid : Bool
  /-- TREE_N (R41). -/
  treeN : BitVec 9
  /-- ROOT (R41). -/
  root : NodeId
  /-- NODE (R46). -/
  node : Memory Node
  /-- CODES_VALID (R42). -/
  codesValid : Bool
  /-- CODE (R42). -/
  code : Memory Code
  /-- BITLEN (R43). -/
  bitlen : Nat
  /-- BITBUF (R43). -/
  bitbuf : Memory Bool
  /-- SYMLEN (R44). -/
  symlen : Nat
  /-- SYMBUF (R44). -/
  symbuf : Memory Sym
  /-- CURSOR (R45). -/
  cursor : NodeId
  /-- RESULT0 (R47). -/
  result0 : Word
  /-- RESULT1 (R47). -/
  result1 : Word
  /-- PEND (R48). -/
  pend : Option Word
  /-- STATUS.DONE (R37). -/
  done : Bool
  /-- STATUS.ERR (R37). -/
  err : Bool
  /-- STATUS.OVR (R37). -/
  ovr : Bool
  /-- STATUS.LASTERR (R37, R144). -/
  lastErr : ErrCode
  /-- IE.DONE_IE (R38). -/
  doneIE : Bool
  /-- IE.ERR_IE (R38). -/
  errIE : Bool
  /-- True while the reset input is asserted (R161; log 9). -/
  inReset : Bool
  /-- MODEL'S OWN (log 2): what the host does next, in order. -/
  hostQueue : List HostEvent
  /-- MODEL'S OWN (log 3): the words bus reads have returned, newest first. -/
  hostData : List Word
  /-- MODEL'S OWN (log 4): how many free values have been drawn. -/
  draws : Nat
  /-- MODEL'S OWN (log 1): host events the engine still lets pass before it executes PEND. -/
  delay : Nat
  deriving DecidableEq, Repr

/-- The one fault of a step. -/
inductive Fault where
  /-- Raised by a host access that is inside the window but not a 32-bit access at a 4-byte-aligned offset: "A model treats
  such an access as a host fault" (20_memory.md R63, 93_implementation_defined.md U13). SAFE (log 8). -/
  | busError
  deriving DecidableEq, Repr

/-- The refusals of a step. -/
inductive Refusal where
  /-- Raised by an arm of `exec` whose instruction has no meaning yet; no arm is left so. SAFE. -/
  | notModelled (mnemonic : String)
  /-- Raised by a host access outside the window: "what the platform places around the window, and whether an access outside
  it reaches HUFF at all, is the platform's" (20_memory.md R65). SAFE (log 10). -/
  | outsideWindow
  deriving DecidableEq, Repr

/-- The state right after reset of an instance with parameters `p` (10_state.md R50; log 5 for the stores R50 calls
unspecified, logs 1 to 4 for the model's own fields, log 9 for the released reset input). -/
def State.resetWith (p : Params) : State where
  params := p
  freq := []
  total := 0
  ndist := 0
  treeValid := false
  treeN := 0
  root := 0
  node := []
  codesValid := false
  code := []
  bitlen := 0
  bitbuf := []
  symlen := 0
  symbuf := []
  cursor := 0
  result0 := 0
  result1 := 0
  pend := none
  done := false
  err := false
  ovr := false
  lastErr := .ok
  doneIE := false
  errIE := false
  inReset := false
  hostQueue := []
  hostData := []
  draws := 0
  delay := 0

/-- The machine right after reset (10_state.md R50), with this instance's parameters (00_scope.md R9). -/
def State.reset : State := State.resetWith Params.thisInstance

end Sys2Proof.Machine
end

