-- ==== Sys2Proof/Machine/Ops.lean ====
section
/-! DEFINITION. The named operations over stores and registers, and how every command ends: completion with code 0, or with
the error it raises (60_exceptions.md R142, R145), the one shared operation for errors. -/

namespace Sys2Proof.Machine

/-! Stores (20_memory.md R61). `d` is what an unlisted index reads as. -/

/-- The element at index `a`. -/
def Memory.read {α : Type} (d : α) (m : Memory α) (a : Nat) : α :=
  match m with
  | [] => d
  | (k, x) :: rest => if k = a then x else Memory.read d rest a

/-- The store without index `a`. -/
def Memory.erase {α : Type} (m : Memory α) (a : Nat) : Memory α :=
  match m with
  | [] => []
  | (k, x) :: rest => if k = a then Memory.erase rest a else (k, x) :: Memory.erase rest a

/-- The store with `(a, x)` put before the first larger index; used where `a` is not listed. -/
def Memory.insert {α : Type} (m : Memory α) (a : Nat) (x : α) : Memory α :=
  match m with
  | [] => [(a, x)]
  | (k, y) :: rest => if a < k then (a, x) :: (k, y) :: rest else (k, y) :: Memory.insert rest a x

/-- The store with element `a` set to `x`; writing what an unlisted index reads as removes the entry. -/
def Memory.write {α : Type} [DecidableEq α] (d : α) (m : Memory α) (a : Nat) (x : α) : Memory α :=
  if x = d then m.erase a else (m.erase a).insert a x

/-- Elements `a`, `a+1`, ... set to the elements of the list. -/
def Memory.writeList {α : Type} [DecidableEq α] (d : α) (m : Memory α) (a : Nat) : List α → Memory α
  | [] => m
  | x :: xs => Memory.writeList d (m.write d a x) (a + 1) xs

/-- The canonical form: indexes strictly rising, no element equal to what an unlisted index reads as. -/
abbrev Memory.wf {α : Type} (d : α) (m : Memory α) : Prop :=
  m.Pairwise (fun x y => x.1 < y.1) ∧ ∀ x ∈ m, x.2 ≠ d

/-- What an unlisted FREQ index reads as: 0, both at reset (10_state.md R50) and by "the table never holds a zero-count
entry" (R40). -/
def freqDefault : Count := 0

/-- What an unlisted NODE index reads as. DESIGN CHOICE (log 5): R50 calls it unspecified and unobservable. -/
def nodeDefault : Node := .leaf 0 0

/-- What an unlisted CODE index reads as. DESIGN CHOICE (log 5) at reset; the cleared entry of 43_encoder.md R105. -/
def codeDefault : Code := { valid := false, len := 0, bits := 0 }

/-- What an unlisted BITBUF position reads as. DESIGN CHOICE (log 5): R50 calls it unspecified and unobservable. -/
def bitDefault : Bool := false

/-- What an unlisted SYMBUF index reads as. DESIGN CHOICE (log 5): R50 calls it unspecified and unobservable. -/
def symDefault : Sym := 0

/-- `FREQ[sym]` (10_state.md R40). -/
def State.freqAt (s : State) (sym : Sym) : Count := s.freq.read freqDefault sym.toNat

/-- `NODE[id]` (R46). -/
def State.nodeAt (s : State) (id : NodeId) : Node := s.node.read nodeDefault id.toNat

/-- `CODE[sym]` (R42). -/
def State.codeAt (s : State) (sym : Sym) : Code := s.code.read codeDefault sym.toNat

/-- `BITBUF[p]` (R43). -/
def State.bitAt (s : State) (p : Nat) : Bool := s.bitbuf.read bitDefault p

/-- `SYMBUF[i]` (R44). -/
def State.symAt (s : State) (i : Nat) : Sym := s.symbuf.read symDefault i

/-- The held bit string `BITBUF[0], ..., BITBUF[BITLEN-1]`, first bit first (R43). -/
def State.heldBits (s : State) : List Bool := (List.range s.bitlen).map s.bitAt

/-- The decoded sequence `SYMBUF[0..SYMLEN-1]` (R44). -/
def State.heldSyms (s : State) : List Sym := (List.range s.symlen).map s.symAt

/-- Appends bits at BITLEN (43_encoder.md R109, R110). -/
def State.appendBits (s : State) (bs : List Bool) : State :=
  { s with bitbuf := s.bitbuf.writeList bitDefault s.bitlen bs, bitlen := s.bitlen + bs.length }

/-- Appends symbols at SYMLEN (44_decoder.md R117, R119). -/
def State.appendSyms (s : State) (ss : List Sym) : State :=
  { s with symbuf := s.symbuf.writeList symDefault s.symlen ss, symlen := s.symlen + ss.length }

/-- Writes the result registers (10_state.md R47). -/
def State.setResults (s : State) (r0 r1 : Word) : State := { s with result0 := r0, result1 := r1 }

/-! Nodes (10_state.md R46). -/

/-- `NODE[i].freq`. -/
def Node.freq : Node → Count
  | .leaf _ f => f
  | .internal f _ _ => f

/-- `NODE[i].kind = LEAF`. -/
def Node.isLeaf : Node → Bool
  | .leaf _ _ => true
  | .internal _ _ _ => false

/-- `NODE[i].sym`, meaningful for a leaf. -/
def Node.sym : Node → Sym
  | .leaf x _ => x
  | .internal _ _ _ => 0

/-- The child a bit selects: 0 left, 1 right (44_decoder.md R116); meaningful for an internal node. -/
def Node.child : Node → Bool → NodeId
  | .leaf _ _, _ => 0
  | .internal _ l _, false => l
  | .internal _ _ r, true => r

/-! How a command ends. -/

/-- `completion(code)` (60_exceptions.md R142). -/
def completion (e : ErrCode) (s : State) : State :=
  { s with done := true, lastErr := e, err := s.err || decide (e ≠ .ok) }

/-- The end of the engine's step (60_exceptions.md R141): completion, then `PEND <- empty`. -/
def retire (e : ErrCode) (s : State) : State := { completion e s with pend := none }

/-- `raise E` (00_scope.md R12, 60_exceptions.md R145): from the state BEFORE the command, nothing changes but the completion
fields. This is the shared operation of every error of every command. -/
def raiseError (e : ErrCode) (s : State) : State := retire e s

/-- The engine's step around the rule of a command (60_exceptions.md R141): the rule's result is committed and completes with
code 0, or its error is raised from the state before it, which "discards every write the rule made". -/
def runRule (s : State) (r : Except ErrCode State) : Host.Outcome State Fault Refusal :=
  match r with
  | .ok t => .next (retire .ok t)
  | .error e => .next (raiseError e s)

/-- The pending word, which stands where other machines fetch (10_state.md R31, R48). -/
def fetchWord (s : State) : Option Word := s.pend

/-- A state in which `word` has been accepted and the engine's step is due at once (log 11). -/
def placeCommand (s : State) (word : Word) : State :=
  { s with pend := some word, delay := 0, inReset := false }

end Sys2Proof.Machine
end

