-- ==== Sys2Proof/Machine/Operands.lean ====
section
/-! DEFINITION. The operand forms (30_encoding.md R72): every field is an unsigned number, used zero-extended, never scaled,
shifted or sign-extended; and the bit lists and result words built from operands and stores. -/

namespace Sys2Proof.Machine

/-- `zext_32` (00_scope.md R11). -/
def zext32 {w : Nat} (v : BitVec w) : Word := v.setWidth 32

/-- `zext_32` of a length (BITLEN, SYMLEN or a number of decoded symbols), at most 65536 (00_scope.md R10). -/
def zextLen (n : Nat) : Word := BitVec.ofNat 32 n

/-- The CLR mask, one flag a bit (40_control.md R86, 30_encoding.md R80). -/
def clearsFreq (mask : BitVec 6) : Bool := mask.getLsbD 0
def clearsTree (mask : BitVec 6) : Bool := mask.getLsbD 1
def clearsCodes (mask : BitVec 6) : Bool := mask.getLsbD 2
def clearsBits (mask : BitVec 6) : Bool := mask.getLsbD 3
def clearsSyms (mask : BitVec 6) : Bool := mask.getLsbD 4
def clearsDecoder (mask : BitVec 6) : Bool := mask.getLsbD 5

/-- The bits WRBITS appends: `v[0]` first, `n` of them; `v[15:n]` are ignored (43_encoder.md R110). -/
def literalBits (n : BitVec 5) (v : BitVec 16) : List Bool := (List.range n.toNat).map v.getLsbD

/-- The bit string of a code: `bits[0]` first, `len` of them (10_state.md R42, 43_encoder.md R109). -/
def Code.toBits (c : Code) : List Bool := (List.range c.len.toNat).map c.bits.getLsbD

/-- Bits 0 to n-1 of a word, bit j being `f j`. -/
def packBits (f : Nat → Bool) : Nat → Word
  | 0 => 0
  | n + 1 => packBits f n ||| (if f n then 1#32 <<< n else 0)

/-- Word `k` of the bit buffer as RDBITS returns it: bit j is stream bit 32k+j, 0 at or beyond BITLEN (45_readback.md R128). -/
def bitWord (s : State) (k : Nat) : Word :=
  packBits (fun j => decide (32 * k + j < s.bitlen) && s.bitAt (32 * k + j)) 32

/-- Word `w` of the stored code bits, `bits[32*w+31 : 32*w]` (45_readback.md R127). -/
def codeWord (c : Code) (w : BitVec 3) : Word := c.bits.extractLsb' (32 * w.toNat) 32

/-- RESULT1 of RDNODE (45_readback.md R126): bit 31 set and the symbol for a leaf; right child in [24:16] and left child in
[8:0] for an internal node. -/
def nodeWord : Node → Word
  | .leaf x _ => 0x80000000#32 ||| zext32 x
  | .internal _ l r => zext32 r <<< 16 ||| zext32 l

/-- RESULT0 of RDCODE for a symbol with a code (45_readback.md R127): bit 31 valid, [8:0] length. -/
def codeLenWord (c : Code) : Word := 0x80000000#32 ||| zext32 c.len

/-- RESULT0 of DECBIT when a symbol is emitted (44_decoder.md R117): bit 8 set and the symbol. -/
def emitWord (x : Sym) : Word := 0x00000100#32 ||| zext32 x

/-- The entry ENC and RDCODE find for a symbol, none where it reads as not valid: "When `CODES_VALID = 0`, every entry reads
as not valid to ENC and RDCODE whatever the stored fields hold" (10_state.md R42). -/
def State.validCode (s : State) (sym : Sym) : Option Code :=
  if s.codesValid && (s.codeAt sym).valid then some (s.codeAt sym) else none

end Sys2Proof.Machine
end

