-- ==== Sys2Proof/Machine/Flags.lean ====
section
/-! DEFINITION. The status bits, the error codes, the interrupt level and the constant registers (10_state.md R34 to R38,
R45, R48; 60_exceptions.md R144, R148). -/

namespace Sys2Proof.Machine

/-- The numbers of the error codes (60_exceptions.md R144). -/
def ErrCode.code : ErrCode → BitVec 4
  | .ok => 0
  | .illegalCmd => 1
  | .emptyInput => 2
  | .unknownSymbol => 3
  | .malformed => 4
  | .truncated => 5
  | .noTree => 6
  | .overflow => 7
  | .bufFull => 8
  | .range => 9

/-- `BUSY = 1` exactly when PEND is not empty (10_state.md R48). -/
def State.busy (s : State) : Bool := s.pend.isSome

/-- DEC_STATE: false = AT_ROOT, true = IN_TRAVERSAL (10_state.md R45). -/
def State.inTraversal (s : State) : Bool := s.treeValid && decide (s.cursor ≠ s.root)

/-- The STATUS register (10_state.md R37), most significant field first. -/
def State.statusWord (s : State) : Word :=
  0#20 ++ s.lastErr.code ++ 0#1 ++ BitVec.ofBool s.inTraversal ++ BitVec.ofBool s.codesValid ++
    BitVec.ofBool s.treeValid ++ BitVec.ofBool s.ovr ++ BitVec.ofBool s.err ++ BitVec.ofBool s.done ++
    BitVec.ofBool s.busy

/-- The IE register (10_state.md R38): bit 2 ERR_IE, bit 1 DONE_IE, every other bit 0. -/
def State.ieWord (s : State) : Word := 0#29 ++ BitVec.ofBool s.errIE ++ BitVec.ofBool s.doneIE ++ 0#1

/-- The interrupt output (60_exceptions.md R148). -/
def State.irq (s : State) : Bool := (s.done && s.doneIE) || ((s.err || s.ovr) && s.errIE)

/-- The ID register (10_state.md R34). -/
def idWord : Word := 0x48554631

/-- The PARAM register (10_state.md R35): version 1, log2 SYMCAP, log2 BITCAP, SYM_W. -/
def paramWord (p : Params) : Word :=
  0x01#8 ++ 0#3 ++ BitVec.ofNat 5 p.log2Symcap ++ 0#3 ++ BitVec.ofNat 5 p.log2Bitcap ++ 0x08#8

/-- A write to STATUS (10_state.md R37): clears each of DONE, ERR and OVR whose written bit is 1. -/
def State.clearStatus (s : State) (v : Word) : State :=
  { s with
    done := s.done && !v.getLsbD 1
    err := s.err && !v.getLsbD 2
    ovr := s.ovr && !v.getLsbD 3 }

/-- A write to IE (10_state.md R38). -/
def State.setEnables (s : State) (v : Word) : State :=
  { s with doneIE := v.getLsbD 1, errIE := v.getLsbD 2 }

end Sys2Proof.Machine
end

