-- ==== Sys2Proof/Machine/Bus.lean ====
section
/-! DEFINITION. The register window, the host's accesses to it and the reset input (10_state.md section 3, 20_memory.md,
60_exceptions.md R140, 70_reset_and_hazards.md R161, R162). -/

namespace Sys2Proof.Machine

/-- The sixteen registers of the window (10_state.md R32). -/
inductive Reg where
  | id | param | cmd | status | ie | ndist | total | root | cursor | treeN | bitlen | symlen | result0 | result1
  | reserved38 | reserved3C
  deriving DecidableEq, Repr

/-- The register at a window offset (R32); none where the offset is not a multiple of 4 or outside the window. -/
def Reg.ofOffset (off : Nat) : Option Reg :=
  match off with
  | 0x00 => some .id
  | 0x04 => some .param
  | 0x08 => some .cmd
  | 0x0C => some .status
  | 0x10 => some .ie
  | 0x14 => some .ndist
  | 0x18 => some .total
  | 0x1C => some .root
  | 0x20 => some .cursor
  | 0x24 => some .treeN
  | 0x28 => some .bitlen
  | 0x2C => some .symlen
  | 0x30 => some .result0
  | 0x34 => some .result1
  | 0x38 => some .reserved38
  | 0x3C => some .reserved3C
  | _ => none

/-- A value that is defined only while BUSY = 0 (10_state.md R39, 20_memory.md R64). -/
def State.whenIdle (s : State) (v : Word) : Option Word := if s.busy then none else some v

/-- What a register reads as (10_state.md R32 to R39, R47), none where the spec calls the value unspecified (20_memory.md
R64). -/
def State.regValue (s : State) : Reg → Option Word
  | .id => some idWord
  | .param => some (paramWord s.params)
  | .cmd => some 0
  | .status => some s.statusWord
  | .ie => some s.ieWord
  | .ndist => s.whenIdle (zext32 s.ndist)
  | .total => s.whenIdle s.total
  | .root => s.whenIdle (zext32 s.root)
  | .cursor => s.whenIdle (zext32 s.cursor)
  | .treeN => s.whenIdle (zext32 s.treeN)
  | .bitlen => s.whenIdle (zextLen s.bitlen)
  | .symlen => s.whenIdle (zextLen s.symlen)
  | .result0 => s.whenIdle s.result0
  | .result1 => s.whenIdle s.result1
  | .reserved38 => some 0
  | .reserved3C => some 0

/-- A read that returns `v` to the host. -/
def returnData (v : Word) (s : State) : State := { s with hostData := v :: s.hostData }

/-- A read that returns an unspecified word: a fresh free value (20_memory.md R64; log 4). -/
def returnDraw (s : State) : State :=
  { s with hostData := Config.drawWord s.draws :: s.hostData, draws := s.draws + 1 }

/-- A read of a register (20_memory.md R64): no side effect on the block. -/
def readReg (r : Reg) (s : State) : State :=
  match s.regValue r with
  | some v => returnData v s
  | none => returnDraw s

/-- A CMD write (60_exceptions.md R140): accepted where PEND is empty, and the engine's latency is drawn (log 1); dropped
with OVR set otherwise. -/
def submit (w : Word) (s : State) : State :=
  match s.pend with
  | none => { s with pend := some w, delay := Config.engineLatency s.draws, draws := s.draws + 1 }
  | some _ => { s with ovr := true }

/-- A write of a register (20_memory.md R64, 10_state.md R36 to R39): writes elsewhere have no effect. -/
def writeReg (r : Reg) (v : Word) (s : State) : State :=
  match r with
  | .cmd => submit v s
  | .status => s.clearStatus v
  | .ie => s.setEnables v
  | .id => s
  | .param => s
  | .ndist => s
  | .total => s
  | .root => s
  | .cursor => s
  | .treeN => s
  | .bitlen => s
  | .symlen => s
  | .result0 => s
  | .result1 => s
  | .reserved38 => s
  | .reserved3C => s

/-- Where a host access goes. -/
inductive Target where
  /-- A register of the window. -/
  | reg (r : Reg)
  /-- Inside the window, but not a 32-bit access at a 4-byte-aligned offset (20_memory.md R63). -/
  | badAccess
  /-- An address outside the window (20_memory.md R65). -/
  | outside
  deriving DecidableEq, Repr

/-- Address decoding of the window at HUFF_BASE (20_memory.md R63, R65). -/
def targetOf (p : Params) (addr : Nat) (width : Width) : Target :=
  if p.base ≤ addr ∧ addr < p.base + Config.windowBytes then
    match Reg.ofOffset (addr - p.base) with
    | some r => if width = .w32 then .reg r else .badAccess
    | none => .badAccess
  else .outside

/-- A host read (20_memory.md R64); during reset it "returns an unspecified value" (70_reset_and_hazards.md R161). -/
def hostRead (addr : Nat) (width : Width) (s : State) : Host.Outcome State Fault Refusal :=
  match targetOf s.params addr width with
  | .outside => .refused .outsideWindow
  | .badAccess => .fault .busError
  | .reg r => .next (if s.inReset then returnDraw s else readReg r s)

/-- A host write (20_memory.md R64); during reset it has "no effect on the block" (70_reset_and_hazards.md R161). -/
def hostWrite (addr : Nat) (width : Width) (data : Word) (s : State) : Host.Outcome State Fault Refusal :=
  match targetOf s.params addr width with
  | .outside => .refused .outsideWindow
  | .badAccess => .fault .busError
  | .reg r => .next (if s.inReset then s else writeReg r data s)

/-- Reset asserted (70_reset_and_hazards.md R161, R162): the block takes the values of 10_state.md R50, and a pending command
is discarded. The parameters and what belongs to the host and the model stay (log 9). -/
def assertReset (s : State) : State :=
  { State.resetWith s.params with
    inReset := true
    hostQueue := s.hostQueue
    hostData := s.hostData
    draws := s.draws }

/-- Reset released (70_reset_and_hazards.md R161): the block is idle and accepts commands at once. -/
def releaseReset (s : State) : State := { s with inReset := false }

/-- One event of the outside world. -/
def perform (e : HostEvent) (s : State) : Host.Outcome State Fault Refusal :=
  match e with
  | .read addr width => hostRead addr width s
  | .write addr width data => hostWrite addr width data s
  | .assertReset => .next (assertReset s)
  | .releaseReset => .next (releaseReset s)

/-- The engine's step is taken now (60_exceptions.md R141; log 1): a command is pending, reset is not asserted, and either the
drawn number of host events has passed or the host does nothing more. -/
def engineDue (s : State) : Bool := s.busy && !s.inReset && (s.delay == 0 || s.hostQueue.isEmpty)

/-- The next event leaves the queue and counts towards the pending command's latency. -/
def takeEvent (rest : List HostEvent) (s : State) : State := { s with hostQueue := rest, delay := s.delay - 1 }

/-- A step that is not the engine's: the next event of the queue, or nothing where there is none: after reset "the block waits
for its first CMD write" (70_reset_and_hazards.md R163). -/
def hostStep (s : State) : Host.Outcome State Fault Refusal :=
  match s.hostQueue with
  | [] => .next s
  | e :: rest => perform e (takeEvent rest s)

end Sys2Proof.Machine
end

