-- ==== Sys2Proof/Machine/Control.lean ====
section
/-! DEFINITION. The control commands NOP and CLR (40_control.md), and what the engine does with a word that is no command. -/

namespace Sys2Proof.Machine

/-- An ILLEGAL word (30_encoding.md R74 to R76, R78): it "completes with error ILLEGAL_CMD (code 1) and changes nothing
else". -/
def execIllegal (s : State) : Host.Outcome State Fault Refusal := .next (raiseError .illegalCmd s)

/-- NOP (40_control.md R85): the completion update only. -/
def execNop (s : State) : Host.Outcome State Fault Refusal := runRule s (.ok s)

/-- The F step of CLR (R86). -/
def clearFreq (s : State) : State := { s with freq := [], total := 0, ndist := 0 }

/-- The T step of CLR (R86). -/
def clearTree (s : State) : State :=
  { s with treeValid := false, treeN := 0, root := 0, cursor := 0, codesValid := false }

/-- The C step of CLR (R86). -/
def clearCodes (s : State) : State := { s with codesValid := false }

/-- The B step of CLR (R86): the length only. -/
def clearBits (s : State) : State := { s with bitlen := 0 }

/-- The S step of CLR (R86): the length only. -/
def clearSyms (s : State) : State := { s with symlen := 0 }

/-- The D step of CLR (R86): ROOT as left by the T step. -/
def homeDecoder (s : State) : State := { s with cursor := s.root }

/-- A step of CLR, taken when its mask bit is 1. -/
def onBit (b : Bool) (f : State → State) (s : State) : State := if b then f s else s

/-- The pseudocode of R86, in its order. -/
def clrRule (mask : BitVec 6) (s : State) : State :=
  let s := onBit (clearsFreq mask) clearFreq s
  let s := onBit (clearsTree mask) clearTree s
  let s := onBit (clearsCodes mask) clearCodes s
  let s := onBit (clearsBits mask) clearBits s
  let s := onBit (clearsSyms mask) clearSyms s
  onBit (clearsDecoder mask) homeDecoder s

/-- CLR (40_control.md R86). -/
def execClr (mask : BitVec 6) (s : State) : Host.Outcome State Fault Refusal := runRule s (.ok (clrRule mask s))

end Sys2Proof.Machine
end

