-- ==== Sys2Proof/Machine/Decoder.lean ====
section
/-! DEFINITION. The tree-walk decoder: DECBIT, DECEND, DECBUF (44_decoder.md). -/

namespace Sys2Proof.Machine

/-- `step(cur, b)` of R116: the next cursor and the symbol emitted, or MALFORMED. -/
def decStep (s : State) (cur : NodeId) (b : Bool) : Except ErrCode (NodeId × Option Sym) :=
  if s.treeN = 1 then
    if b then .error .malformed else .ok (s.root, some (s.nodeAt 0).sym)
  else
    match s.nodeAt ((s.nodeAt cur).child b) with
    | .leaf x _ => .ok (s.root, some x)
    | .internal _ _ _ => .ok ((s.nodeAt cur).child b, none)

/-- The pseudocode of R117. -/
def decbitRule (b : Bool) (s : State) : Except ErrCode State :=
  if s.treeValid = false then .error .noTree
  else
    match decStep s s.cursor b with
    | .error e => .error e
    | .ok (cur, some x) =>
      if s.symlen = s.params.symcap then .error .bufFull
      else .ok { (s.appendSyms [x]).setResults (emitWord x) (zext32 cur) with cursor := cur }
    | .ok (cur, none) => .ok { s.setResults 0 (zext32 cur) with cursor := cur }

/-- DECBIT (44_decoder.md R117). -/
def execDecbit (b : Bool) (s : State) : Host.Outcome State Fault Refusal := runRule s (decbitRule b s)

/-- The pseudocode of R118. -/
def decendRule (s : State) : Except ErrCode State :=
  if s.treeValid = false then .error .noTree
  else if s.cursor ≠ s.root then .error .truncated
  else .ok s

/-- DECEND (44_decoder.md R118). -/
def execDecend (s : State) : Host.Outcome State Fault Refusal := runRule s (decendRule s)

/-- The loop of R119 over the bits from cursor `cur`, `out` being the symbols emitted so far: at the first bit where one
arises, MALFORMED or BUF_FULL; the cursor after the last bit and the symbols otherwise. -/
def decLoop (s : State) : List Bool → NodeId → List Sym → Except ErrCode (NodeId × List Sym)
  | [], cur, out => .ok (cur, out)
  | b :: rest, cur, out =>
    match decStep s cur b with
    | .error e => .error e
    | .ok (cur', none) => decLoop s rest cur' out
    | .ok (cur', some x) =>
      if s.symlen + out.length = s.params.symcap then .error .bufFull else decLoop s rest cur' (out ++ [x])

/-- The pseudocode of R119; nothing is committed unless every step succeeds. -/
def decbufRule (s : State) : Except ErrCode State :=
  if s.treeValid = false then .error .noTree
  else
    match decLoop s s.heldBits s.root [] with
    | .error e => .error e
    | .ok (cur, out) =>
      if cur ≠ s.root then .error .truncated
      else .ok { (s.appendSyms out).setResults (zextLen out.length) (zextLen (s.symlen + out.length)) with
        cursor := s.root }

/-- DECBUF (44_decoder.md R119). -/
def execDecbuf (s : State) : Host.Outcome State Fault Refusal := runRule s (decbufRule s)

end Sys2Proof.Machine
end

