-- ==== Sys2Proof/Machine/Encoder.lean ====
section
/-! DEFINITION. The code table and the encoder: DERIVE, ENC, WRBITS (43_encoder.md). -/

namespace Sys2Proof.Machine

/-- `walk(x, L, c)` of R105 over the held tree, threading the table: left first, then right with bit L of the path set. The
first argument bounds the depth (R102, R158: no path of a held tree is that long; log 13). -/
def walkCodes (s : State) : Nat → NodeId → Nat → CodeBits → Memory Code → Memory Code
  | 0, _, _, _, table => table
  | fuel + 1, x, depth, path, table =>
    match s.nodeAt x with
    | .leaf sym _ => table.write codeDefault sym.toNat { valid := true, len := BitVec.ofNat 9 depth, bits := path }
    | .internal _ l r =>
      walkCodes s fuel r (depth + 1) (path ||| 1#256 <<< depth) (walkCodes s fuel l (depth + 1) path table)

/-- The table DERIVE writes (R105): every entry cleared, then the fallback code "0" of a single leaf (R107) or the codes of
the walk from the root (R106). -/
def derivedTable (s : State) : Memory Code :=
  if s.treeN = 1 then
    Memory.write codeDefault [] (s.nodeAt 0).sym.toNat { valid := true, len := 1, bits := 0 }
  else walkCodes s Config.nnode s.root 0 0 []

/-- The pseudocode of R105. -/
def deriveRule (s : State) : Except ErrCode State :=
  if s.treeValid = false then .error .noTree
  else .ok { s with code := derivedTable s, codesValid := true }

/-- DERIVE (43_encoder.md R105). -/
def execDerive (s : State) : Host.Outcome State Fault Refusal := runRule s (deriveRule s)

/-- Appends bits to the bit buffer, or raises BUF_FULL where they do not fit (R109, R110). -/
def appendOrFull (bs : List Bool) (s : State) : Except ErrCode State :=
  if s.bitlen + bs.length > s.params.bitcap then .error .bufFull else .ok (s.appendBits bs)

/-- The pseudocode of R109: UNKNOWN_SYMBOL, then BUF_FULL, then the code is appended and the results are written. -/
def encRule (sym : Sym) (s : State) : Except ErrCode State :=
  match s.validCode sym with
  | none => .error .unknownSymbol
  | some c =>
    match appendOrFull c.toBits s with
    | .error e => .error e
    | .ok t => .ok (t.setResults (zext32 c.len) (zextLen t.bitlen))

/-- ENC (43_encoder.md R109). -/
def execEnc (sym : Sym) (s : State) : Host.Outcome State Fault Refusal := runRule s (encRule sym s)

/-- The pseudocode of R110; `n = 0` and `n > 16` are ILLEGAL_CMD (30_encoding.md R76; log 12). -/
def wrbitsRule (n : BitVec 5) (v : BitVec 16) (s : State) : Except ErrCode State :=
  if n = 0 ∨ n.toNat > 16 then .error .illegalCmd else appendOrFull (literalBits n v) s

/-- WRBITS (43_encoder.md R110). -/
def execWrbits (n : BitVec 5) (v : BitVec 16) (s : State) : Host.Outcome State Fault Refusal :=
  runRule s (wrbitsRule n v s)

end Sys2Proof.Machine
end

