-- ==== Sys2Proof/Machine/Frequency.lean ====
section
/-! DEFINITION. The frequency counter: COUNT and COUNTN (41_frequency.md). -/

namespace Sys2Proof.Machine

/-- Adds `n` to the count of a symbol (41_frequency.md R90, R91), after the overflow check. -/
def addCount (sym : Sym) (n : Count) (s : State) : State :=
  { s with
    ndist := if s.freqAt sym = 0 then s.ndist + 1 else s.ndist
    freq := s.freq.write freqDefault sym.toNat (s.freqAt sym + n)
    total := s.total + n }

/-- The pseudocode of R90. -/
def countRule (sym : Sym) (s : State) : Except ErrCode State :=
  if s.total = 0xFFFFFFFF then .error .overflow else .ok (addCount sym 1 s)

/-- COUNT (41_frequency.md R90). -/
def execCount (sym : Sym) (s : State) : Host.Outcome State Fault Refusal := runRule s (countRule sym s)

/-- The pseudocode of R91, the sum computed exactly; `n = 0` is ILLEGAL_CMD (30_encoding.md R76; log 12). -/
def countnRule (sym : Sym) (n : BitVec 16) (s : State) : Except ErrCode State :=
  if n = 0 then .error .illegalCmd
  else if s.total.toNat + n.toNat > 0xFFFFFFFF then .error .overflow
  else .ok (addCount sym (zext32 n) s)

/-- COUNTN (41_frequency.md R91). -/
def execCountn (sym : Sym) (n : BitVec 16) (s : State) : Host.Outcome State Fault Refusal :=
  runRule s (countnRule sym n s)

end Sys2Proof.Machine
end

