-- ==== Sys2Proof/Machine/Readback.lean ====
section
/-! DEFINITION. The read-back commands: RDFREQ, RDNODE, RDCODE, RDBITS, RDSYM (45_readback.md). They write the result
registers and nothing else (R130). -/

namespace Sys2Proof.Machine

/-- RDFREQ (45_readback.md R125). -/
def execRdfreq (sym : Sym) (s : State) : Host.Outcome State Fault Refusal :=
  runRule s (.ok (s.setResults (s.freqAt sym) 0))

/-- The pseudocode of R126. -/
def rdnodeRule (id : NodeId) (s : State) : Except ErrCode State :=
  if s.treeValid = false then .error .noTree
  else if id > s.root then .error .range
  else .ok (s.setResults (s.nodeAt id).freq (nodeWord (s.nodeAt id)))

/-- RDNODE (45_readback.md R126). -/
def execRdnode (id : NodeId) (s : State) : Host.Outcome State Fault Refusal := runRule s (rdnodeRule id s)

/-- The pseudocode of R127. -/
def rdcodeRule (sym : Sym) (w : BitVec 3) (s : State) : State :=
  match s.validCode sym with
  | some c => s.setResults (codeLenWord c) (codeWord c w)
  | none => s.setResults 0 0

/-- RDCODE (45_readback.md R127). -/
def execRdcode (sym : Sym) (w : BitVec 3) (s : State) : Host.Outcome State Fault Refusal :=
  runRule s (.ok (rdcodeRule sym w s))

/-- The pseudocode of R128. -/
def rdbitsRule (k : BitVec 11) (s : State) : Except ErrCode State :=
  if k.toNat ≥ s.params.bitcap / 32 then .error .range
  else .ok (s.setResults (bitWord s k.toNat) (zextLen s.bitlen))

/-- RDBITS (45_readback.md R128). -/
def execRdbits (k : BitVec 11) (s : State) : Host.Outcome State Fault Refusal := runRule s (rdbitsRule k s)

/-- The pseudocode of R129. -/
def rdsymRule (idx : BitVec 16) (s : State) : Except ErrCode State :=
  if idx.toNat ≥ s.symlen then .error .range
  else .ok (s.setResults (zext32 (s.symAt idx.toNat)) (zextLen s.symlen))

/-- RDSYM (45_readback.md R129). -/
def execRdsym (idx : BitVec 16) (s : State) : Host.Outcome State Fault Refusal := runRule s (rdsymRule idx s)

end Sys2Proof.Machine
end

