-- ==== Sys2Proof/Machine/Tree.lean ====
section
/-! DEFINITION. The tree builder: BUILD (42_tree_builder.md). The scratch arena NODE' is a list whose position is the node id;
the min-priority set H is a list of ids. -/

namespace Sys2Proof.Machine

/-- The leaves in ascending symbol order (42_tree_builder.md R96): leaf k holds the k-th smallest symbol with FREQ > 0. -/
def leaves (s : State) : List Node :=
  (List.range Config.nsym).filterMap fun k =>
    if s.freqAt (BitVec.ofNat 8 k) = 0 then none
    else some (.leaf (BitVec.ofNat 8 k) (s.freqAt (BitVec.ofNat 8 k)))

/-- `NODE'[i].freq` of the scratch arena. -/
def arenaFreq (arena : List Node) (i : Nat) : Count := (arena.getD i nodeDefault).freq

/-- R97: x is extracted before y exactly when `(NODE'[x].freq, x) < (NODE'[y].freq, y)` in lexicographic order. -/
def keyBefore (arena : List Node) (x y : Nat) : Bool :=
  decide (arenaFreq arena x < arenaFreq arena y) || (decide (arenaFreq arena x = arenaFreq arena y) && decide (x < y))

/-- `min_key(H)` (00_scope.md R13, R97): the least element of H, none for the empty set. -/
def minKey (arena : List Node) : List Nat → Option Nat
  | [] => none
  | x :: rest =>
    match minKey arena rest with
    | none => some x
    | some y => if keyBefore arena x y then some x else some y

/-- The node a merge creates (R98): the first extracted is left, the second is right, the frequency is their sum. -/
def mergeNode (arena : List Node) (a b : Nat) : Node :=
  .internal (arenaFreq arena a + arenaFreq arena b) (BitVec.ofNat 9 a) (BitVec.ofNat 9 b)

/-- The merge loop of R95 over the arena and the set H, until H has one element (R99). The next id is the arena's length. The
first argument bounds the number of merges: each lowers |H| by one, so |H| is enough (R99, R158). -/
def mergeLoop : Nat → List Node → List Nat → List Node
  | 0, arena, _ => arena
  | fuel + 1, arena, h =>
    match minKey arena h with
    | none => arena
    | some a =>
      match minKey arena (h.erase a) with
      | none => arena
      | some b => mergeLoop fuel (arena ++ [mergeNode arena a b]) ((h.erase a).erase b ++ [arena.length])

/-- The whole scratch arena of BUILD (R95): the leaves, then the merged nodes. -/
def buildArena (s : State) : List Node :=
  mergeLoop (leaves s).length (leaves s) (List.range (leaves s).length)

/-- The commit of R95. -/
def commitTree (s : State) : State :=
  { s with
    node := s.node.writeList nodeDefault 0 (buildArena s)
    treeN := BitVec.ofNat 9 (leaves s).length
    root := BitVec.ofNat 9 ((buildArena s).length - 1)
    treeValid := true
    codesValid := false
    cursor := BitVec.ofNat 9 ((buildArena s).length - 1) }

/-- The pseudocode of R95. -/
def buildRule (s : State) : Except ErrCode State :=
  if s.ndist = 0 then .error .emptyInput else .ok (commitTree s)

/-- BUILD (42_tree_builder.md R95). -/
def execBuild (s : State) : Host.Outcome State Fault Refusal := runRule s (buildRule s)

end Sys2Proof.Machine
end

