-- ==== Sys2Proof/Machine/Dispatch.lean ====
section
/-! DEFINITION. What the engine's step does with each command (60_exceptions.md R141), one arm a command. -/

namespace Sys2Proof.Machine

def exec (i : Instr) (s : State) : Host.Outcome State Fault Refusal :=
  match i with
  | .nop => Sys2Proof.Machine.execNop s
  | .clr mask => Sys2Proof.Machine.execClr mask s
  | .count sym => Sys2Proof.Machine.execCount sym s
  | .countn sym n => Sys2Proof.Machine.execCountn sym n s
  | .build => Sys2Proof.Machine.execBuild s
  | .derive => Sys2Proof.Machine.execDerive s
  | .enc sym => Sys2Proof.Machine.execEnc sym s
  | .wrbits n v => Sys2Proof.Machine.execWrbits n v s
  | .decbit b => Sys2Proof.Machine.execDecbit b s
  | .decend => Sys2Proof.Machine.execDecend s
  | .decbuf => Sys2Proof.Machine.execDecbuf s
  | .rdfreq sym => Sys2Proof.Machine.execRdfreq sym s
  | .rdnode id => Sys2Proof.Machine.execRdnode id s
  | .rdcode sym w => Sys2Proof.Machine.execRdcode sym w s
  | .rdbits k => Sys2Proof.Machine.execRdbits k s
  | .rdsym idx => Sys2Proof.Machine.execRdsym idx s

end Sys2Proof.Machine
end

