-- ==== Sys2Proof/Machine/Step.lean ====
section
/-! DEFINITION. One step of the machine: the engine's atomic step where it is due (60_exceptions.md R141), else the next event
of the outside world (20_memory.md R67; log 1). -/

namespace Sys2Proof.Machine

/-- The engine's step (60_exceptions.md R141): decode the pending word (30_encoding.md R78), then run the command's rule, or
ILLEGAL_CMD. Completion and `PEND <- empty` are in `runRule` and `raiseError`. -/
def engineStep (s : State) : Host.Outcome State Fault Refusal :=
  match fetchWord s with
  | none => .next s
  | some w =>
    match decode w with
    | .ok i => exec i s
    | .error _ => execIllegal s

/-- One step: deterministic, the interleaving of 00_scope.md R8 being data of the state (logs 1 and 2). -/
def step (s : State) : Host.Outcome State Fault Refusal :=
  if engineDue s then engineStep s else hostStep s

/-- The command word placed in the one command slot, so that the very next step executes it (log 11). -/
def State.withFetchWord (s : State) (nbits w : Nat) : State := placeCommand s (BitVec.ofNat 32 (w % 2 ^ nbits))

end Sys2Proof.Machine
end

