-- ==== Sys2Proof/Machine/Asm.lean ====
section
/-! DEFINITION. The pseudo-instructions and the assembler line syntax (30_encoding.md R80, R81; log 14). Neither is
architectural: both only say which commands, or which host accesses, a line stands for. -/

namespace Sys2Proof.Machine

/-! Pseudo-instructions (R81). -/

/-- `COUNTS "s"`. -/
def pseudoCounts (ss : List Sym) : List Instr := ss.map .count

/-- `ENCS "s"`. -/
def pseudoEncs (ss : List Sym) : List Instr := ss.map .enc

/-- `DECBITS "bits"`. -/
def pseudoDecbits (bs : List Bool) : List Instr := bs.map .decbit

/-- One chunk of `WRBITSS`: `WRBITS m, v` with `v[i] = c_i`. -/
def wrbitsChunk (bs : List Bool) : Instr :=
  .wrbits (BitVec.ofNat 5 bs.length) ((packBits (fun j => bs.getD j false) 16).setWidth 16)

/-- `WRBITSS "bits"`: chunks of 16, the last may be shorter; the first argument bounds the number of chunks. -/
def wrbitsChunks : Nat → List Bool → List Instr
  | 0, _ => []
  | fuel + 1, bs => if bs.isEmpty then [] else wrbitsChunk (bs.take 16) :: wrbitsChunks fuel (bs.drop 16)

/-- `WRBITSS "bits"`. -/
def pseudoWrbitss (bs : List Bool) : List Instr := wrbitsChunks bs.length bs

/-- `NEWSESSION` = `CLR F+T+B+S+D`. -/
def pseudoNewsession : List Instr := [.clr 0x3B]

/-- `ENCODE "s"`. -/
def pseudoEncode (ss : List Sym) : List Instr :=
  pseudoNewsession ++ pseudoCounts ss ++ [.build, .derive] ++ pseudoEncs ss

/-- `DECODE`. -/
def pseudoDecode : List Instr := [.clr 0x10, .decbuf]

/-- The CMD write a listing's line stands for (R80). -/
def submitEvent (p : Params) (i : Instr) : HostEvent := .write (p.base + 0x08) .w32 (encode i)

/-- One read of the `WAIT` loop (R81), which the host repeats until bit 0 of the word read is 0. -/
def waitEvent (p : Params) : HostEvent := .read (p.base + 0x0C) .w32

/-! The line syntax (R80). -/

/-- The tokens of a line. -/
inductive Tok where
  | word (cs : List Char)
  | char (c : Char)
  | string (cs : List Char)
  | comma
  | plus
  deriving DecidableEq, Repr

/-- The word read so far, if any, as a token before the rest. -/
def flushWord (w : List Char) (rest : List Tok) : List Tok := if w.isEmpty then rest else .word w.reverse :: rest

/-- Cuts a line into tokens; a semicolon outside quotes starts a comment. `quoted` says whether a string is open, and `w` is
the word or string read so far, last character first. Code 34 is the double quote, 39 the single quote. -/
def lexLine : (quoted : Bool) → (w : List Char) → List Char → Option (List Tok)
  | false, w, [] => some (flushWord w [])
  | true, _, [] => none
  | true, w, c :: rest =>
    if c.toNat = 34 then (lexLine false [] rest).map (.string w.reverse :: ·) else lexLine true (c :: w) rest
  | false, w, c :: rest =>
    if c.toNat = 34 then (lexLine true [] rest).map (flushWord w)
    else if c.toNat = 39 then
      match rest with
      | x :: q :: rest' => if q.toNat = 39 then (lexLine false [] rest').map (fun ts => flushWord w (.char x :: ts)) else none
      | _ => none
    else if c = ';' then some (flushWord w [])
    else if c = ',' then (lexLine false [] rest).map (fun ts => flushWord w (.comma :: ts))
    else if c = '+' then (lexLine false [] rest).map (fun ts => flushWord w (.plus :: ts))
    else if c.isWhitespace then (lexLine false [] rest).map (flushWord w)
    else lexLine false (c :: w) rest

/-- The value of a digit. -/
def digitValue (c : Char) : Option Nat :=
  if '0' ≤ c ∧ c ≤ '9' then some (c.toNat - 48)
  else if 'a' ≤ c ∧ c ≤ 'f' then some (c.toNat - 87)
  else if 'A' ≤ c ∧ c ≤ 'F' then some (c.toNat - 55)
  else none

/-- The digits of a number in a base, most significant first, after the value `acc`. -/
def digitsValue (base acc : Nat) : List Char → Option Nat
  | [] => some acc
  | c :: rest =>
    match digitValue c with
    | some d => if d < base then digitsValue base (base * acc + d) rest else none
    | none => none

/-- A number: decimal, `0x` hexadecimal, or the `0b` binary the listings of 95_test_vectors.md use (log 14). -/
def numberValue : List Char → Option Nat
  | [] => none
  | '0' :: 'x' :: c :: rest => digitsValue 16 0 (c :: rest)
  | '0' :: 'b' :: c :: rest => digitsValue 2 0 (c :: rest)
  | cs => digitsValue 10 0 cs

/-- A character's 8-bit ASCII code (R80). -/
def asciiSym (c : Char) : Option Sym := if c.toNat < 128 then some (BitVec.ofNat 8 c.toNat) else none

/-- An operand: a number that fits its field, or a character literal in a symbol's place. -/
def operandValue (w : Nat) : Tok → Option (BitVec w)
  | .word cs => (numberValue cs).bind fun n => if n < 2 ^ w then some (BitVec.ofNat w n) else none
  | .char c => if w = 8 then (asciiSym c).map (BitVec.setWidth w) else none
  | _ => none

/-- A CLR mask name (R80). -/
def maskName : List Char → Option (BitVec 6)
  | ['F'] => some 0x01
  | ['T'] => some 0x02
  | ['C'] => some 0x04
  | ['B'] => some 0x08
  | ['S'] => some 0x10
  | ['D'] => some 0x20
  | _ => none

/-- CLR mask names joined by plus signs. -/
def maskNames : List Tok → Option (BitVec 6)
  | [.word cs] => maskName cs
  | .word cs :: .plus :: rest => (maskName cs).bind fun m => (maskNames rest).map (m ||| ·)
  | _ => none

/-- A string of '0' and '1'. -/
def bitString (cs : List Char) : Option (List Bool) :=
  cs.mapM fun c => if c = '0' then some false else if c = '1' then some true else none

/-- The commands with one operand. -/
def assembleOne (m : List Char) (a : Tok) : Option (List Instr) :=
  if m = ['C', 'O', 'U', 'N', 'T'] then (operandValue 8 a).map fun x => [.count x]
  else if m = ['E', 'N', 'C'] then (operandValue 8 a).map fun x => [.enc x]
  else if m = ['D', 'E', 'C', 'B', 'I', 'T'] then (operandValue 1 a).map fun x => [.decbit (x.getLsbD 0)]
  else if m = ['R', 'D', 'F', 'R', 'E', 'Q'] then (operandValue 8 a).map fun x => [.rdfreq x]
  else if m = ['R', 'D', 'N', 'O', 'D', 'E'] then (operandValue 9 a).map fun x => [.rdnode x]
  else if m = ['R', 'D', 'B', 'I', 'T', 'S'] then (operandValue 11 a).map fun x => [.rdbits x]
  else if m = ['R', 'D', 'S', 'Y', 'M'] then (operandValue 16 a).map fun x => [.rdsym x]
  else
    match a with
    | .string cs =>
      if m = ['C', 'O', 'U', 'N', 'T', 'S'] then (cs.mapM asciiSym).map pseudoCounts
      else if m = ['E', 'N', 'C', 'S'] then (cs.mapM asciiSym).map pseudoEncs
      else if m = ['E', 'N', 'C', 'O', 'D', 'E'] then (cs.mapM asciiSym).map pseudoEncode
      else if m = ['D', 'E', 'C', 'B', 'I', 'T', 'S'] then (bitString cs).map pseudoDecbits
      else if m = ['W', 'R', 'B', 'I', 'T', 'S', 'S'] then (bitString cs).map pseudoWrbitss
      else none
    | _ => none

/-- The commands with two operands. -/
def assembleTwo (m : List Char) (a b : Tok) : Option (List Instr) :=
  if m = ['C', 'O', 'U', 'N', 'T', 'N'] then
    (operandValue 8 a).bind fun x => (operandValue 16 b).map fun n => [.countn x n]
  else if m = ['W', 'R', 'B', 'I', 'T', 'S'] then
    (operandValue 5 a).bind fun n => (operandValue 16 b).map fun v => [.wrbits n v]
  else if m = ['R', 'D', 'C', 'O', 'D', 'E'] then
    (operandValue 8 a).bind fun x => (operandValue 3 b).map fun w => [.rdcode x w]
  else none

/-- The commands with no operand. -/
def assembleZero (m : List Char) : Option (List Instr) :=
  if m = ['N', 'O', 'P'] then some [.nop]
  else if m = ['B', 'U', 'I', 'L', 'D'] then some [.build]
  else if m = ['D', 'E', 'R', 'I', 'V', 'E'] then some [.derive]
  else if m = ['D', 'E', 'C', 'E', 'N', 'D'] then some [.decend]
  else if m = ['D', 'E', 'C', 'B', 'U', 'F'] then some [.decbuf]
  else if m = ['N', 'E', 'W', 'S', 'E', 'S', 'S', 'I', 'O', 'N'] then some pseudoNewsession
  else if m = ['D', 'E', 'C', 'O', 'D', 'E'] then some pseudoDecode
  else none

/-- The commands of a line's tokens. -/
def assembleToks : List Tok → Option (List Instr)
  | [] => some []
  | [.word m] => assembleZero m
  | .word m :: rest =>
    if m = ['C', 'L', 'R'] then
      match maskNames rest, rest with
      | some mask, _ => some [.clr mask]
      | none, [a] => (operandValue 6 a).map fun mask => [.clr mask]
      | none, _ => none
    else
      match rest with
      | [a] => assembleOne m a
      | [a, .comma, b] => assembleTwo m a b
      | _ => none
  | _ => none

/-- The commands a line of R80 stands for, pseudo-instructions expanded (`WAIT` is a host loop, not a command); none where the
line is not in the syntax. -/
def assembleLine (line : List Char) : Option (List Instr) := (lexLine false [] line).bind assembleToks

end Sys2Proof.Machine
end

