-- ==== Sys2Proof/Safety.lean ====
section
/-! DEFINITION. The terms claims are stated in: how a command completes, what it leaves unchanged, the invariants the spec
says the block keeps, and the notions of tree, code and observation the rules speak of. -/

namespace Sys2Proof.Machine

/-! Completion and frames. -/

/-- `completion(code)` and `PEND <- empty` of the engine's step (60_exceptions.md R141, R142). -/
structure Completes (e : ErrCode) (s t : State) : Prop where
  done : t.done = true
  lastErr : t.lastErr = e
  err : t.err = (s.err || decide (e ≠ .ok))
  pend : t.pend = none

/-- FREQ, TOTAL and NDIST unchanged. -/
structure SameFreq (s t : State) : Prop where
  freq : t.freq = s.freq
  total : t.total = s.total
  ndist : t.ndist = s.ndist

/-- The held tree unchanged: TREE_VALID, TREE_N, ROOT and every node. -/
structure SameTree (s t : State) : Prop where
  treeValid : t.treeValid = s.treeValid
  treeN : t.treeN = s.treeN
  root : t.root = s.root
  node : t.node = s.node

/-- CODES_VALID and every entry of CODE unchanged. -/
structure SameCodes (s t : State) : Prop where
  codesValid : t.codesValid = s.codesValid
  code : t.code = s.code

/-- BITLEN and every bit of BITBUF unchanged. -/
structure SameBits (s t : State) : Prop where
  bitlen : t.bitlen = s.bitlen
  bitbuf : t.bitbuf = s.bitbuf

/-- SYMLEN and every symbol of SYMBUF unchanged. -/
structure SameSyms (s t : State) : Prop where
  symlen : t.symlen = s.symlen
  symbuf : t.symbuf = s.symbuf

/-- RESULT0 and RESULT1 unchanged. -/
structure SameResults (s t : State) : Prop where
  result0 : t.result0 = s.result0
  result1 : t.result1 = s.result1

/-- What no command writes: OVR, IE, the parameters, the reset input, and the model's own fields. -/
structure SameHost (s t : State) : Prop where
  params : t.params = s.params
  ovr : t.ovr = s.ovr
  doneIE : t.doneIE = s.doneIE
  errIE : t.errIE = s.errIE
  inReset : t.inReset = s.inReset
  hostQueue : t.hostQueue = s.hostQueue
  hostData : t.hostData = s.hostData
  draws : t.draws = s.draws
  delay : t.delay = s.delay

/-- Every store, length, cursor, valid bit and result register unchanged (60_exceptions.md R145). -/
structure SameBlock (s t : State) : Prop where
  freq : SameFreq s t
  tree : SameTree s t
  codes : SameCodes s t
  cursor : t.cursor = s.cursor
  bits : SameBits s t
  syms : SameSyms s t
  results : SameResults s t

/-- The pending command, the status bits and the enables unchanged. -/
structure SameStatus (s t : State) : Prop where
  pend : t.pend = s.pend
  done : t.done = s.done
  err : t.err = s.err
  ovr : t.ovr = s.ovr
  lastErr : t.lastErr = s.lastErr
  doneIE : t.doneIE = s.doneIE
  errIE : t.errIE = s.errIE

/-- Everything but the completion fields and the result registers unchanged (45_readback.md R130). -/
structure SameButResults (s t : State) : Prop where
  freq : SameFreq s t
  tree : SameTree s t
  codes : SameCodes s t
  cursor : t.cursor = s.cursor
  bits : SameBits s t
  syms : SameSyms s t
  host : SameHost s t

/-- The command ended with error `e` and nothing else (60_exceptions.md R145). -/
def FailsWith (e : ErrCode) (s t : State) : Prop := Completes e s t ∧ SameBlock s t ∧ SameHost s t

/-- A sequence of commands, each executed as soon as the one before it has completed. -/
def execAll : List Instr → State → Host.Outcome State Fault Refusal
  | [], s => .next s
  | i :: rest, s =>
    match exec i s with
    | .next t => execAll rest t
    | .fault r => .fault r
    | .refused r => .refused r

/-! The frequency table (10_state.md R40). -/

/-- Sum over s of FREQ[s]. -/
def freqSum (s : State) : Nat := ((List.range Config.nsym).map fun k => (s.freqAt (BitVec.ofNat 8 k)).toNat).sum

/-- The number of symbols s with FREQ[s] > 0. -/
def freqEntries (s : State) : Nat :=
  ((List.range Config.nsym).filter fun k => decide (s.freqAt (BitVec.ofNat 8 k) ≠ 0)).length

/-- "The block keeps at all times: `TOTAL = sum over s of FREQ[s]` and `NDIST = |{s : FREQ[s] > 0}|`" (10_state.md R40), the
store in its canonical form. -/
structure FreqInv (s : State) : Prop where
  wf : Memory.wf freqDefault s.freq
  inRange : ∀ x ∈ s.freq, x.1 < Config.nsym
  total : s.total.toNat = freqSum s
  ndist : s.ndist.toNat = freqEntries s

/-! The tree (10_state.md R41, R45, R46). -/

/-- `NODE[i]` by number. -/
def State.nodeNo (s : State) (i : Nat) : Node := s.node.read nodeDefault i

/-- How many child fields of the held tree name node `i`. -/
def parentCount (s : State) (i : Nat) : Nat :=
  ((List.range (s.root.toNat + 1)).map fun p =>
    if (s.nodeNo p).isLeaf then 0
    else (if ((s.nodeNo p).child false).toNat = i then 1 else 0) +
      (if ((s.nodeNo p).child true).toNat = i then 1 else 0)).sum

/-- The state of the tree and the cursor with no tree held (R41, R42, R45). -/
def NoTreeForm (s : State) : Prop := s.treeN = 0 ∧ s.root = 0 ∧ s.cursor = 0 ∧ s.codesValid = false

/-- A strict binary tree in the arena (R41, R46; 42_tree_builder.md R96, R99, R101): leaves 0..n-1 in ascending symbol order
with positive frequencies, internal nodes n..2n-2 with two different children of smaller id and the exact sum of their
frequencies, and every node but the root the child of exactly one node. -/
structure HeldTree (s : State) : Prop where
  size : 1 ≤ s.treeN.toNat ∧ s.treeN.toNat ≤ Config.nsym
  root : s.root.toNat = 2 * s.treeN.toNat - 2
  leaf : ∀ i < s.treeN.toNat, (s.nodeNo i).isLeaf = true ∧ (s.nodeNo i).freq ≠ 0
  order : ∀ j < s.treeN.toNat, ∀ i < j, (s.nodeNo i).sym < (s.nodeNo j).sym
  internal : ∀ i < 2 * s.treeN.toNat - 1, s.treeN.toNat ≤ i →
    (s.nodeNo i).isLeaf = false ∧ ((s.nodeNo i).child false).toNat < i ∧ ((s.nodeNo i).child true).toNat < i ∧
    (s.nodeNo i).child false ≠ (s.nodeNo i).child true ∧
    (s.nodeNo i).freq.toNat =
      (s.nodeAt ((s.nodeNo i).child false)).freq.toNat + (s.nodeAt ((s.nodeNo i).child true)).freq.toNat
  parent : ∀ i < s.root.toNat, parentCount s i = 1

/-- "CURSOR is the id of an internal node of the held tree or equals ROOT" (R45). -/
def CursorInTree (s : State) : Prop :=
  s.cursor = s.root ∨ (s.treeN.toNat ≤ s.cursor.toNat ∧ s.cursor.toNat ≤ s.root.toNat)

/-- What the block keeps about the tree and the cursor (R41, R42, R45, R46). -/
structure TreeInv (s : State) : Prop where
  none : s.treeValid = false → NoTreeForm s
  held : s.treeValid = true → HeldTree s
  cursor : s.treeValid = true → CursorInTree s

/-- The symbol `sym` has a leaf in the held tree. -/
def HasLeaf (s : State) (sym : Sym) : Prop := ∃ i < s.treeN.toNat, (s.nodeNo i).sym = sym

/-- Where the bits lead from node `x`, 0 to the left child and 1 to the right; none where a leaf is left. -/
def followBits (s : State) (x : NodeId) : List Bool → Option NodeId
  | [] => some x
  | b :: rest => if (s.nodeAt x).isLeaf then none else followBits s ((s.nodeAt x).child b) rest

/-- The bits are the code of `sym` (43_encoder.md R106, R107): the edges from the root to its leaf, or "0" where the tree is
one leaf. -/
def IsCodeOf (s : State) (sym : Sym) (bs : List Bool) : Prop :=
  if s.treeN = 1 then (s.nodeAt 0).sym = sym ∧ bs = [false]
  else ((followBits s s.root bs).map s.nodeAt).any (fun n => n.isLeaf && n.sym == sym) = true

/-- What the block keeps about the code table (10_state.md R42; 43_encoder.md R106, R107). -/
structure CodeInv (s : State) : Prop where
  tree : s.codesValid = true → s.treeValid = true
  exactly : s.codesValid = true → ∀ sym : Sym, (s.codeAt sym).valid = true ↔ HasLeaf s sym
  path : s.codesValid = true → ∀ sym : Sym, (s.codeAt sym).valid = true → IsCodeOf s sym (s.codeAt sym).toBits
  length : s.codesValid = true → ∀ sym : Sym, (s.codeAt sym).valid = true →
    1 ≤ (s.codeAt sym).len.toNat ∧ (s.codeAt sym).len.toNat ≤ Config.lmax
  above : s.codesValid = true → ∀ sym : Sym, (s.codeAt sym).valid = true →
    ∀ j, (s.codeAt sym).len.toNat ≤ j → (s.codeAt sym).bits.getLsbD j = false

/-! The buffers and the canonical form of the stores (10_state.md R43, R44; 20_memory.md R61). -/

/-- BITLEN and SYMLEN in range, and every store canonical with its indexes in range. -/
structure StoreInv (s : State) : Prop where
  bitlen : s.bitlen ≤ s.params.bitcap
  symlen : s.symlen ≤ s.params.symcap
  node : Memory.wf nodeDefault s.node ∧ ∀ x ∈ s.node, x.1 < Config.nnode
  code : Memory.wf codeDefault s.code ∧ ∀ x ∈ s.code, x.1 < Config.nsym
  bitbuf : Memory.wf bitDefault s.bitbuf ∧ ∀ x ∈ s.bitbuf, x.1 < s.params.bitcap
  symbuf : Memory.wf symDefault s.symbuf ∧ ∀ x ∈ s.symbuf, x.1 < s.params.symcap

/-- While reset is asserted the block holds the reset values (70_reset_and_hazards.md R161). -/
def ResetHeld (s : State) : Prop := s.inReset = true → s = assertReset s

/-- All the spec says the block keeps. -/
structure Inv (s : State) : Prop where
  freq : FreqInv s
  tree : TreeInv s
  code : CodeInv s
  store : StoreInv s
  reset : ResetHeld s

/-! The order of extraction (42_tree_builder.md R97, R98). -/

/-- `(NODE[x].freq, x) < (NODE[y].freq, y)` in lexicographic order. -/
def KeyLess (s : State) (x y : Nat) : Prop :=
  (s.nodeNo x).freq < (s.nodeNo y).freq ∨ ((s.nodeNo x).freq = (s.nodeNo y).freq ∧ x < y)

/-- Node `i` is in the priority set when node `k` is made: it was made before `k`, and no node made before `k` owns it. -/
def InSetAt (s : State) (k i : Nat) : Prop :=
  i < k ∧ ∀ p < k, s.treeN.toNat ≤ p →
    ((s.nodeNo p).child false).toNat ≠ i ∧ ((s.nodeNo p).child true).toNat ≠ i

/-! Weighted depth (42_tree_builder.md R103). -/

/-- The frequency-weighted sum of the depths of the leaves below node `x`, `x` itself being at depth `depth`; the first
argument bounds the depth. -/
def weightedDepth (s : State) : Nat → NodeId → Nat → Nat
  | 0, _, _ => 0
  | fuel + 1, x, depth =>
    match s.nodeAt x with
    | .leaf _ f => f.toNat * depth
    | .internal _ l r => weightedDepth s fuel l (depth + 1) + weightedDepth s fuel r (depth + 1)

/-- A binary prefix tree over symbols, as R103 compares them. -/
inductive PrefixTree where
  | leaf (sym : Sym)
  | fork (left right : PrefixTree)
  deriving DecidableEq, Repr

/-- The symbols of the leaves, left to right. -/
def PrefixTree.syms : PrefixTree → List Sym
  | .leaf x => [x]
  | .fork l r => l.syms ++ r.syms

/-- Sum over the leaves of `freq * depth`, the root being at depth `depth`. -/
def PrefixTree.cost (freq : Sym → Nat) : PrefixTree → Nat → Nat
  | .leaf x, depth => freq x * depth
  | .fork l r, depth => l.cost freq (depth + 1) + r.cost freq (depth + 1)

/-- The sum of the counts of the leaves below node `x` (42_tree_builder.md R101); the first argument bounds the depth. -/
def leafFreqSum (s : State) : Nat → NodeId → Nat
  | 0, _ => 0
  | fuel + 1, x =>
    match s.nodeAt x with
    | .leaf _ f => f.toNat
    | .internal _ l r => leafFreqSum s fuel l + leafFreqSum s fuel r

/-! Codes and bit strings (43_encoder.md R111, 44_decoder.md R121). -/

/-- `code(s_1) ++ code(s_2) ++ ... ++ code(s_m)`. -/
def encodeSyms (s : State) (ss : List Sym) : List Bool := ss.flatMap fun x => (s.codeAt x).toBits

/-- Every symbol of the list has a code in the derived table. -/
def AllCoded (s : State) (ss : List Sym) : Prop := ∀ x ∈ ss, (s.codeAt x).valid = true

/-- The bits are `code(t_1) ++ ... ++ code(t_m)` (44_decoder.md R121), each code being the path of its leaf in the held tree
(43_encoder.md R106, R107), whether or not a code table has been derived. -/
def PathsSpell (s : State) : List Sym → List Bool → Prop
  | [], bs => bs = []
  | x :: rest, bs => ∃ c d, bs = c ++ d ∧ IsCodeOf s x c ∧ PathsSpell s rest d

/-- A proper prefix of the path of some leaf, possibly empty. -/
def ProperPrefixOfPath (s : State) (r : List Bool) : Prop :=
  ∃ (x : Sym) (c : List Bool), IsCodeOf s x c ∧ r <+: c ∧ r ≠ c

/-- The bit string is the codes of `ss` followed by `r`, a proper prefix of some code (44_decoder.md R121). -/
def SplitsInto (s : State) (bs : List Bool) (ss : List Sym) (r : List Bool) : Prop :=
  ∃ codes, PathsSpell s ss codes ∧ bs = codes ++ r ∧ ProperPrefixOfPath s r

/-! Observation (10_state.md R51). -/

/-- Equal but for what no command and no register read returns: nodes with no tree held or beyond ROOT, codes with none
derived, bits at or beyond BITLEN, symbols at or beyond SYMLEN (10_state.md R51). -/
structure ObsEq (s t : State) : Prop where
  params : t.params = s.params
  freq : SameFreq s t
  treeValid : t.treeValid = s.treeValid
  treeN : t.treeN = s.treeN
  root : t.root = s.root
  node : s.treeValid = true → ∀ i : NodeId, i ≤ s.root → t.nodeAt i = s.nodeAt i
  codesValid : t.codesValid = s.codesValid
  code : s.codesValid = true → ∀ x : Sym, t.codeAt x = s.codeAt x
  bitlen : t.bitlen = s.bitlen
  bits : ∀ p < s.bitlen, t.bitAt p = s.bitAt p
  symlen : t.symlen = s.symlen
  syms : ∀ i < s.symlen, t.symAt i = s.symAt i
  cursor : t.cursor = s.cursor
  results : SameResults s t
  pend : t.pend = s.pend
  done : t.done = s.done
  err : t.err = s.err
  lastErr : t.lastErr = s.lastErr
  host : SameHost s t

/-- Two outcomes that look the same from outside. -/
def ObsEqOutcome : Host.Outcome State Fault Refusal → Host.Outcome State Fault Refusal → Prop
  | .next s, .next t => ObsEq s t
  | .fault a, .fault b => a = b
  | .refused a, .refused b => a = b
  | _, _ => False

/-! Which commands may do what (60_exceptions.md R147, 10_state.md R47, 45_readback.md R130). -/

/-- The error codes a command's checks can give (60_exceptions.md R144, R147). -/
def mayRaise : Instr → List ErrCode
  | .nop => []
  | .clr _ => []
  | .count _ => [.overflow]
  | .countn _ _ => [.illegalCmd, .overflow]
  | .build => [.emptyInput]
  | .derive => [.noTree]
  | .enc _ => [.unknownSymbol, .bufFull]
  | .wrbits _ _ => [.illegalCmd, .bufFull]
  | .decbit _ => [.noTree, .malformed, .bufFull]
  | .decend => [.noTree, .truncated]
  | .decbuf => [.noTree, .malformed, .bufFull, .truncated]
  | .rdfreq _ => []
  | .rdnode _ => [.noTree, .range]
  | .rdcode _ _ => []
  | .rdbits _ => [.range]
  | .rdsym _ => [.range]

/-- The five read-back commands (45_readback.md). -/
def isReadback : Instr → Bool
  | .rdfreq _ => true
  | .rdnode _ => true
  | .rdcode _ _ => true
  | .rdbits _ => true
  | .rdsym _ => true
  | _ => false

/-- The commands whose rules write RESULT0 and RESULT1 (10_state.md R47). -/
def writesResults : Instr → Bool
  | .enc _ => true
  | .decbit _ => true
  | .decbuf => true
  | i => isReadback i

/-- The engine executes command `i` in the step from `s`. -/
def EngineRuns (s : State) (i : Instr) : Prop := engineDue s = true ∧ ∃ w, s.pend = some w ∧ decode w = .ok i

/-! What the outside world does. -/

/-- The event neither stops the run nor asserts reset: an access to a register of the window, or a release of reset. -/
def Harmless (p : Params) : HostEvent → Prop
  | .read addr width => ∃ r, targetOf p addr width = .reg r
  | .write addr width _ => ∃ r, targetOf p addr width = .reg r
  | .assertReset => False
  | .releaseReset => True

/-- The event is the next thing the machine does. -/
def NextEvent (s : State) (e : HostEvent) (rest : List HostEvent) : Prop :=
  engineDue s = false ∧ s.hostQueue = e :: rest

end Sys2Proof.Machine
end

