-- ==== Sys2Proof/Certificates/Slice0/Obligations.lean ====
section
/-! DEFINITION. The statements for the provers, in the order of OBLIGATIONS.json: encoding, the step, the register window, reset,
the commands family by family, whole-machine rules, invariants. A docstring names the rule of spec/ a statement formalises, and
the log entry where a clause is the model's own choice. -/

open Sys2Proof Sys2Proof.Machine

/-! ## Encoding -/

/-- Decoding the word of a well-formed command gives the command back, with every operand at every value R71 and R76 allow
(30_encoding.md R71, R72, R73, R78). -/
def Obligations.DecodeInvertsEncode : Prop := ∀ i : Instr, i.wf = true → decode (encode i) = .ok i

/-- A word that decodes to a command is that command's word, and the command is well formed: no bit of a word is dropped
(30_encoding.md R72, R74, R76). -/
def Obligations.EncodeInvertsDecode : Prop := ∀ (w : Word) (i : Instr), decode w = .ok i → encode i = w ∧ i.wf = true

/-- 30_encoding.md R78: a word that matches a row is that row's command or has an illegal field value, a word that matches none is
rejected, no word matches two rows, and the engine decodes before any other check of the command's rule. -/
def Obligations.DecodingIsTotalAndUnambiguous : Prop :=
  (∀ (w : Word) (op : Op), w &&& op.maskWord = op.matchWord →
    decode w = if (op.fields w).wf then .ok (op.fields w) else .error .illegalField) ∧
  (∀ w : Word, (∀ op : Op, w &&& op.maskWord ≠ op.matchWord) → ∃ r, decode w = .error r) ∧
  (∀ (w : Word) (a b : Op), w &&& a.maskWord = a.matchWord → w &&& b.maskWord = b.matchWord → a = b) ∧
  (∀ (s : State) (w : Word), engineDue s = true → s.pend = some w →
    (∀ i, decode w = .ok i → Sys2Proof.Machine.step s = exec i s) ∧
    (∀ r, decode w = .error r → ∃ t, Sys2Proof.Machine.step s = .next t ∧ FailsWith .illegalCmd s t))

/-- Words of 95_test_vectors.md ("Command words used below"; V-ILL), one or more a family, decode to the commands they stand
for. -/
def Obligations.SampleWordsDecode : Prop :=
  decode 0x00000000 = .ok .nop ∧ decode 0x0800003B = .ok (.clr 0x3B) ∧ decode 0x10000061 = .ok (.count 0x61) ∧
  decode 0x18000461 = .ok (.countn 0x61 4) ∧ decode 0x20000000 = .ok .build ∧ decode 0x28000000 = .ok .derive ∧
  decode 0x30000061 = .ok (.enc 0x61) ∧ decode 0x38030006 = .ok (.wrbits 3 6) ∧ decode 0x40000001 = .ok (.decbit true) ∧
  decode 0x48000000 = .ok .decend ∧ decode 0x50000000 = .ok .decbuf ∧ decode 0x80000061 = .ok (.rdfreq 0x61) ∧
  decode 0x88000002 = .ok (.rdnode 2) ∧ decode 0x90000161 = .ok (.rdcode 0x61 1) ∧ decode 0x980007FF = .ok (.rdbits 0x7FF) ∧
  decode 0xA0000001 = .ok (.rdsym 1) ∧ decode 0x58000000 = .error .reservedOpcode ∧
  decode 0x08000040 = .error .nonzeroMustBeZero ∧ decode 0x38110000 = .error .illegalField

/-- The word of command `i` is the row's `match` with the operand bits in their places, it decodes to `i`, and under the row's
`mask` it is `match` (30_encoding.md R71, R72, R73); a command's statement says this with the numbers of its own rule. -/
def EncodedAs (i : Instr) (matchBits maskBits operands : Word) : Prop :=
  decode (matchBits ||| operands) = .ok i ∧ (matchBits ||| operands) &&& maskBits = matchBits

/-- The words 30_encoding.md R74, R75 and R76 call illegal. -/
def IllegalWord (w : Word) : Prop :=
  (0x0B ≤ (opcodeOf w).toNat ∧ (opcodeOf w).toNat ≤ 0x0F) ∨ 0x15 ≤ (opcodeOf w).toNat ∨
  (∃ op : Op, opcodeOf w = opcodeOf op.matchWord ∧ w &&& op.maskWord ≠ op.matchWord) ∨
  (opcodeOf w = 0x03 ∧ w.extractLsb' 8 16 = 0) ∨
  (opcodeOf w = 0x07 ∧ (w.extractLsb' 16 5 = 0 ∨ (w.extractLsb' 16 5).toNat > 16))

/-- 30_encoding.md R74, R75, R76: an illegal word completes with ILLEGAL_CMD and changes nothing else; every other word decodes
to a command. -/
def Obligations.IllegalWordsOnlyReport : Prop :=
  (∀ (s : State) (w : Word), engineDue s = true → s.pend = some w → IllegalWord w →
    ∃ t, Sys2Proof.Machine.step s = .next t ∧ FailsWith .illegalCmd s t) ∧
  (∀ w : Word, ¬IllegalWord w → ∃ i, decode w = .ok i)

/-! ## The step -/

/-- The step runs the decoded command as soon as the engine is due, and otherwise performs the next event of the outside world, or
waits (60_exceptions.md R141, 20_memory.md R67, 70_reset_and_hazards.md R163). When the engine is due, and that an event taken
lowers the delay, is the model's own choice (logs 1 and 2). -/
def Obligations.StepRunsDecodedCommandOrEvent : Prop :=
  (∀ (s : State) (w : Word) (i : Instr), s.pend = some w → s.inReset = false → (s.delay = 0 ∨ s.hostQueue = []) →
    decode w = .ok i → Sys2Proof.Machine.step s = exec i s) ∧
  (∀ s : State, s.pend = none ∨ s.inReset = true → s.hostQueue = [] → Sys2Proof.Machine.step s = .next s) ∧
  (∀ (s : State) (e : HostEvent) (rest : List HostEvent),
    (s.pend = none ∨ s.inReset = true ∨ s.delay ≠ 0) → s.hostQueue = e :: rest →
    Sys2Proof.Machine.step s = perform e { s with hostQueue := rest, delay := s.delay - 1 })

/-! ## The register window -/

/-- 60_exceptions.md R140: a CMD write is accepted where PEND is empty, and STATUS.BUSY reads 1 from then on; otherwise it is
dropped, OVR is set, and nothing else changes. -/
def Obligations.CmdWriteAcceptedOrDropped : Prop :=
  ∀ (s : State) (rest : List HostEvent) (w : Word), s.inReset = false →
    NextEvent s (.write (s.params.base + 0x08) .w32 w) rest →
    ∃ t, Sys2Proof.Machine.step s = .next t ∧ SameBlock s t ∧ t.hostQueue = rest ∧ t.hostData = s.hostData ∧
      t.params = s.params ∧ t.inReset = false ∧ t.doneIE = s.doneIE ∧ t.errIE = s.errIE ∧
      t.done = s.done ∧ t.err = s.err ∧ t.lastErr = s.lastErr ∧
      (s.pend = none → t.pend = some w ∧ t.statusWord.getLsbD 0 = true ∧ t.ovr = s.ovr) ∧
      (∀ v, s.pend = some v → t.pend = some v ∧ t.ovr = true)

/-- 10_state.md R37: the place of every STATUS field, what a STATUS read returns at any time, and what a STATUS write clears. -/
def Obligations.StatusRegister : Prop :=
  (∀ s : State, s.statusWord.getLsbD 0 = s.pend.isSome ∧ s.statusWord.getLsbD 1 = s.done ∧
    s.statusWord.getLsbD 2 = s.err ∧ s.statusWord.getLsbD 3 = s.ovr ∧ s.statusWord.getLsbD 4 = s.treeValid ∧
    s.statusWord.getLsbD 5 = s.codesValid ∧
    s.statusWord.getLsbD 6 = (s.treeValid && decide (s.cursor ≠ s.root)) ∧ s.statusWord.getLsbD 7 = false ∧
    s.statusWord.extractLsb' 8 4 = s.lastErr.code ∧ ∀ j, 12 ≤ j → s.statusWord.getLsbD j = false) ∧
  (∀ (s : State) (rest : List HostEvent), s.inReset = false →
    NextEvent s (.read (s.params.base + 0x0C) .w32) rest →
    ∃ t, Sys2Proof.Machine.step s = .next t ∧ t.hostData = s.statusWord :: s.hostData ∧ SameBlock s t ∧ SameStatus s t) ∧
  (∀ (s : State) (rest : List HostEvent) (v : Word), s.inReset = false →
    NextEvent s (.write (s.params.base + 0x0C) .w32 v) rest →
    ∃ t, Sys2Proof.Machine.step s = .next t ∧ SameBlock s t ∧
      t.done = (s.done && !v.getLsbD 1) ∧ t.err = (s.err && !v.getLsbD 2) ∧ t.ovr = (s.ovr && !v.getLsbD 3) ∧
      t.pend = s.pend ∧ t.lastErr = s.lastErr ∧ t.doneIE = s.doneIE ∧ t.errIE = s.errIE)

/-- 10_state.md R38: IE bits 1 and 2 are read-write, every other bit reads 0 and ignores writes. -/
def Obligations.InterruptEnableRegister : Prop :=
  (∀ (s : State) (rest : List HostEvent) (v : Word), s.inReset = false →
    NextEvent s (.write (s.params.base + 0x10) .w32 v) rest →
    ∃ t, Sys2Proof.Machine.step s = .next t ∧ SameBlock s t ∧ t.doneIE = v.getLsbD 1 ∧ t.errIE = v.getLsbD 2 ∧
      t.pend = s.pend ∧ t.done = s.done ∧ t.err = s.err ∧ t.ovr = s.ovr ∧ t.lastErr = s.lastErr) ∧
  (∀ (s : State) (rest : List HostEvent), s.inReset = false →
    NextEvent s (.read (s.params.base + 0x10) .w32) rest →
    ∃ t v, Sys2Proof.Machine.step s = .next t ∧ t.hostData = v :: s.hostData ∧ SameBlock s t ∧ SameStatus s t ∧
      v.getLsbD 1 = s.doneIE ∧ v.getLsbD 2 = s.errIE ∧ ∀ j, j ≠ 1 → j ≠ 2 → v.getLsbD j = false)

/-- 10_state.md R34, R35: what ID and PARAM read at any time the block is not in reset, busy or not. -/
def Obligations.IdentificationRegisters : Prop :=
  (∀ (s : State) (rest : List HostEvent), s.inReset = false → NextEvent s (.read s.params.base .w32) rest →
    ∃ t, Sys2Proof.Machine.step s = .next t ∧ t.hostData = 0x48554631 :: s.hostData ∧ SameBlock s t ∧ SameStatus s t) ∧
  (∀ (s : State) (rest : List HostEvent), s.inReset = false → NextEvent s (.read (s.params.base + 0x04) .w32) rest →
    ∃ t v, Sys2Proof.Machine.step s = .next t ∧ t.hostData = v :: s.hostData ∧ SameBlock s t ∧ SameStatus s t ∧
      v.extractLsb' 0 8 = 8 ∧ 2 ^ (v.extractLsb' 8 5).toNat = s.params.bitcap ∧ v.extractLsb' 13 3 = 0 ∧
      2 ^ (v.extractLsb' 16 5).toNat = s.params.symcap ∧ v.extractLsb' 21 3 = 0 ∧ v.extractLsb' 24 8 = 1 ∧
      (s.params.bitcap = 65536 → s.params.symcap = 65536 → v = 0x01101008))

/-- 10_state.md R32, R36, R39, R47; 20_memory.md R64: a read of CMD or of a reserved offset returns 0 at all times outside reset,
busy or not; with the block idle NDIST, TOTAL, ROOT, CURSOR, TREE_N, BITLEN, SYMLEN, RESULT0 and RESULT1 read their values; and none
of these reads has a side effect on the block. (StatusRegister, InterruptEnableRegister and IdentificationRegisters speak of the other
four registers.) -/
def Obligations.WindowReadsWhenIdle : Prop :=
  (∀ (s : State) (rest : List HostEvent), s.inReset = false →
    ∀ off ∈ [0x08, 0x38, 0x3C], NextEvent s (.read (s.params.base + off) .w32) rest →
      ∃ t, Sys2Proof.Machine.step s = .next t ∧ t.hostData = 0 :: s.hostData ∧ SameBlock s t ∧ SameStatus s t ∧
        t.draws = s.draws) ∧
  ∀ (s : State) (rest : List HostEvent), s.pend = none → s.inReset = false →
    ∀ p ∈ [(0x14, s.ndist.setWidth 32), (0x18, s.total), (0x1C, s.root.setWidth 32),
        (0x20, s.cursor.setWidth 32), (0x24, s.treeN.setWidth 32), (0x28, BitVec.ofNat 32 s.bitlen),
        (0x2C, BitVec.ofNat 32 s.symlen), (0x30, s.result0), (0x34, s.result1)],
      NextEvent s (.read (s.params.base + p.1) .w32) rest →
      ∃ t, Sys2Proof.Machine.step s = .next t ∧ t.hostData = p.2 :: s.hostData ∧ SameBlock s t ∧ SameStatus s t ∧
        t.draws = s.draws

/-- 10_state.md R39, 20_memory.md R64: while BUSY = 1 a read of NDIST, TOTAL, ROOT, CURSOR, TREE_N, BITLEN, SYMLEN, RESULT0 or
RESULT1 returns a value nothing constrains (the free value of log 4, the model's form of "unspecified") and changes nothing. -/
def Obligations.BusyReadsReturnFreeValues : Prop :=
  ∀ (s : State) (rest : List HostEvent) (w : Word), s.pend = some w → s.inReset = false →
    ∀ off ∈ [0x14, 0x18, 0x1C, 0x20, 0x24, 0x28, 0x2C, 0x30, 0x34],
      NextEvent s (.read (s.params.base + off) .w32) rest →
      ∃ t, Sys2Proof.Machine.step s = .next t ∧ t.hostData = Config.drawWord s.draws :: s.hostData ∧
        t.draws = s.draws + 1 ∧ SameBlock s t ∧ SameStatus s t

/-- 10_state.md R32, R39; 20_memory.md R64: a write to a read-only or reserved register changes nothing. -/
def Obligations.WritesToReadOnlyIgnored : Prop :=
  ∀ (s : State) (rest : List HostEvent) (v : Word),
    ∀ off ∈ [0x00, 0x04, 0x14, 0x18, 0x1C, 0x20, 0x24, 0x28, 0x2C, 0x30, 0x34, 0x38, 0x3C],
      NextEvent s (.write (s.params.base + off) .w32 v) rest →
      ∃ t, Sys2Proof.Machine.step s = .next t ∧ SameBlock s t ∧ SameStatus s t ∧ t.hostData = s.hostData ∧
        t.params = s.params ∧ t.inReset = s.inReset ∧ t.draws = s.draws

/-- 20_memory.md R63: inside the window, outside reset, a 32-bit access at a 4-byte-aligned offset is accepted, and every other
access is a bus error, which a model treats as a host fault. (AccessDuringResetHasNoEffect speaks of the accesses during reset.) -/
def Obligations.WindowAcceptsOnlyAlignedWords : Prop :=
  (∀ (s : State) (rest : List HostEvent) (off : Nat) (width : Width), s.inReset = false → off < 64 → (width ≠ .w32 ∨ off % 4 ≠ 0) →
    (NextEvent s (.read (s.params.base + off) width) rest → Sys2Proof.Machine.step s = .fault .busError) ∧
    (∀ v, NextEvent s (.write (s.params.base + off) width v) rest → Sys2Proof.Machine.step s = .fault .busError)) ∧
  (∀ (s : State) (rest : List HostEvent) (off : Nat), s.inReset = false → off < 64 → off % 4 = 0 →
    (NextEvent s (.read (s.params.base + off) .w32) rest → ∃ t, Sys2Proof.Machine.step s = .next t) ∧
    (∀ v, NextEvent s (.write (s.params.base + off) .w32 v) rest → ∃ t, Sys2Proof.Machine.step s = .next t))

/-- 20_memory.md R65 leaves an access outside the window to the platform; that the model refuses it by name is its own choice
(log 10). -/
def Obligations.AccessOutsideWindowIsRefused : Prop :=
  ∀ (s : State) (rest : List HostEvent) (addr : Nat) (width : Width), addr < s.params.base ∨ s.params.base + 64 ≤ addr →
    (NextEvent s (.read addr width) rest → Sys2Proof.Machine.step s = .refused .outsideWindow) ∧
    (∀ v, NextEvent s (.write addr width v) rest → Sys2Proof.Machine.step s = .refused .outsideWindow)

/-- 60_exceptions.md R148, R149 and, for reset, 70_reset_and_hazards.md R161: the level of irq, and that it rises only on a
completion, a dropped CMD write or an IE write, and falls only on a STATUS write, an IE write or a reset. -/
def Obligations.InterruptLevelChanges : Prop :=
  (∀ s : State, s.irq = true ↔ (s.done = true ∧ s.doneIE = true) ∨ ((s.err = true ∨ s.ovr = true) ∧ s.errIE = true)) ∧
  (∀ s t : State, Sys2Proof.Machine.step s = .next t → s.irq = false → t.irq = true →
    engineDue s = true ∨ ∃ addr width v rest, NextEvent s (.write addr width v) rest ∧
      ((targetOf s.params addr width = .reg .cmd ∧ s.pend.isSome = true) ∨ targetOf s.params addr width = .reg .ie)) ∧
  (∀ s t : State, Sys2Proof.Machine.step s = .next t → s.irq = true → t.irq = false →
    ∃ e rest, NextEvent s e rest ∧ (e = .assertReset ∨ ∃ addr width v, e = .write addr width v ∧
      (targetOf s.params addr width = .reg .status ∨ targetOf s.params addr width = .reg .ie)))

/-! ## Reset -/

/-- The values 10_state.md R50 gives (the stores it calls unspecified are not mentioned). -/
structure ResetForm (s : State) : Prop where
  freq : ∀ x : Sym, s.freqAt x = 0
  counts : s.total = 0 ∧ s.ndist = 0
  tree : s.treeValid = false ∧ s.treeN = 0 ∧ s.root = 0
  codes : s.codesValid = false
  lengths : s.bitlen = 0 ∧ s.symlen = 0
  cursor : s.cursor = 0
  results : s.result0 = 0 ∧ s.result1 = 0
  pend : s.pend = none
  flags : s.done = false ∧ s.err = false ∧ s.ovr = false ∧ s.lastErr.code = 0
  enables : s.doneIE = false ∧ s.errIE = false
  irq : s.irq = false

/-- 10_state.md R50: the state after reset, and what a block whose parameters are anything else holds after reset. -/
def Obligations.ResetValues : Prop := ResetForm State.reset ∧ ∀ p : Params, ResetForm (State.resetWith p)

/-- 70_reset_and_hazards.md R161, R162: asserting reset gives the values of R50, irq among them, and discards a pending command
for good; releasing it leaves the block idle and changes nothing else. That reset arrives as an event of the queue is the
model's own choice (log 9). -/
def Obligations.ResetInput : Prop :=
  (∀ (s : State) (rest : List HostEvent), NextEvent s .assertReset rest →
    ∃ t, Sys2Proof.Machine.step s = .next t ∧ ResetForm t ∧ t.inReset = true ∧ t.hostQueue = rest ∧
      t.params = s.params) ∧
  (∀ (s : State) (rest : List HostEvent), NextEvent s .releaseReset rest →
    ∃ t, Sys2Proof.Machine.step s = .next t ∧ t.inReset = false ∧ SameBlock s t ∧ SameStatus s t)

/-- 70_reset_and_hazards.md R161: while reset is asserted no command is accepted, an access of the window has no effect on the
block, and a read returns a value nothing constrains (log 4). That an access R63 does not accept is a bus error during reset too is
the model's reading (log 8). -/
def Obligations.AccessDuringResetHasNoEffect : Prop :=
  (∀ (s : State) (rest : List HostEvent) (off : Nat) (width : Width), s.inReset = true → off < 64 →
    (width ≠ .w32 ∨ off % 4 ≠ 0) →
    (NextEvent s (.read (s.params.base + off) width) rest → Sys2Proof.Machine.step s = .fault .busError) ∧
    (∀ v, NextEvent s (.write (s.params.base + off) width v) rest → Sys2Proof.Machine.step s = .fault .busError)) ∧
  ∀ (s : State) (rest : List HostEvent) (off : Nat), s.inReset = true → off < 64 → off % 4 = 0 →
    (NextEvent s (.read (s.params.base + off) .w32) rest →
      ∃ t, Sys2Proof.Machine.step s = .next t ∧ SameBlock s t ∧ SameStatus s t ∧ t.inReset = true ∧
        t.hostData = Config.drawWord s.draws :: s.hostData ∧ t.draws = s.draws + 1) ∧
    (∀ v, NextEvent s (.write (s.params.base + off) .w32 v) rest →
      ∃ t, Sys2Proof.Machine.step s = .next t ∧ SameBlock s t ∧ SameStatus s t ∧ t.inReset = true)

/-! ## Control commands -/

/-- 40_control.md R85: NOP completes with code 0 and changes nothing else. -/
def Obligations.NopOnlyCompletes : Prop :=
  EncodedAs .nop 0x00000000 0xFFFFFFFF 0 ∧
  ∀ s : State, ∃ t, exec .nop s = .next t ∧ Completes .ok s t ∧ SameBlock s t ∧ SameHost s t

/-- 40_control.md R86: what CLR clears under each mask bit, and that everything else, the stored bits and symbols among it, is as
before. -/
def Obligations.ClrClearsSelectedStores : Prop :=
  ∀ (mask : BitVec 6) (s : State), EncodedAs (.clr mask) 0x08000000 0xFFFFFFC0 (mask.setWidth 32) ∧ ∃ t, exec (.clr mask) s = .next t ∧ Completes .ok s t ∧
    (mask.getLsbD 0 = true → (∀ x : Sym, t.freqAt x = 0) ∧ t.total = 0 ∧ t.ndist = 0) ∧
    (mask.getLsbD 0 = false → SameFreq s t) ∧
    (mask.getLsbD 1 = true → t.treeValid = false ∧ t.treeN = 0 ∧ t.root = 0 ∧ t.cursor = 0 ∧ t.codesValid = false) ∧
    (mask.getLsbD 1 = false → SameTree s t ∧
      t.codesValid = (s.codesValid && !mask.getLsbD 2) ∧ t.cursor = if mask.getLsbD 5 then s.root else s.cursor) ∧
    t.bitlen = (if mask.getLsbD 3 then 0 else s.bitlen) ∧ t.symlen = (if mask.getLsbD 4 then 0 else s.symlen) ∧
    t.node = s.node ∧ t.code = s.code ∧ t.bitbuf = s.bitbuf ∧ t.symbuf = s.symbuf ∧ SameResults s t ∧ SameHost s t

/-! ## The frequency counter -/

/-- 41_frequency.md R90: COUNT adds one to a symbol's count, to TOTAL and, for a new symbol, to NDIST, and changes nothing else;
with TOTAL at 2^32-1 it raises OVERFLOW. -/
def Obligations.CountAddsOne : Prop :=
  ∀ (x : Sym) (s : State), EncodedAs (.count x) 0x10000000 0xFFFFFF00 (x.setWidth 32) ∧
    (s.total ≠ 0xFFFFFFFF → ∃ t, exec (.count x) s = .next t ∧ Completes .ok s t ∧
      t.freqAt x = s.freqAt x + 1 ∧ (∀ y, y ≠ x → t.freqAt y = s.freqAt y) ∧ t.total = s.total + 1 ∧
      t.ndist = (if s.freqAt x = 0 then s.ndist + 1 else s.ndist) ∧
      SameTree s t ∧ SameCodes s t ∧ t.cursor = s.cursor ∧ SameBits s t ∧ SameSyms s t ∧ SameResults s t ∧ SameHost s t) ∧
    (s.total = 0xFFFFFFFF → ∃ t, exec (.count x) s = .next t ∧ FailsWith .overflow s t)

/-- 41_frequency.md R91: COUNTN adds n where the exact sum fits, which is exactly the effect of n COUNT commands, raises OVERFLOW
where it does not, and does not decode for n = 0 (30_encoding.md R76). That n COUNT commands have the same effect rests on R40's
"the block keeps at all times". -/
def Obligations.CountnAddsN : Prop :=
  ∀ (x : Sym) (n : BitVec 16) (s : State),
    (n ≠ 0 → EncodedAs (.countn x n) 0x18000000 0xFF000000 (n.setWidth 32 <<< 8 ||| x.setWidth 32)) ∧
    decode (0x18000000 ||| x.setWidth 32) = .error .illegalField ∧
    (n ≠ 0 → s.total.toNat + n.toNat ≤ 0xFFFFFFFF → ∃ t, exec (.countn x n) s = .next t ∧ Completes .ok s t ∧
      t.freqAt x = s.freqAt x + n.setWidth 32 ∧ (∀ y, y ≠ x → t.freqAt y = s.freqAt y) ∧
      t.total.toNat = s.total.toNat + n.toNat ∧ t.ndist = (if s.freqAt x = 0 then s.ndist + 1 else s.ndist) ∧
      SameTree s t ∧ SameCodes s t ∧ t.cursor = s.cursor ∧ SameBits s t ∧ SameSyms s t ∧ SameResults s t ∧ SameHost s t ∧
      (FreqInv s → execAll (List.replicate n.toNat (.count x)) s = .next t)) ∧
    (n ≠ 0 → s.total.toNat + n.toNat > 0xFFFFFFFF → ∃ t, exec (.countn x n) s = .next t ∧ FailsWith .overflow s t)

/-- 41_frequency.md R93: after CLR F and one COUNT a symbol, TOTAL is the length of the sequence, every count the number of its
occurrences, and NDIST the number of distinct symbols. -/
def Obligations.CountingConservesFrequency : Prop :=
  ∀ (ss : List Sym) (s : State), ss.length ≤ 0xFFFFFFFF →
    ∃ t, execAll (.clr 1 :: ss.map .count) s = .next t ∧ t.lastErr = .ok ∧ t.err = s.err ∧
      t.total.toNat = ss.length ∧ (∀ x, (t.freqAt x).toNat = ss.count x) ∧ t.ndist.toNat = ss.dedup.length

/-! ## The tree builder -/

/-- 42_tree_builder.md R95, R96, R99, R100: a BUILD over a table that is not empty places the leaves in ascending symbol order,
leaves ROOT = 2n-2 and the cursor at ROOT, clears CODES_VALID, and touches no node beyond ROOT and nothing else. -/
def Obligations.BuildPlacesLeavesAndRoot : Prop :=
  EncodedAs .build 0x20000000 0xFFFFFFFF 0 ∧
  ∀ s : State, s.ndist ≠ 0 → ∃ t, exec .build s = .next t ∧ Completes .ok s t ∧
    t.treeValid = true ∧ t.codesValid = false ∧ t.treeN.toNat = freqEntries s ∧
    t.root.toNat = 2 * freqEntries s - 2 ∧ t.cursor = t.root ∧
    (∀ k < freqEntries s, ∃ x : Sym, t.nodeNo k = .leaf x (s.freqAt x) ∧ s.freqAt x ≠ 0) ∧
    (∀ j < freqEntries s, ∀ k < j, (t.nodeNo k).sym < (t.nodeNo j).sym) ∧
    (∀ x : Sym, s.freqAt x ≠ 0 → ∃ k < freqEntries s, t.nodeNo k = .leaf x (s.freqAt x)) ∧
    (∀ i, 2 * freqEntries s - 1 ≤ i → t.nodeNo i = s.nodeNo i) ∧
    SameFreq s t ∧ t.code = s.code ∧ SameBits s t ∧ SameSyms s t ∧ SameResults s t ∧ SameHost s t

/-- 42_tree_builder.md R97, R98: every internal node BUILD makes has as left child the node least in (frequency, id) among those in
the priority set when it is made, as right child the least of the others, and the sum of their frequencies. -/
def Obligations.BuildMergesTwoLeast : Prop :=
  ∀ s t : State, s.ndist ≠ 0 → exec .build s = .next t →
    ∀ k, t.treeN.toNat ≤ k → k < 2 * t.treeN.toNat - 1 →
      ∃ a b : NodeId, t.nodeNo k = .internal ((t.nodeAt a).freq + (t.nodeAt b).freq) a b ∧ a ≠ b ∧
        InSetAt t k a.toNat ∧ InSetAt t k b.toNat ∧
        (∀ i, InSetAt t k i → i ≠ a.toNat → KeyLess t a.toNat i) ∧
        (∀ i, InSetAt t k i → i ≠ a.toNat → i ≠ b.toNat → KeyLess t b.toNat i)

/-- 42_tree_builder.md R101: every node's frequency is the sum of the counts of the leaves below it, the root's is TOTAL, and no sum
overflows. -/
def Obligations.BuildFrequenciesAreSums : Prop :=
  ∀ s t : State, FreqInv s → s.ndist ≠ 0 → exec .build s = .next t →
    (t.nodeAt t.root).freq = s.total ∧
    (∀ x : NodeId, x ≤ t.root → (t.nodeAt x).freq.toNat = leafFreqSum t Config.nnode x) ∧
    (∀ k, t.treeN.toNat ≤ k → k < 2 * t.treeN.toNat - 1 →
      (t.nodeNo k).freq.toNat =
        (t.nodeAt ((t.nodeNo k).child false)).freq.toNat + (t.nodeAt ((t.nodeNo k).child true)).freq.toNat)

/-- 42_tree_builder.md R103: among all binary prefix trees whose leaves are the table's symbols, the tree BUILD gives has the
least frequency-weighted sum of leaf depths. -/
def Obligations.BuildIsOptimal : Prop :=
  ∀ s t : State, FreqInv s → s.ndist ≠ 0 → exec .build s = .next t →
    ∀ other : PrefixTree, other.syms.Nodup → (∀ x : Sym, x ∈ other.syms ↔ s.freqAt x ≠ 0) →
      weightedDepth t Config.nnode t.root 0 ≤ other.cost (fun x => (s.freqAt x).toNat) 0

/-- 42_tree_builder.md R95, 60_exceptions.md R144, R147: BUILD on an empty table raises EMPTY_INPUT, and the commands that need a
tree raise NO_TREE where none is held; each changes nothing else. -/
def Obligations.MissingTableOrTreeIsReported : Prop :=
  (∀ s : State, s.ndist = 0 → ∃ t, exec .build s = .next t ∧ FailsWith .emptyInput s t) ∧
  (∀ s : State, s.treeValid = false →
    (∃ t, exec .derive s = .next t ∧ FailsWith .noTree s t) ∧
    (∀ b, ∃ t, exec (.decbit b) s = .next t ∧ FailsWith .noTree s t) ∧
    (∃ t, exec .decend s = .next t ∧ FailsWith .noTree s t) ∧
    (∃ t, exec .decbuf s = .next t ∧ FailsWith .noTree s t) ∧
    (∀ id, ∃ t, exec (.rdnode id) s = .next t ∧ FailsWith .noTree s t))

/-! ## The code table and the encoder -/

/-- 43_encoder.md R105, R106, R107 and 42_tree_builder.md R102: with a tree held, DERIVE gives every symbol of a leaf, and no other,
the code of its path, of length 1 to TREE_N - 1 (1 for a single leaf), every bit above the length 0, and changes nothing
else; with none held it raises NO_TREE. -/
def Obligations.DeriveGivesPathCodes : Prop :=
  EncodedAs .derive 0x28000000 0xFFFFFFFF 0 ∧
  (∀ s : State, TreeInv s → s.treeValid = true → ∃ t, exec .derive s = .next t ∧ Completes .ok s t ∧ t.codesValid = true ∧
    (∀ x : Sym, (t.codeAt x).valid = true ↔ HasLeaf s x) ∧
    (∀ x : Sym, (t.codeAt x).valid = false → (t.codeAt x).len = 0 ∧ (t.codeAt x).bits = 0) ∧
    (∀ x : Sym, (t.codeAt x).valid = true → IsCodeOf s x (t.codeAt x).toBits ∧
      1 ≤ (t.codeAt x).len.toNat ∧ (t.codeAt x).len.toNat ≤ max 1 (s.treeN.toNat - 1) ∧
      ∀ j, (t.codeAt x).len.toNat ≤ j → (t.codeAt x).bits.getLsbD j = false) ∧
    SameFreq s t ∧ SameTree s t ∧ t.cursor = s.cursor ∧ SameBits s t ∧ SameSyms s t ∧ SameResults s t ∧ SameHost s t) ∧
  (∀ s : State, s.treeValid = false → ∃ t, exec .derive s = .next t ∧ FailsWith .noTree s t)

/-- 43_encoder.md R108: no valid code is a prefix of another, so no two are equal; a single-leaf table has one code only; and for
two or more leaves the code is complete: a bit string as long as the longest code, so every infinite one, begins with exactly one
valid code. -/
def Obligations.CodesArePrefixFreeAndComplete : Prop :=
  ∀ s : State, TreeInv s → CodeInv s → s.codesValid = true →
    (∀ x y : Sym, (s.codeAt x).valid = true → (s.codeAt y).valid = true → x ≠ y →
      ¬((s.codeAt x).toBits <+: (s.codeAt y).toBits)) ∧
    (s.treeN = 1 → ∃ x : Sym, ∀ y : Sym, (s.codeAt y).valid = true ↔ y = x) ∧
    (2 ≤ s.treeN.toNat → ∀ bs : List Bool, Config.lmax ≤ bs.length →
      ∃ x : Sym, ((s.codeAt x).valid = true ∧ (s.codeAt x).toBits <+: bs) ∧
        ∀ y : Sym, (s.codeAt y).valid = true → (s.codeAt y).toBits <+: bs → y = x)

/-- 43_encoder.md R109: ENC appends the symbol's code at BITLEN, first bit first, and returns the code's length and the new
BITLEN; UNKNOWN_SYMBOL comes before BUF_FULL, an exact fill is accepted, and an error changes nothing. -/
def Obligations.EncAppendsCode : Prop :=
  ∀ (x : Sym) (s : State), EncodedAs (.enc x) 0x30000000 0xFFFFFF00 (x.setWidth 32) ∧
    (s.codesValid = true → (s.codeAt x).valid = true → s.bitlen + (s.codeAt x).len.toNat ≤ s.params.bitcap →
      ∃ t, exec (.enc x) s = .next t ∧ Completes .ok s t ∧ t.bitlen = s.bitlen + (s.codeAt x).len.toNat ∧
        (∀ j < (s.codeAt x).len.toNat, t.bitAt (s.bitlen + j) = (s.codeAt x).bits.getLsbD j) ∧
        (∀ p, p < s.bitlen ∨ s.bitlen + (s.codeAt x).len.toNat ≤ p → t.bitAt p = s.bitAt p) ∧
        t.result0 = (s.codeAt x).len.setWidth 32 ∧ t.result1 = BitVec.ofNat 32 t.bitlen ∧
        SameFreq s t ∧ SameTree s t ∧ SameCodes s t ∧ t.cursor = s.cursor ∧ SameSyms s t ∧ SameHost s t) ∧
    (s.codesValid = false ∨ (s.codeAt x).valid = false → ∃ t, exec (.enc x) s = .next t ∧ FailsWith .unknownSymbol s t) ∧
    (s.codesValid = true → (s.codeAt x).valid = true → s.bitlen + (s.codeAt x).len.toNat > s.params.bitcap →
      ∃ t, exec (.enc x) s = .next t ∧ FailsWith .bufFull s t)

/-- 43_encoder.md R111: after CLR B, the ENC of every symbol of a sequence leaves exactly the concatenation of the codes in input
order, and an ENC that fails next leaves the buffer holding the codes of the symbols before it. -/
def Obligations.EncodingConcatenatesCodes : Prop :=
  ∀ (ss : List Sym) (s : State), s.codesValid = true → AllCoded s ss → (encodeSyms s ss).length ≤ s.params.bitcap →
    ∃ t, execAll (.clr 8 :: ss.map .enc) s = .next t ∧ t.lastErr = .ok ∧ t.err = s.err ∧
      t.heldBits = encodeSyms s ss ∧ t.bitlen = (encodeSyms s ss).length ∧
      ∀ x, ∃ u, exec (.enc x) t = .next u ∧ (u.lastErr ≠ .ok → u.heldBits = encodeSyms s ss)

/-- 43_encoder.md R110: WRBITS appends v[0] to v[n-1] at BITLEN, ignores v[15:n], raises BUF_FULL where they do not fit and does
not decode for n = 0 or n > 16 (30_encoding.md R76). -/
def Obligations.WrbitsAppendsLiteralBits : Prop :=
  ∀ (n : BitVec 5) (v : BitVec 16) (s : State),
    (n ≠ 0 → n.toNat ≤ 16 → EncodedAs (.wrbits n v) 0x38000000 0xFFE00000 (n.setWidth 32 <<< 16 ||| v.setWidth 32)) ∧
    (n = 0 ∨ n.toNat > 16 → decode (0x38000000 ||| (n.setWidth 32 <<< 16 ||| v.setWidth 32)) = .error .illegalField) ∧
    (n ≠ 0 → n.toNat ≤ 16 → s.bitlen + n.toNat ≤ s.params.bitcap →
      ∃ t, exec (.wrbits n v) s = .next t ∧ Completes .ok s t ∧ t.bitlen = s.bitlen + n.toNat ∧
        (∀ j < n.toNat, t.bitAt (s.bitlen + j) = v.getLsbD j) ∧
        (∀ p, p < s.bitlen ∨ s.bitlen + n.toNat ≤ p → t.bitAt p = s.bitAt p) ∧
        SameFreq s t ∧ SameTree s t ∧ SameCodes s t ∧ t.cursor = s.cursor ∧ SameSyms s t ∧ SameResults s t ∧ SameHost s t) ∧
    (n ≠ 0 → n.toNat ≤ 16 → s.bitlen + n.toNat > s.params.bitcap →
      ∃ t, exec (.wrbits n v) s = .next t ∧ FailsWith .bufFull s t)

/-! ## The decoder -/

/-- DECBIT emitted `x` and went back to the root (44_decoder.md R117): the symbol stands at SYMLEN, every other symbol is as
before, RESULT0 has bit 8 and the symbol, RESULT1 the cursor. -/
structure Emitted (x : Sym) (s t : State) : Prop where
  completes : Completes .ok s t
  cursor : t.cursor = s.root
  symlen : t.symlen = s.symlen + 1
  symbol : t.symAt s.symlen = x
  others : ∀ i, i ≠ s.symlen → t.symAt i = s.symAt i
  result0 : t.result0 = 0x00000100 ||| x.setWidth 32
  result1 : t.result1 = s.root.setWidth 32
  frame : SameFreq s t ∧ SameTree s t ∧ SameCodes s t ∧ SameBits s t ∧ SameHost s t

/-- DECBIT moved to internal node `y` and emitted nothing (44_decoder.md R117). -/
structure Moved (y : NodeId) (s t : State) : Prop where
  completes : Completes .ok s t
  cursor : t.cursor = y
  result0 : t.result0 = 0
  result1 : t.result1 = y.setWidth 32
  frame : SameFreq s t ∧ SameTree s t ∧ SameCodes s t ∧ SameBits s t ∧ SameSyms s t ∧ SameHost s t

/-- 44_decoder.md R116, R117: one decoder step. A single-leaf tree emits its symbol on a 0; otherwise the bit selects a child,
0 the left one, and a leaf is emitted while an internal node becomes the cursor. -/
def Obligations.DecbitMovesOrEmits : Prop :=
  (∀ b, EncodedAs (.decbit b) 0x40000000 0xFFFFFFFE ((BitVec.ofBool b).setWidth 32)) ∧
  ∀ s : State, s.treeValid = true →
    (s.treeN = 1 → s.symlen ≠ s.params.symcap →
      ∃ t, exec (.decbit false) s = .next t ∧ Emitted (s.nodeAt 0).sym s t) ∧
    (s.treeN ≠ 1 → ∀ f l r, s.nodeAt s.cursor = .internal f l r → ∀ b : Bool,
      (∀ x g, s.nodeAt (if b then r else l) = .leaf x g → s.symlen ≠ s.params.symcap →
        ∃ t, exec (.decbit b) s = .next t ∧ Emitted x s t) ∧
      (∀ g l' r', s.nodeAt (if b then r else l) = .internal g l' r' →
        ∃ t, exec (.decbit b) s = .next t ∧ Moved (if b then r else l) s t))

/-- 44_decoder.md R117, R120: DECBIT 1 on a single-leaf tree is MALFORMED, full symbol buffer or not; a symbol that would be
emitted into a full buffer is BUF_FULL; neither consumes the bit. -/
def Obligations.DecbitErrorsConsumeNothing : Prop :=
  ∀ s : State, s.treeValid = true →
    (s.treeN = 1 → ∃ t, exec (.decbit true) s = .next t ∧ FailsWith .malformed s t) ∧
    (s.treeN = 1 → s.symlen = s.params.symcap → ∃ t, exec (.decbit false) s = .next t ∧ FailsWith .bufFull s t) ∧
    (s.treeN ≠ 1 → ∀ f l r, s.nodeAt s.cursor = .internal f l r → ∀ (b : Bool) (x : Sym) (g : Count),
      s.nodeAt (if b then r else l) = .leaf x g → s.symlen = s.params.symcap →
      ∃ t, exec (.decbit b) s = .next t ∧ FailsWith .bufFull s t)

/-- 44_decoder.md R118: DECEND raises NO_TREE with no tree, TRUNCATED in mid-codeword, and otherwise succeeds; it changes no
state either way. -/
def Obligations.DecendChecksRoot : Prop :=
  EncodedAs .decend 0x48000000 0xFFFFFFFF 0 ∧
  ∀ s : State,
    (s.treeValid = false → ∃ t, exec .decend s = .next t ∧ FailsWith .noTree s t) ∧
    (s.treeValid = true → s.cursor ≠ s.root → ∃ t, exec .decend s = .next t ∧ FailsWith .truncated s t) ∧
    (s.treeValid = true → s.cursor = s.root →
      ∃ t, exec .decend s = .next t ∧ Completes .ok s t ∧ SameBlock s t ∧ SameHost s t)

/-- DECBUF decoded the symbols `ss` (44_decoder.md R119): they follow the symbols held, in order, and the decoder is at the
root. -/
structure Decoded (ss : List Sym) (s t : State) : Prop where
  completes : Completes .ok s t
  symlen : t.symlen = s.symlen + ss.length
  symbols : t.heldSyms = s.heldSyms ++ ss
  others : ∀ i, i < s.symlen ∨ s.symlen + ss.length ≤ i → t.symAt i = s.symAt i
  cursor : t.cursor = s.root
  result0 : t.result0 = BitVec.ofNat 32 ss.length
  result1 : t.result1 = BitVec.ofNat 32 (s.symlen + ss.length)
  frame : SameFreq s t ∧ SameTree s t ∧ SameCodes s t ∧ SameBits s t ∧ SameHost s t

/-- 44_decoder.md R119, R121: for a held tree of two or more leaves, with or without a derived code table, DECBUF over a held string
that splits into the codes of `ss` and a rest: with room for the symbols it decodes `ss` where the rest is empty and raises
TRUNCATED where it is not; without room it raises BUF_FULL. (BitStringsSplitUniquely says that every string splits so.) -/
def Obligations.DecbufDecodesCodes : Prop :=
  EncodedAs .decbuf 0x50000000 0xFFFFFFFF 0 ∧
  ∀ (s : State) (ss : List Sym) (r : List Bool), Inv s → s.treeValid = true → 2 ≤ s.treeN.toNat →
    SplitsInto s s.heldBits ss r →
    (s.symlen + ss.length ≤ s.params.symcap → r = [] → ∃ t, exec .decbuf s = .next t ∧ Decoded ss s t) ∧
    (s.symlen + ss.length ≤ s.params.symcap → r ≠ [] → ∃ t, exec .decbuf s = .next t ∧ FailsWith .truncated s t) ∧
    (s.symlen + ss.length > s.params.symcap → ∃ t, exec .decbuf s = .next t ∧ FailsWith .bufFull s t)

/-- 44_decoder.md R119, R120: for a single leaf, DECBUF emits the leaf's symbol once for each 0; the first 1 is MALFORMED unless
the symbol buffer is full before it. -/
def Obligations.DecbufDecodesSingleLeaf : Prop :=
  ∀ (s : State) (k : Nat), Inv s → s.treeValid = true → s.treeN = 1 →
    (s.heldBits = List.replicate k false → s.symlen + k ≤ s.params.symcap →
      ∃ t, exec .decbuf s = .next t ∧ Decoded (List.replicate k (s.nodeAt 0).sym) s t) ∧
    (∀ rest, s.heldBits = List.replicate k false ++ true :: rest → s.symlen + k ≤ s.params.symcap →
      ∃ t, exec .decbuf s = .next t ∧ FailsWith .malformed s t) ∧
    (∀ rest, s.heldBits = List.replicate k false ++ rest → s.symlen + k > s.params.symcap →
      ∃ t, exec .decbuf s = .next t ∧ FailsWith .bufFull s t)

/-- 44_decoder.md R119, R121: from AT_ROOT, a DECBUF that succeeds gives the symbols that DECBIT over the held bits followed by
DECEND gives, with no error. -/
def Obligations.DecbufEqualsStreaming : Prop :=
  ∀ s t : State, s.cursor = s.root → exec .decbuf s = .next t → t.lastErr = .ok →
    ∃ u, execAll (s.heldBits.map .decbit ++ [.decend]) s = .next u ∧ u.lastErr = .ok ∧ u.err = s.err ∧
      SameSyms t u ∧ u.cursor = t.cursor ∧ SameTree t u ∧ SameBits t u

/-- 44_decoder.md R121: for a held tree of two or more leaves every bit string splits uniquely into codes of leaf symbols and a
proper prefix of some code; and where a code table has been derived those codes are its entries (43_encoder.md R106). -/
def Obligations.BitStringsSplitUniquely : Prop :=
  ∀ s : State, TreeInv s → s.treeValid = true → 2 ≤ s.treeN.toNat →
    (∀ bs : List Bool, ∃ ss r, SplitsInto s bs ss r ∧ ∀ ss' r', SplitsInto s bs ss' r' → ss' = ss ∧ r' = r) ∧
    (CodeInv s → s.codesValid = true → ∀ (ss : List Sym) (bs : List Bool),
      PathsSpell s ss bs ↔ AllCoded s ss ∧ bs = encodeSyms s ss)

/-- 44_decoder.md R122: for a non-empty sequence within SYMCAP and 2^32-1 whose encoding, under the codes the first part of `ENCODE`
derives for it, fits in BITCAP, `ENCODE` then `DECODE` (30_encoding.md R81) ends with no error on the way and leaves the sequence in
the symbol buffer. The starting state is any state. -/
def Obligations.EncodeThenDecodeRoundTrips : Prop :=
  ∀ (ss : List Sym) (s : State), ss ≠ [] → ss.length ≤ min s.params.symcap 0xFFFFFFFF →
    ∃ d, execAll (pseudoNewsession ++ pseudoCounts ss ++ [.build, .derive]) s = .next d ∧ d.codesValid = true ∧ AllCoded d ss ∧
      ((encodeSyms d ss).length ≤ s.params.bitcap →
        ∃ t, execAll (pseudoEncode ss ++ pseudoDecode) s = .next t ∧ t.lastErr = .ok ∧ t.err = s.err ∧
          t.symlen = ss.length ∧ t.heldSyms = ss)

/-! ## Read-back -/

/-- 45_readback.md R125. -/
def Obligations.RdfreqReturnsCount : Prop :=
  ∀ (x : Sym) (s : State), EncodedAs (.rdfreq x) 0x80000000 0xFFFFFF00 (x.setWidth 32) ∧ ∃ t, exec (.rdfreq x) s = .next t ∧ Completes .ok s t ∧ t.result0 = s.freqAt x ∧
    t.result1 = 0 ∧ SameButResults s t

/-- 45_readback.md R126: a leaf reads bit 31 and its symbol, an internal node its right child in [24:16] and its left child in
[8:0], every other bit 0; NO_TREE with no tree held, RANGE beyond ROOT. -/
def Obligations.RdnodeReturnsNode : Prop :=
  ∀ (id : NodeId) (s : State), EncodedAs (.rdnode id) 0x88000000 0xFFFFFE00 (id.setWidth 32) ∧
    (s.treeValid = true → id ≤ s.root → ∃ t, exec (.rdnode id) s = .next t ∧ Completes .ok s t ∧ SameButResults s t ∧
      (∀ x f, s.nodeAt id = .leaf x f → t.result0 = f ∧ t.result1.getLsbD 31 = true ∧
        t.result1.extractLsb' 0 8 = x ∧ t.result1.extractLsb' 8 23 = 0) ∧
      (∀ f l r, s.nodeAt id = .internal f l r → t.result0 = f ∧ t.result1.extractLsb' 0 9 = l ∧
        t.result1.extractLsb' 9 7 = 0 ∧ t.result1.extractLsb' 16 9 = r ∧ t.result1.extractLsb' 25 7 = 0)) ∧
    (s.treeValid = false → ∃ t, exec (.rdnode id) s = .next t ∧ FailsWith .noTree s t) ∧
    (s.treeValid = true → s.root < id → ∃ t, exec (.rdnode id) s = .next t ∧ FailsWith .range s t)

/-- 45_readback.md R127: a symbol with a code reads bit 31 and the length, and code bits 32w to 32w+31; any other symbol reads
0 and 0; there is no error. -/
def Obligations.RdcodeReturnsCode : Prop :=
  ∀ (x : Sym) (w : BitVec 3) (s : State),
    EncodedAs (.rdcode x w) 0x90000000 0xFFFFF800 (w.setWidth 32 <<< 8 ||| x.setWidth 32) ∧ ∃ t, exec (.rdcode x w) s = .next t ∧ Completes .ok s t ∧ SameButResults s t ∧
    (s.codesValid = true → (s.codeAt x).valid = true → t.result0.getLsbD 31 = true ∧
      t.result0.extractLsb' 0 9 = (s.codeAt x).len ∧ t.result0.extractLsb' 9 22 = 0 ∧
      ∀ j < 32, t.result1.getLsbD j = (s.codeAt x).bits.getLsbD (32 * w.toNat + j)) ∧
    (s.codesValid = false ∨ (s.codeAt x).valid = false → t.result0 = 0 ∧ t.result1 = 0)

/-- 45_readback.md R128: bit j of RESULT0 is stream bit 32k+j below BITLEN and 0 at or beyond it, RESULT1 is BITLEN; RANGE past the
buffer's last word. -/
def Obligations.RdbitsReturnsWord : Prop :=
  ∀ (k : BitVec 11) (s : State), EncodedAs (.rdbits k) 0x98000000 0xFFFFF800 (k.setWidth 32) ∧
    (k.toNat < s.params.bitcap / 32 → ∃ t, exec (.rdbits k) s = .next t ∧ Completes .ok s t ∧ SameButResults s t ∧
      (∀ j < 32, t.result0.getLsbD j = (decide (32 * k.toNat + j < s.bitlen) && s.bitAt (32 * k.toNat + j))) ∧
      t.result1 = BitVec.ofNat 32 s.bitlen) ∧
    (s.params.bitcap / 32 ≤ k.toNat → ∃ t, exec (.rdbits k) s = .next t ∧ FailsWith .range s t)

/-- 45_readback.md R129. -/
def Obligations.RdsymReturnsSymbol : Prop :=
  ∀ (idx : BitVec 16) (s : State), EncodedAs (.rdsym idx) 0xA0000000 0xFFFF0000 (idx.setWidth 32) ∧
    (idx.toNat < s.symlen → ∃ t, exec (.rdsym idx) s = .next t ∧ Completes .ok s t ∧ SameButResults s t ∧
      t.result0 = (s.symAt idx.toNat).setWidth 32 ∧ t.result1 = BitVec.ofNat 32 s.symlen) ∧
    (s.symlen ≤ idx.toNat → ∃ t, exec (.rdsym idx) s = .next t ∧ FailsWith .range s t)

/-- 45_readback.md R130: a read-back command writes only the result registers and the completion fields, and running one before
another command has no effect on what that command does to any store, on its error code, or on the results it writes. -/
def Obligations.ReadbackChangesNoStore : Prop :=
  (∀ (i : Instr) (s t : State), isReadback i = true → exec i s = .next t → SameButResults s t) ∧
  (∀ (i j : Instr) (s t u v : State), isReadback i = true → exec i s = .next t → exec j s = .next u → exec j t = .next v →
    SameButResults u v ∧ v.lastErr = u.lastErr ∧ (writesResults j = true → u.lastErr = .ok → SameResults u v))

/-! ## Whole-machine rules -/

/-- 60_exceptions.md R145: a command that raises an error changes nothing except DONE, LASTERR and ERR (and the pending command,
which is done). -/
def Obligations.FailedCommandChangesNothing : Prop :=
  ∀ (i : Instr) (s t : State), exec i s = .next t → t.lastErr ≠ .ok → FailsWith t.lastErr s t

/-- 60_exceptions.md R142: every executed command, and every illegal word, ends with its completion and an empty PEND, and no other step sets DONE or
ERR or writes LASTERR (a reset, which puts LASTERR back to 0, apart: 70_reset_and_hazards.md R161). -/
def Obligations.CompletionReportsEveryCommand : Prop :=
  (∀ (i : Instr) (s : State), ∃ t, exec i s = .next t ∧ Completes t.lastErr s t) ∧
  (∀ s : State, engineDue s = true → ∃ t, Sys2Proof.Machine.step s = .next t ∧ Completes t.lastErr s t) ∧
  (∀ s t : State, Sys2Proof.Machine.step s = .next t → engineDue s = false →
    (t.done = true → s.done = true) ∧ (t.err = true → s.err = true) ∧
    (t.lastErr = s.lastErr ∨ ∃ rest, NextEvent s .assertReset rest ∧ t.lastErr = .ok))

/-- 60_exceptions.md R144, R147: the numbers of the error codes, and the only codes each command can end with. (ILLEGAL_CMD
for the terms of COUNTN and WRBITS that no word decodes to is the model's reading, log 12.) -/
def Obligations.ErrorCodesOfEachCommand : Prop :=
  (ErrCode.ok.code = 0 ∧ ErrCode.illegalCmd.code = 1 ∧ ErrCode.emptyInput.code = 2 ∧ ErrCode.unknownSymbol.code = 3 ∧
    ErrCode.malformed.code = 4 ∧ ErrCode.truncated.code = 5 ∧ ErrCode.noTree.code = 6 ∧ ErrCode.overflow.code = 7 ∧
    ErrCode.bufFull.code = 8 ∧ ErrCode.range.code = 9) ∧
  (∀ (i : Instr) (s t : State), exec i s = .next t → t.lastErr = .ok ∨ t.lastErr ∈ mayRaise i)

/-- 10_state.md R47: RESULT0 and RESULT1 are written by ENC, DECBIT, DECBUF and the five read-back commands when they succeed, and
by nothing else but a reset (R50). -/
def Obligations.ResultRegistersHaveEightWriters : Prop :=
  ∀ s t : State, Sys2Proof.Machine.step s = .next t → ¬SameResults s t →
    (∃ i, EngineRuns s i ∧ writesResults i = true ∧ t.lastErr = .ok) ∨ ∃ rest, NextEvent s .assertReset rest

/-- 10_state.md R40 to R44, 41_frequency.md to 44_decoder.md, 90_conflicts.md C1: which commands may change which store; a reset
may change them all. -/
def Obligations.StoresHaveTheirWriters : Prop :=
  ∀ s t : State, Sys2Proof.Machine.step s = .next t → (∀ rest, ¬NextEvent s .assertReset rest) →
    (t.freq ≠ s.freq → (∃ mask, EngineRuns s (.clr mask) ∧ mask.getLsbD 0 = true) ∨ (∃ x, EngineRuns s (.count x)) ∨
      ∃ x n, EngineRuns s (.countn x n)) ∧
    (t.node ≠ s.node → EngineRuns s .build) ∧
    (t.code ≠ s.code → EngineRuns s .derive) ∧
    (t.bitbuf ≠ s.bitbuf → (∃ x, EngineRuns s (.enc x)) ∨ ∃ n v, EngineRuns s (.wrbits n v)) ∧
    (t.symbuf ≠ s.symbuf → (∃ b, EngineRuns s (.decbit b)) ∨ EngineRuns s .decbuf)

/-- 60_exceptions.md R158: an accepted command completes: with only accesses of the window and releases of reset to come, the
engine's step is taken after at most the drawn number of host events, and it leaves PEND empty. The bound is the model's
own field (log 1). -/
def Obligations.AcceptedCommandCompletes : Prop :=
  ∀ (s : State) (w : Word), s.pend = some w → s.inReset = false → (∀ e ∈ s.hostQueue, Harmless s.params e) →
    ∃ k ≤ s.delay, ∃ u t : State, Sys2Proof.core.run k s = .next u ∧ u.pend = some w ∧ engineDue u = true ∧
      Sys2Proof.Machine.step u = .next t ∧ t.pend = none ∧ t.done = true

/-! ## Invariants -/

/-- 10_state.md R40, 41_frequency.md R92: every step keeps TOTAL the sum of the counts, NDIST the number of entries, and FREQ in its
canonical form, which holds no zero-count entry. -/
def Obligations.StepKeepsFrequencyTable : Prop :=
  ∀ s t : State, FreqInv s → Sys2Proof.Machine.step s = .next t → FreqInv t

/-- 10_state.md R41, R45, R46: every step keeps the held tree a strict binary tree in the arena and the cursor on an internal node of
it or at the root. -/
def Obligations.StepKeepsTree : Prop :=
  ∀ s t : State, FreqInv s → TreeInv s → Sys2Proof.Machine.step s = .next t → TreeInv t

/-- 10_state.md R42: every step keeps the code table, while it is valid, exactly the codes of the held tree's leaves. -/
def Obligations.StepKeepsCodes : Prop :=
  ∀ s t : State, TreeInv s → CodeInv s → Sys2Proof.Machine.step s = .next t → CodeInv t

/-- 10_state.md R43, R44, 20_memory.md R61, 70_reset_and_hazards.md R161: every step keeps the lengths within the capacities, every
store canonical with its indexes in range, and the block at its reset values while reset is asserted. What ResetHeld fixes beyond
R50, the stores it calls unspecified empty and the delay 0, is the model's choice (logs 5, 1 and 9). -/
def Obligations.StepKeepsStoresAndReset : Prop :=
  ∀ s t : State, Sys2Proof.Machine.step s = .next t → (StoreInv s → StoreInv t) ∧ (ResetHeld s → ResetHeld t)

/-- The state after reset meets every invariant, whatever the parameters. -/
def Obligations.ResetMeetsInvariants : Prop := Inv State.reset ∧ ∀ p : Params, Inv (State.resetWith p)

/-- 10_state.md R51: what no command has written is not observable: two states that differ only in nodes without a tree or beyond
ROOT, codes without a derived table, bits at or beyond BITLEN and symbols at or beyond SYMLEN step to outcomes that differ only
there. -/
def Obligations.UnwrittenContentsUnobservable : Prop :=
  ∀ s t : State, FreqInv s → TreeInv s → ObsEq s t →
    ObsEqOutcome (Sys2Proof.Machine.step s) (Sys2Proof.Machine.step t)
end

