-- ==== Sys2Proof/Laws/Memory.lean ====
section
/-! SUPPORT. The laws of the indexed stores: a read after a write gives the value written, a write leaves every other index
alone, and every operation keeps the canonical form. None of the read laws needs the canonical form. -/

namespace Sys2Proof.Machine

variable {α : Type}

@[simp] theorem Memory.read_nil (d : α) (a : Nat) : Memory.read d [] a = d := rfl

theorem Memory.read_cons (d : α) (k : Nat) (x : α) (m : Memory α) (a : Nat) :
    Memory.read d ((k, x) :: m) a = if k = a then x else Memory.read d m a := rfl

theorem Memory.read_erase_same (d : α) (m : Memory α) (a : Nat) : Memory.read d (m.erase a) a = d := by
  induction m with
  | nil => rfl
  | cons p m ih =>
    obtain ⟨k, x⟩ := p
    by_cases h : k = a <;> simp [Memory.erase, Memory.read_cons, h, ih]

theorem Memory.read_erase_ne (d : α) (m : Memory α) {a b : Nat} (h : b ≠ a) :
    Memory.read d (m.erase a) b = Memory.read d m b := by
  induction m with
  | nil => rfl
  | cons p m ih =>
    obtain ⟨k, x⟩ := p
    by_cases hk : k = a
    · have : k ≠ b := fun e => h (e ▸ hk)
      simp [Memory.erase, Memory.read_cons, hk, ih, Ne.symm h]
    · simp [Memory.erase, Memory.read_cons, hk, ih]

theorem Memory.erase_not_mem (m : Memory α) (a : Nat) : ∀ p ∈ m.erase a, p.1 ≠ a := by
  induction m with
  | nil => simp [Memory.erase]
  | cons p m ih =>
    obtain ⟨k, x⟩ := p
    intro q hq
    by_cases h : k = a
    · simp only [Memory.erase, h, if_true] at hq
      exact ih q hq
    · simp only [Memory.erase, h, if_false, List.mem_cons] at hq
      rcases hq with rfl | hq
      · exact h
      · exact ih q hq

theorem Memory.mem_of_mem_erase {m : Memory α} {a : Nat} {p : Nat × α} (h : p ∈ m.erase a) : p ∈ m := by
  induction m with
  | nil => simp [Memory.erase] at h
  | cons q m ih =>
    obtain ⟨k, x⟩ := q
    by_cases hk : k = a
    · simp only [Memory.erase, hk, if_true] at h
      exact List.mem_cons_of_mem _ (ih h)
    · simp only [Memory.erase, hk, if_false, List.mem_cons] at h ⊢
      exact h.imp id ih

theorem Memory.mem_insert {m : Memory α} {a : Nat} {x : α} {p : Nat × α} :
    p ∈ m.insert a x ↔ p = (a, x) ∨ p ∈ m := by
  induction m with
  | nil => simp [Memory.insert]
  | cons q m ih =>
    obtain ⟨k, y⟩ := q
    by_cases h : a < k
    · simp [Memory.insert, h]
    · simp only [Memory.insert, h, if_false, List.mem_cons, ih]
      tauto

theorem Memory.read_insert_same (d : α) (m : Memory α) (a : Nat) (x : α) (h : ∀ p ∈ m, p.1 ≠ a) :
    Memory.read d (m.insert a x) a = x := by
  induction m with
  | nil => simp [Memory.insert, Memory.read_cons]
  | cons q m ih =>
    obtain ⟨k, y⟩ := q
    by_cases hk : a < k
    · simp [Memory.insert, hk, Memory.read_cons]
    · have hne : k ≠ a := h (k, y) (by simp)
      simp [Memory.insert, hk, Memory.read_cons, hne, ih fun p hp => h p (List.mem_cons_of_mem _ hp)]

theorem Memory.read_insert_ne (d : α) (m : Memory α) {a b : Nat} (x : α) (h : b ≠ a) :
    Memory.read d (m.insert a x) b = Memory.read d m b := by
  induction m with
  | nil => simp [Memory.insert, Memory.read_cons, Ne.symm h]
  | cons q m ih =>
    obtain ⟨k, y⟩ := q
    by_cases hk : a < k
    · simp [Memory.insert, hk, Memory.read_cons, Ne.symm h]
    · simp [Memory.insert, hk, Memory.read_cons, ih]

/-! The canonical form. -/

theorem Memory.wf_nil (d : α) : Memory.wf d ([] : Memory α) := by simp [Memory.wf]

theorem Memory.wf_erase {d : α} {m : Memory α} (h : Memory.wf d m) (a : Nat) : Memory.wf d (m.erase a) := by
  refine ⟨?_, fun p hp => h.2 p (Memory.mem_of_mem_erase hp)⟩
  have h1 := h.1
  clear h
  induction m with
  | nil => exact List.Pairwise.nil
  | cons q m ih =>
    obtain ⟨k, y⟩ := q
    rw [List.pairwise_cons] at h1
    by_cases hk : k = a
    · simpa [Memory.erase, hk] using ih h1.2
    · simp only [Memory.erase, hk, if_false, List.pairwise_cons]
      exact ⟨fun p hp => h1.1 p (Memory.mem_of_mem_erase hp), ih h1.2⟩

theorem Memory.wf_insert {d : α} {m : Memory α} (h : Memory.wf d m) {a : Nat} {x : α} (hx : x ≠ d)
    (ha : ∀ p ∈ m, p.1 ≠ a) : Memory.wf d (m.insert a x) := by
  refine ⟨?_, fun p hp => ?_⟩
  · have h1 := h.1
    clear h
    induction m with
    | nil => simp [Memory.insert]
    | cons q m ih =>
      obtain ⟨k, y⟩ := q
      rw [List.pairwise_cons] at h1
      by_cases hk : a < k
      · simp only [Memory.insert, hk, if_true, List.pairwise_cons, List.mem_cons]
        refine ⟨fun p hp => ?_, h1⟩
        rcases hp with rfl | hp
        · exact hk
        · exact lt_trans hk (h1.1 p hp)
      · have hka : k < a := lt_of_le_of_ne (not_lt.mp hk) (ha (k, y) (by simp))
        simp only [Memory.insert, hk, if_false, List.pairwise_cons]
        refine ⟨fun p hp => ?_, ih (fun p hp => ha p (List.mem_cons_of_mem _ hp)) h1.2⟩
        rcases Memory.mem_insert.mp hp with rfl | hp
        · exact hka
        · exact h1.1 p hp
  · rcases Memory.mem_insert.mp hp with rfl | hp
    · exact hx
    · exact h.2 p hp

variable [DecidableEq α]

/-- A read after a write to the same index gives the value written. -/
@[simp] theorem Memory.read_write_same (d : α) (m : Memory α) (a : Nat) (x : α) :
    Memory.read d (m.write d a x) a = x := by
  unfold Memory.write
  split
  · rename_i h; rw [Memory.read_erase_same, h]
  · exact Memory.read_insert_same d _ a x (Memory.erase_not_mem m a)

/-- A write leaves every other index alone. -/
theorem Memory.read_write_ne (d : α) (m : Memory α) {a b : Nat} (x : α) (h : b ≠ a) :
    Memory.read d (m.write d a x) b = Memory.read d m b := by
  unfold Memory.write
  split
  · exact Memory.read_erase_ne d m h
  · rw [Memory.read_insert_ne d _ x h, Memory.read_erase_ne d m h]

theorem Memory.read_write (d : α) (m : Memory α) (a b : Nat) (x : α) :
    Memory.read d (m.write d a x) b = if b = a then x else Memory.read d m b := by
  by_cases h : b = a
  · subst h; simp
  · rw [if_neg h, Memory.read_write_ne d m x h]

/-- What a list of writes leaves at every index: the list's element inside its range, the old element outside. -/
theorem Memory.read_writeList (d : α) (m : Memory α) (a b : Nat) (xs : List α) :
    Memory.read d (m.writeList d a xs) b =
      if a ≤ b ∧ b < a + xs.length then xs.getD (b - a) d else Memory.read d m b := by
  induction xs generalizing m a with
  | nil =>
    simp [Memory.writeList]
  | cons x xs ih =>
    rw [Memory.writeList, ih, Memory.read_write]
    by_cases h1 : b = a
    · subst h1
      simp
    · by_cases h2 : a + 1 ≤ b ∧ b < a + 1 + xs.length
      · have h3 : a ≤ b ∧ b < a + (x :: xs).length := by simp only [List.length_cons]; omega
        have h4 : b - a = (b - (a + 1)) + 1 := by omega
        rw [if_pos h2, if_pos h3, h4, List.getD_cons_succ]
      · have h3 : ¬(a ≤ b ∧ b < a + (x :: xs).length) := by simp only [List.length_cons]; omega
        rw [if_neg h2, if_neg h3, if_neg h1]

theorem Memory.read_writeList_inside (d : α) (m : Memory α) (a i : Nat) (xs : List α) (h : i < xs.length) :
    Memory.read d (m.writeList d a xs) (a + i) = xs[i] := by
  rw [Memory.read_writeList, if_pos ⟨by omega, by omega⟩, Nat.add_sub_cancel_left]
  simp [List.getD, h]

theorem Memory.read_writeList_outside (d : α) (m : Memory α) (a b : Nat) (xs : List α)
    (h : b < a ∨ a + xs.length ≤ b) : Memory.read d (m.writeList d a xs) b = Memory.read d m b := by
  rw [Memory.read_writeList, if_neg (by omega)]

theorem Memory.writeList_append (d : α) (m : Memory α) (a : Nat) (xs ys : List α) :
    m.writeList d a (xs ++ ys) = (m.writeList d a xs).writeList d (a + xs.length) ys := by
  induction xs generalizing m a with
  | nil => rfl
  | cons x xs ih => simp [Memory.writeList, ih, Nat.add_assoc, Nat.add_comm 1]

/-! The canonical form, kept by every write. -/

/-- A write keeps the canonical form. -/
theorem Memory.wf_write {d : α} {m : Memory α} (h : Memory.wf d m) (a : Nat) (x : α) : Memory.wf d (m.write d a x) := by
  unfold Memory.write
  split
  · exact Memory.wf_erase h a
  · rename_i hx
    exact Memory.wf_insert (Memory.wf_erase h a) hx (Memory.erase_not_mem m a)

/-- A list of writes keeps the canonical form. -/
theorem Memory.wf_writeList {d : α} {m : Memory α} (h : Memory.wf d m) (a : Nat) (xs : List α) :
    Memory.wf d (m.writeList d a xs) := by
  induction xs generalizing m a with
  | nil => exact h
  | cons x xs ih => exact ih (Memory.wf_write h a x) (a + 1)

/-- The indexes a write can list. -/
theorem Memory.mem_write {d : α} {m : Memory α} {a : Nat} {x : α} {p : Nat × α} (h : p ∈ m.write d a x) :
    p = (a, x) ∨ p ∈ m := by
  unfold Memory.write at h
  split at h
  · exact .inr (Memory.mem_of_mem_erase h)
  · exact (Memory.mem_insert.mp h).imp id Memory.mem_of_mem_erase

/-- A list of writes inside a bound keeps every index inside it. -/
theorem Memory.writeList_inRange {d : α} {m : Memory α} {bound : Nat} (h : ∀ p ∈ m, p.1 < bound) (a : Nat) (xs : List α)
    (hx : a + xs.length ≤ bound) : ∀ p ∈ m.writeList d a xs, p.1 < bound := by
  induction xs generalizing m a with
  | nil => exact h
  | cons x xs ih =>
    simp only [List.length_cons] at hx
    refine ih (fun p hp => ?_) (a + 1) (by omega)
    rcases Memory.mem_write hp with rfl | hp
    · show a < bound; omega
    · exact h p hp

/-- The store in which every listed index is forgotten and written again is the same store: a later write wins. -/
theorem Memory.write_write (d : α) (m : Memory α) (a : Nat) (x y : α) :
    (m.write d a x).write d a y = m.write d a y := by
  have erase_erase : ∀ m : Memory α, (m.erase a).erase a = m.erase a := by
    intro m
    induction m with
    | nil => rfl
    | cons q m ih =>
      obtain ⟨k, z⟩ := q
      by_cases h : k = a <;> simp [Memory.erase, h, ih]
  have erase_insert : ∀ m : Memory α, (m.insert a x).erase a = m.erase a := by
    intro m
    induction m with
    | nil => simp [Memory.insert, Memory.erase]
    | cons q m ih =>
      obtain ⟨k, z⟩ := q
      by_cases h : a < k
      · have hne : k ≠ a := by omega
        simp [Memory.insert, h, Memory.erase]
      · by_cases hk : k = a <;> simp [Memory.insert, Memory.erase, hk, ih, h]
  have key : (m.write d a x).erase a = m.erase a := by
    unfold Memory.write
    split
    · exact erase_erase m
    · rw [erase_insert, erase_erase]
  unfold Memory.write at key ⊢
  rw [key]

end Sys2Proof.Machine
end

