-- ==== Sys2Proof/Laws/State.lean ====
section
/-! SUPPORT. One lemma a field for every update of the state, so that no later proof unfolds a record update. -/

namespace Sys2Proof.Machine

@[simp] theorem completion_params (e : ErrCode) (s : State) : (completion e s).params = s.params := rfl
@[simp] theorem completion_freq (e : ErrCode) (s : State) : (completion e s).freq = s.freq := rfl
@[simp] theorem completion_total (e : ErrCode) (s : State) : (completion e s).total = s.total := rfl
@[simp] theorem completion_ndist (e : ErrCode) (s : State) : (completion e s).ndist = s.ndist := rfl
@[simp] theorem completion_treeValid (e : ErrCode) (s : State) : (completion e s).treeValid = s.treeValid := rfl
@[simp] theorem completion_treeN (e : ErrCode) (s : State) : (completion e s).treeN = s.treeN := rfl
@[simp] theorem completion_root (e : ErrCode) (s : State) : (completion e s).root = s.root := rfl
@[simp] theorem completion_node (e : ErrCode) (s : State) : (completion e s).node = s.node := rfl
@[simp] theorem completion_codesValid (e : ErrCode) (s : State) : (completion e s).codesValid = s.codesValid := rfl
@[simp] theorem completion_code (e : ErrCode) (s : State) : (completion e s).code = s.code := rfl
@[simp] theorem completion_bitlen (e : ErrCode) (s : State) : (completion e s).bitlen = s.bitlen := rfl
@[simp] theorem completion_bitbuf (e : ErrCode) (s : State) : (completion e s).bitbuf = s.bitbuf := rfl
@[simp] theorem completion_symlen (e : ErrCode) (s : State) : (completion e s).symlen = s.symlen := rfl
@[simp] theorem completion_symbuf (e : ErrCode) (s : State) : (completion e s).symbuf = s.symbuf := rfl
@[simp] theorem completion_cursor (e : ErrCode) (s : State) : (completion e s).cursor = s.cursor := rfl
@[simp] theorem completion_result0 (e : ErrCode) (s : State) : (completion e s).result0 = s.result0 := rfl
@[simp] theorem completion_result1 (e : ErrCode) (s : State) : (completion e s).result1 = s.result1 := rfl
@[simp] theorem completion_pend (e : ErrCode) (s : State) : (completion e s).pend = s.pend := rfl
@[simp] theorem completion_done (e : ErrCode) (s : State) : (completion e s).done = true := rfl
@[simp] theorem completion_err (e : ErrCode) (s : State) : (completion e s).err = (s.err || decide (e ≠ .ok)) := rfl
@[simp] theorem completion_ovr (e : ErrCode) (s : State) : (completion e s).ovr = s.ovr := rfl
@[simp] theorem completion_lastErr (e : ErrCode) (s : State) : (completion e s).lastErr = e := rfl
@[simp] theorem completion_doneIE (e : ErrCode) (s : State) : (completion e s).doneIE = s.doneIE := rfl
@[simp] theorem completion_errIE (e : ErrCode) (s : State) : (completion e s).errIE = s.errIE := rfl
@[simp] theorem completion_inReset (e : ErrCode) (s : State) : (completion e s).inReset = s.inReset := rfl
@[simp] theorem completion_hostQueue (e : ErrCode) (s : State) : (completion e s).hostQueue = s.hostQueue := rfl
@[simp] theorem completion_hostData (e : ErrCode) (s : State) : (completion e s).hostData = s.hostData := rfl
@[simp] theorem completion_draws (e : ErrCode) (s : State) : (completion e s).draws = s.draws := rfl
@[simp] theorem completion_delay (e : ErrCode) (s : State) : (completion e s).delay = s.delay := rfl

@[simp] theorem retire_params (e : ErrCode) (s : State) : (retire e s).params = s.params := rfl
@[simp] theorem retire_freq (e : ErrCode) (s : State) : (retire e s).freq = s.freq := rfl
@[simp] theorem retire_total (e : ErrCode) (s : State) : (retire e s).total = s.total := rfl
@[simp] theorem retire_ndist (e : ErrCode) (s : State) : (retire e s).ndist = s.ndist := rfl
@[simp] theorem retire_treeValid (e : ErrCode) (s : State) : (retire e s).treeValid = s.treeValid := rfl
@[simp] theorem retire_treeN (e : ErrCode) (s : State) : (retire e s).treeN = s.treeN := rfl
@[simp] theorem retire_root (e : ErrCode) (s : State) : (retire e s).root = s.root := rfl
@[simp] theorem retire_node (e : ErrCode) (s : State) : (retire e s).node = s.node := rfl
@[simp] theorem retire_codesValid (e : ErrCode) (s : State) : (retire e s).codesValid = s.codesValid := rfl
@[simp] theorem retire_code (e : ErrCode) (s : State) : (retire e s).code = s.code := rfl
@[simp] theorem retire_bitlen (e : ErrCode) (s : State) : (retire e s).bitlen = s.bitlen := rfl
@[simp] theorem retire_bitbuf (e : ErrCode) (s : State) : (retire e s).bitbuf = s.bitbuf := rfl
@[simp] theorem retire_symlen (e : ErrCode) (s : State) : (retire e s).symlen = s.symlen := rfl
@[simp] theorem retire_symbuf (e : ErrCode) (s : State) : (retire e s).symbuf = s.symbuf := rfl
@[simp] theorem retire_cursor (e : ErrCode) (s : State) : (retire e s).cursor = s.cursor := rfl
@[simp] theorem retire_result0 (e : ErrCode) (s : State) : (retire e s).result0 = s.result0 := rfl
@[simp] theorem retire_result1 (e : ErrCode) (s : State) : (retire e s).result1 = s.result1 := rfl
@[simp] theorem retire_pend (e : ErrCode) (s : State) : (retire e s).pend = none := rfl
@[simp] theorem retire_done (e : ErrCode) (s : State) : (retire e s).done = true := rfl
@[simp] theorem retire_err (e : ErrCode) (s : State) : (retire e s).err = (s.err || decide (e ≠ .ok)) := rfl
@[simp] theorem retire_ovr (e : ErrCode) (s : State) : (retire e s).ovr = s.ovr := rfl
@[simp] theorem retire_lastErr (e : ErrCode) (s : State) : (retire e s).lastErr = e := rfl
@[simp] theorem retire_doneIE (e : ErrCode) (s : State) : (retire e s).doneIE = s.doneIE := rfl
@[simp] theorem retire_errIE (e : ErrCode) (s : State) : (retire e s).errIE = s.errIE := rfl
@[simp] theorem retire_inReset (e : ErrCode) (s : State) : (retire e s).inReset = s.inReset := rfl
@[simp] theorem retire_hostQueue (e : ErrCode) (s : State) : (retire e s).hostQueue = s.hostQueue := rfl
@[simp] theorem retire_hostData (e : ErrCode) (s : State) : (retire e s).hostData = s.hostData := rfl
@[simp] theorem retire_draws (e : ErrCode) (s : State) : (retire e s).draws = s.draws := rfl
@[simp] theorem retire_delay (e : ErrCode) (s : State) : (retire e s).delay = s.delay := rfl

@[simp] theorem raiseError_params (e : ErrCode) (s : State) : (raiseError e s).params = s.params := rfl
@[simp] theorem raiseError_freq (e : ErrCode) (s : State) : (raiseError e s).freq = s.freq := rfl
@[simp] theorem raiseError_total (e : ErrCode) (s : State) : (raiseError e s).total = s.total := rfl
@[simp] theorem raiseError_ndist (e : ErrCode) (s : State) : (raiseError e s).ndist = s.ndist := rfl
@[simp] theorem raiseError_treeValid (e : ErrCode) (s : State) : (raiseError e s).treeValid = s.treeValid := rfl
@[simp] theorem raiseError_treeN (e : ErrCode) (s : State) : (raiseError e s).treeN = s.treeN := rfl
@[simp] theorem raiseError_root (e : ErrCode) (s : State) : (raiseError e s).root = s.root := rfl
@[simp] theorem raiseError_node (e : ErrCode) (s : State) : (raiseError e s).node = s.node := rfl
@[simp] theorem raiseError_codesValid (e : ErrCode) (s : State) : (raiseError e s).codesValid = s.codesValid := rfl
@[simp] theorem raiseError_code (e : ErrCode) (s : State) : (raiseError e s).code = s.code := rfl
@[simp] theorem raiseError_bitlen (e : ErrCode) (s : State) : (raiseError e s).bitlen = s.bitlen := rfl
@[simp] theorem raiseError_bitbuf (e : ErrCode) (s : State) : (raiseError e s).bitbuf = s.bitbuf := rfl
@[simp] theorem raiseError_symlen (e : ErrCode) (s : State) : (raiseError e s).symlen = s.symlen := rfl
@[simp] theorem raiseError_symbuf (e : ErrCode) (s : State) : (raiseError e s).symbuf = s.symbuf := rfl
@[simp] theorem raiseError_cursor (e : ErrCode) (s : State) : (raiseError e s).cursor = s.cursor := rfl
@[simp] theorem raiseError_result0 (e : ErrCode) (s : State) : (raiseError e s).result0 = s.result0 := rfl
@[simp] theorem raiseError_result1 (e : ErrCode) (s : State) : (raiseError e s).result1 = s.result1 := rfl
@[simp] theorem raiseError_pend (e : ErrCode) (s : State) : (raiseError e s).pend = none := rfl
@[simp] theorem raiseError_done (e : ErrCode) (s : State) : (raiseError e s).done = true := rfl
@[simp] theorem raiseError_err (e : ErrCode) (s : State) : (raiseError e s).err = (s.err || decide (e ≠ .ok)) := rfl
@[simp] theorem raiseError_ovr (e : ErrCode) (s : State) : (raiseError e s).ovr = s.ovr := rfl
@[simp] theorem raiseError_lastErr (e : ErrCode) (s : State) : (raiseError e s).lastErr = e := rfl
@[simp] theorem raiseError_doneIE (e : ErrCode) (s : State) : (raiseError e s).doneIE = s.doneIE := rfl
@[simp] theorem raiseError_errIE (e : ErrCode) (s : State) : (raiseError e s).errIE = s.errIE := rfl
@[simp] theorem raiseError_inReset (e : ErrCode) (s : State) : (raiseError e s).inReset = s.inReset := rfl
@[simp] theorem raiseError_hostQueue (e : ErrCode) (s : State) : (raiseError e s).hostQueue = s.hostQueue := rfl
@[simp] theorem raiseError_hostData (e : ErrCode) (s : State) : (raiseError e s).hostData = s.hostData := rfl
@[simp] theorem raiseError_draws (e : ErrCode) (s : State) : (raiseError e s).draws = s.draws := rfl
@[simp] theorem raiseError_delay (e : ErrCode) (s : State) : (raiseError e s).delay = s.delay := rfl

@[simp] theorem State.setResults_params (s : State) (r0 r1 : Word) : (s.setResults r0 r1).params = s.params := rfl
@[simp] theorem State.setResults_freq (s : State) (r0 r1 : Word) : (s.setResults r0 r1).freq = s.freq := rfl
@[simp] theorem State.setResults_total (s : State) (r0 r1 : Word) : (s.setResults r0 r1).total = s.total := rfl
@[simp] theorem State.setResults_ndist (s : State) (r0 r1 : Word) : (s.setResults r0 r1).ndist = s.ndist := rfl
@[simp] theorem State.setResults_treeValid (s : State) (r0 r1 : Word) : (s.setResults r0 r1).treeValid = s.treeValid := rfl
@[simp] theorem State.setResults_treeN (s : State) (r0 r1 : Word) : (s.setResults r0 r1).treeN = s.treeN := rfl
@[simp] theorem State.setResults_root (s : State) (r0 r1 : Word) : (s.setResults r0 r1).root = s.root := rfl
@[simp] theorem State.setResults_node (s : State) (r0 r1 : Word) : (s.setResults r0 r1).node = s.node := rfl
@[simp] theorem State.setResults_codesValid (s : State) (r0 r1 : Word) : (s.setResults r0 r1).codesValid = s.codesValid := rfl
@[simp] theorem State.setResults_code (s : State) (r0 r1 : Word) : (s.setResults r0 r1).code = s.code := rfl
@[simp] theorem State.setResults_bitlen (s : State) (r0 r1 : Word) : (s.setResults r0 r1).bitlen = s.bitlen := rfl
@[simp] theorem State.setResults_bitbuf (s : State) (r0 r1 : Word) : (s.setResults r0 r1).bitbuf = s.bitbuf := rfl
@[simp] theorem State.setResults_symlen (s : State) (r0 r1 : Word) : (s.setResults r0 r1).symlen = s.symlen := rfl
@[simp] theorem State.setResults_symbuf (s : State) (r0 r1 : Word) : (s.setResults r0 r1).symbuf = s.symbuf := rfl
@[simp] theorem State.setResults_cursor (s : State) (r0 r1 : Word) : (s.setResults r0 r1).cursor = s.cursor := rfl
@[simp] theorem State.setResults_result0 (s : State) (r0 r1 : Word) : (s.setResults r0 r1).result0 = r0 := rfl
@[simp] theorem State.setResults_result1 (s : State) (r0 r1 : Word) : (s.setResults r0 r1).result1 = r1 := rfl
@[simp] theorem State.setResults_pend (s : State) (r0 r1 : Word) : (s.setResults r0 r1).pend = s.pend := rfl
@[simp] theorem State.setResults_done (s : State) (r0 r1 : Word) : (s.setResults r0 r1).done = s.done := rfl
@[simp] theorem State.setResults_err (s : State) (r0 r1 : Word) : (s.setResults r0 r1).err = s.err := rfl
@[simp] theorem State.setResults_ovr (s : State) (r0 r1 : Word) : (s.setResults r0 r1).ovr = s.ovr := rfl
@[simp] theorem State.setResults_lastErr (s : State) (r0 r1 : Word) : (s.setResults r0 r1).lastErr = s.lastErr := rfl
@[simp] theorem State.setResults_doneIE (s : State) (r0 r1 : Word) : (s.setResults r0 r1).doneIE = s.doneIE := rfl
@[simp] theorem State.setResults_errIE (s : State) (r0 r1 : Word) : (s.setResults r0 r1).errIE = s.errIE := rfl
@[simp] theorem State.setResults_inReset (s : State) (r0 r1 : Word) : (s.setResults r0 r1).inReset = s.inReset := rfl
@[simp] theorem State.setResults_hostQueue (s : State) (r0 r1 : Word) : (s.setResults r0 r1).hostQueue = s.hostQueue := rfl
@[simp] theorem State.setResults_hostData (s : State) (r0 r1 : Word) : (s.setResults r0 r1).hostData = s.hostData := rfl
@[simp] theorem State.setResults_draws (s : State) (r0 r1 : Word) : (s.setResults r0 r1).draws = s.draws := rfl
@[simp] theorem State.setResults_delay (s : State) (r0 r1 : Word) : (s.setResults r0 r1).delay = s.delay := rfl

@[simp] theorem State.appendBits_params (s : State) (bs : List Bool) : (s.appendBits bs).params = s.params := rfl
@[simp] theorem State.appendBits_freq (s : State) (bs : List Bool) : (s.appendBits bs).freq = s.freq := rfl
@[simp] theorem State.appendBits_total (s : State) (bs : List Bool) : (s.appendBits bs).total = s.total := rfl
@[simp] theorem State.appendBits_ndist (s : State) (bs : List Bool) : (s.appendBits bs).ndist = s.ndist := rfl
@[simp] theorem State.appendBits_treeValid (s : State) (bs : List Bool) : (s.appendBits bs).treeValid = s.treeValid := rfl
@[simp] theorem State.appendBits_treeN (s : State) (bs : List Bool) : (s.appendBits bs).treeN = s.treeN := rfl
@[simp] theorem State.appendBits_root (s : State) (bs : List Bool) : (s.appendBits bs).root = s.root := rfl
@[simp] theorem State.appendBits_node (s : State) (bs : List Bool) : (s.appendBits bs).node = s.node := rfl
@[simp] theorem State.appendBits_codesValid (s : State) (bs : List Bool) : (s.appendBits bs).codesValid = s.codesValid := rfl
@[simp] theorem State.appendBits_code (s : State) (bs : List Bool) : (s.appendBits bs).code = s.code := rfl
@[simp] theorem State.appendBits_bitlen (s : State) (bs : List Bool) : (s.appendBits bs).bitlen = s.bitlen + bs.length := rfl
@[simp] theorem State.appendBits_bitbuf (s : State) (bs : List Bool) : (s.appendBits bs).bitbuf = s.bitbuf.writeList bitDefault s.bitlen bs := rfl
@[simp] theorem State.appendBits_symlen (s : State) (bs : List Bool) : (s.appendBits bs).symlen = s.symlen := rfl
@[simp] theorem State.appendBits_symbuf (s : State) (bs : List Bool) : (s.appendBits bs).symbuf = s.symbuf := rfl
@[simp] theorem State.appendBits_cursor (s : State) (bs : List Bool) : (s.appendBits bs).cursor = s.cursor := rfl
@[simp] theorem State.appendBits_result0 (s : State) (bs : List Bool) : (s.appendBits bs).result0 = s.result0 := rfl
@[simp] theorem State.appendBits_result1 (s : State) (bs : List Bool) : (s.appendBits bs).result1 = s.result1 := rfl
@[simp] theorem State.appendBits_pend (s : State) (bs : List Bool) : (s.appendBits bs).pend = s.pend := rfl
@[simp] theorem State.appendBits_done (s : State) (bs : List Bool) : (s.appendBits bs).done = s.done := rfl
@[simp] theorem State.appendBits_err (s : State) (bs : List Bool) : (s.appendBits bs).err = s.err := rfl
@[simp] theorem State.appendBits_ovr (s : State) (bs : List Bool) : (s.appendBits bs).ovr = s.ovr := rfl
@[simp] theorem State.appendBits_lastErr (s : State) (bs : List Bool) : (s.appendBits bs).lastErr = s.lastErr := rfl
@[simp] theorem State.appendBits_doneIE (s : State) (bs : List Bool) : (s.appendBits bs).doneIE = s.doneIE := rfl
@[simp] theorem State.appendBits_errIE (s : State) (bs : List Bool) : (s.appendBits bs).errIE = s.errIE := rfl
@[simp] theorem State.appendBits_inReset (s : State) (bs : List Bool) : (s.appendBits bs).inReset = s.inReset := rfl
@[simp] theorem State.appendBits_hostQueue (s : State) (bs : List Bool) : (s.appendBits bs).hostQueue = s.hostQueue := rfl
@[simp] theorem State.appendBits_hostData (s : State) (bs : List Bool) : (s.appendBits bs).hostData = s.hostData := rfl
@[simp] theorem State.appendBits_draws (s : State) (bs : List Bool) : (s.appendBits bs).draws = s.draws := rfl
@[simp] theorem State.appendBits_delay (s : State) (bs : List Bool) : (s.appendBits bs).delay = s.delay := rfl

@[simp] theorem State.appendSyms_params (s : State) (ss : List Sym) : (s.appendSyms ss).params = s.params := rfl
@[simp] theorem State.appendSyms_freq (s : State) (ss : List Sym) : (s.appendSyms ss).freq = s.freq := rfl
@[simp] theorem State.appendSyms_total (s : State) (ss : List Sym) : (s.appendSyms ss).total = s.total := rfl
@[simp] theorem State.appendSyms_ndist (s : State) (ss : List Sym) : (s.appendSyms ss).ndist = s.ndist := rfl
@[simp] theorem State.appendSyms_treeValid (s : State) (ss : List Sym) : (s.appendSyms ss).treeValid = s.treeValid := rfl
@[simp] theorem State.appendSyms_treeN (s : State) (ss : List Sym) : (s.appendSyms ss).treeN = s.treeN := rfl
@[simp] theorem State.appendSyms_root (s : State) (ss : List Sym) : (s.appendSyms ss).root = s.root := rfl
@[simp] theorem State.appendSyms_node (s : State) (ss : List Sym) : (s.appendSyms ss).node = s.node := rfl
@[simp] theorem State.appendSyms_codesValid (s : State) (ss : List Sym) : (s.appendSyms ss).codesValid = s.codesValid := rfl
@[simp] theorem State.appendSyms_code (s : State) (ss : List Sym) : (s.appendSyms ss).code = s.code := rfl
@[simp] theorem State.appendSyms_bitlen (s : State) (ss : List Sym) : (s.appendSyms ss).bitlen = s.bitlen := rfl
@[simp] theorem State.appendSyms_bitbuf (s : State) (ss : List Sym) : (s.appendSyms ss).bitbuf = s.bitbuf := rfl
@[simp] theorem State.appendSyms_symlen (s : State) (ss : List Sym) : (s.appendSyms ss).symlen = s.symlen + ss.length := rfl
@[simp] theorem State.appendSyms_symbuf (s : State) (ss : List Sym) : (s.appendSyms ss).symbuf = s.symbuf.writeList symDefault s.symlen ss := rfl
@[simp] theorem State.appendSyms_cursor (s : State) (ss : List Sym) : (s.appendSyms ss).cursor = s.cursor := rfl
@[simp] theorem State.appendSyms_result0 (s : State) (ss : List Sym) : (s.appendSyms ss).result0 = s.result0 := rfl
@[simp] theorem State.appendSyms_result1 (s : State) (ss : List Sym) : (s.appendSyms ss).result1 = s.result1 := rfl
@[simp] theorem State.appendSyms_pend (s : State) (ss : List Sym) : (s.appendSyms ss).pend = s.pend := rfl
@[simp] theorem State.appendSyms_done (s : State) (ss : List Sym) : (s.appendSyms ss).done = s.done := rfl
@[simp] theorem State.appendSyms_err (s : State) (ss : List Sym) : (s.appendSyms ss).err = s.err := rfl
@[simp] theorem State.appendSyms_ovr (s : State) (ss : List Sym) : (s.appendSyms ss).ovr = s.ovr := rfl
@[simp] theorem State.appendSyms_lastErr (s : State) (ss : List Sym) : (s.appendSyms ss).lastErr = s.lastErr := rfl
@[simp] theorem State.appendSyms_doneIE (s : State) (ss : List Sym) : (s.appendSyms ss).doneIE = s.doneIE := rfl
@[simp] theorem State.appendSyms_errIE (s : State) (ss : List Sym) : (s.appendSyms ss).errIE = s.errIE := rfl
@[simp] theorem State.appendSyms_inReset (s : State) (ss : List Sym) : (s.appendSyms ss).inReset = s.inReset := rfl
@[simp] theorem State.appendSyms_hostQueue (s : State) (ss : List Sym) : (s.appendSyms ss).hostQueue = s.hostQueue := rfl
@[simp] theorem State.appendSyms_hostData (s : State) (ss : List Sym) : (s.appendSyms ss).hostData = s.hostData := rfl
@[simp] theorem State.appendSyms_draws (s : State) (ss : List Sym) : (s.appendSyms ss).draws = s.draws := rfl
@[simp] theorem State.appendSyms_delay (s : State) (ss : List Sym) : (s.appendSyms ss).delay = s.delay := rfl

@[simp] theorem clearFreq_params (s : State) : (clearFreq s).params = s.params := rfl
@[simp] theorem clearFreq_freq (s : State) : (clearFreq s).freq = [] := rfl
@[simp] theorem clearFreq_total (s : State) : (clearFreq s).total = 0 := rfl
@[simp] theorem clearFreq_ndist (s : State) : (clearFreq s).ndist = 0 := rfl
@[simp] theorem clearFreq_treeValid (s : State) : (clearFreq s).treeValid = s.treeValid := rfl
@[simp] theorem clearFreq_treeN (s : State) : (clearFreq s).treeN = s.treeN := rfl
@[simp] theorem clearFreq_root (s : State) : (clearFreq s).root = s.root := rfl
@[simp] theorem clearFreq_node (s : State) : (clearFreq s).node = s.node := rfl
@[simp] theorem clearFreq_codesValid (s : State) : (clearFreq s).codesValid = s.codesValid := rfl
@[simp] theorem clearFreq_code (s : State) : (clearFreq s).code = s.code := rfl
@[simp] theorem clearFreq_bitlen (s : State) : (clearFreq s).bitlen = s.bitlen := rfl
@[simp] theorem clearFreq_bitbuf (s : State) : (clearFreq s).bitbuf = s.bitbuf := rfl
@[simp] theorem clearFreq_symlen (s : State) : (clearFreq s).symlen = s.symlen := rfl
@[simp] theorem clearFreq_symbuf (s : State) : (clearFreq s).symbuf = s.symbuf := rfl
@[simp] theorem clearFreq_cursor (s : State) : (clearFreq s).cursor = s.cursor := rfl
@[simp] theorem clearFreq_result0 (s : State) : (clearFreq s).result0 = s.result0 := rfl
@[simp] theorem clearFreq_result1 (s : State) : (clearFreq s).result1 = s.result1 := rfl
@[simp] theorem clearFreq_pend (s : State) : (clearFreq s).pend = s.pend := rfl
@[simp] theorem clearFreq_done (s : State) : (clearFreq s).done = s.done := rfl
@[simp] theorem clearFreq_err (s : State) : (clearFreq s).err = s.err := rfl
@[simp] theorem clearFreq_ovr (s : State) : (clearFreq s).ovr = s.ovr := rfl
@[simp] theorem clearFreq_lastErr (s : State) : (clearFreq s).lastErr = s.lastErr := rfl
@[simp] theorem clearFreq_doneIE (s : State) : (clearFreq s).doneIE = s.doneIE := rfl
@[simp] theorem clearFreq_errIE (s : State) : (clearFreq s).errIE = s.errIE := rfl
@[simp] theorem clearFreq_inReset (s : State) : (clearFreq s).inReset = s.inReset := rfl
@[simp] theorem clearFreq_hostQueue (s : State) : (clearFreq s).hostQueue = s.hostQueue := rfl
@[simp] theorem clearFreq_hostData (s : State) : (clearFreq s).hostData = s.hostData := rfl
@[simp] theorem clearFreq_draws (s : State) : (clearFreq s).draws = s.draws := rfl
@[simp] theorem clearFreq_delay (s : State) : (clearFreq s).delay = s.delay := rfl

@[simp] theorem clearTree_params (s : State) : (clearTree s).params = s.params := rfl
@[simp] theorem clearTree_freq (s : State) : (clearTree s).freq = s.freq := rfl
@[simp] theorem clearTree_total (s : State) : (clearTree s).total = s.total := rfl
@[simp] theorem clearTree_ndist (s : State) : (clearTree s).ndist = s.ndist := rfl
@[simp] theorem clearTree_treeValid (s : State) : (clearTree s).treeValid = false := rfl
@[simp] theorem clearTree_treeN (s : State) : (clearTree s).treeN = 0 := rfl
@[simp] theorem clearTree_root (s : State) : (clearTree s).root = 0 := rfl
@[simp] theorem clearTree_node (s : State) : (clearTree s).node = s.node := rfl
@[simp] theorem clearTree_codesValid (s : State) : (clearTree s).codesValid = false := rfl
@[simp] theorem clearTree_code (s : State) : (clearTree s).code = s.code := rfl
@[simp] theorem clearTree_bitlen (s : State) : (clearTree s).bitlen = s.bitlen := rfl
@[simp] theorem clearTree_bitbuf (s : State) : (clearTree s).bitbuf = s.bitbuf := rfl
@[simp] theorem clearTree_symlen (s : State) : (clearTree s).symlen = s.symlen := rfl
@[simp] theorem clearTree_symbuf (s : State) : (clearTree s).symbuf = s.symbuf := rfl
@[simp] theorem clearTree_cursor (s : State) : (clearTree s).cursor = 0 := rfl
@[simp] theorem clearTree_result0 (s : State) : (clearTree s).result0 = s.result0 := rfl
@[simp] theorem clearTree_result1 (s : State) : (clearTree s).result1 = s.result1 := rfl
@[simp] theorem clearTree_pend (s : State) : (clearTree s).pend = s.pend := rfl
@[simp] theorem clearTree_done (s : State) : (clearTree s).done = s.done := rfl
@[simp] theorem clearTree_err (s : State) : (clearTree s).err = s.err := rfl
@[simp] theorem clearTree_ovr (s : State) : (clearTree s).ovr = s.ovr := rfl
@[simp] theorem clearTree_lastErr (s : State) : (clearTree s).lastErr = s.lastErr := rfl
@[simp] theorem clearTree_doneIE (s : State) : (clearTree s).doneIE = s.doneIE := rfl
@[simp] theorem clearTree_errIE (s : State) : (clearTree s).errIE = s.errIE := rfl
@[simp] theorem clearTree_inReset (s : State) : (clearTree s).inReset = s.inReset := rfl
@[simp] theorem clearTree_hostQueue (s : State) : (clearTree s).hostQueue = s.hostQueue := rfl
@[simp] theorem clearTree_hostData (s : State) : (clearTree s).hostData = s.hostData := rfl
@[simp] theorem clearTree_draws (s : State) : (clearTree s).draws = s.draws := rfl
@[simp] theorem clearTree_delay (s : State) : (clearTree s).delay = s.delay := rfl

@[simp] theorem clearCodes_params (s : State) : (clearCodes s).params = s.params := rfl
@[simp] theorem clearCodes_freq (s : State) : (clearCodes s).freq = s.freq := rfl
@[simp] theorem clearCodes_total (s : State) : (clearCodes s).total = s.total := rfl
@[simp] theorem clearCodes_ndist (s : State) : (clearCodes s).ndist = s.ndist := rfl
@[simp] theorem clearCodes_treeValid (s : State) : (clearCodes s).treeValid = s.treeValid := rfl
@[simp] theorem clearCodes_treeN (s : State) : (clearCodes s).treeN = s.treeN := rfl
@[simp] theorem clearCodes_root (s : State) : (clearCodes s).root = s.root := rfl
@[simp] theorem clearCodes_node (s : State) : (clearCodes s).node = s.node := rfl
@[simp] theorem clearCodes_codesValid (s : State) : (clearCodes s).codesValid = false := rfl
@[simp] theorem clearCodes_code (s : State) : (clearCodes s).code = s.code := rfl
@[simp] theorem clearCodes_bitlen (s : State) : (clearCodes s).bitlen = s.bitlen := rfl
@[simp] theorem clearCodes_bitbuf (s : State) : (clearCodes s).bitbuf = s.bitbuf := rfl
@[simp] theorem clearCodes_symlen (s : State) : (clearCodes s).symlen = s.symlen := rfl
@[simp] theorem clearCodes_symbuf (s : State) : (clearCodes s).symbuf = s.symbuf := rfl
@[simp] theorem clearCodes_cursor (s : State) : (clearCodes s).cursor = s.cursor := rfl
@[simp] theorem clearCodes_result0 (s : State) : (clearCodes s).result0 = s.result0 := rfl
@[simp] theorem clearCodes_result1 (s : State) : (clearCodes s).result1 = s.result1 := rfl
@[simp] theorem clearCodes_pend (s : State) : (clearCodes s).pend = s.pend := rfl
@[simp] theorem clearCodes_done (s : State) : (clearCodes s).done = s.done := rfl
@[simp] theorem clearCodes_err (s : State) : (clearCodes s).err = s.err := rfl
@[simp] theorem clearCodes_ovr (s : State) : (clearCodes s).ovr = s.ovr := rfl
@[simp] theorem clearCodes_lastErr (s : State) : (clearCodes s).lastErr = s.lastErr := rfl
@[simp] theorem clearCodes_doneIE (s : State) : (clearCodes s).doneIE = s.doneIE := rfl
@[simp] theorem clearCodes_errIE (s : State) : (clearCodes s).errIE = s.errIE := rfl
@[simp] theorem clearCodes_inReset (s : State) : (clearCodes s).inReset = s.inReset := rfl
@[simp] theorem clearCodes_hostQueue (s : State) : (clearCodes s).hostQueue = s.hostQueue := rfl
@[simp] theorem clearCodes_hostData (s : State) : (clearCodes s).hostData = s.hostData := rfl
@[simp] theorem clearCodes_draws (s : State) : (clearCodes s).draws = s.draws := rfl
@[simp] theorem clearCodes_delay (s : State) : (clearCodes s).delay = s.delay := rfl

@[simp] theorem clearBits_params (s : State) : (clearBits s).params = s.params := rfl
@[simp] theorem clearBits_freq (s : State) : (clearBits s).freq = s.freq := rfl
@[simp] theorem clearBits_total (s : State) : (clearBits s).total = s.total := rfl
@[simp] theorem clearBits_ndist (s : State) : (clearBits s).ndist = s.ndist := rfl
@[simp] theorem clearBits_treeValid (s : State) : (clearBits s).treeValid = s.treeValid := rfl
@[simp] theorem clearBits_treeN (s : State) : (clearBits s).treeN = s.treeN := rfl
@[simp] theorem clearBits_root (s : State) : (clearBits s).root = s.root := rfl
@[simp] theorem clearBits_node (s : State) : (clearBits s).node = s.node := rfl
@[simp] theorem clearBits_codesValid (s : State) : (clearBits s).codesValid = s.codesValid := rfl
@[simp] theorem clearBits_code (s : State) : (clearBits s).code = s.code := rfl
@[simp] theorem clearBits_bitlen (s : State) : (clearBits s).bitlen = 0 := rfl
@[simp] theorem clearBits_bitbuf (s : State) : (clearBits s).bitbuf = s.bitbuf := rfl
@[simp] theorem clearBits_symlen (s : State) : (clearBits s).symlen = s.symlen := rfl
@[simp] theorem clearBits_symbuf (s : State) : (clearBits s).symbuf = s.symbuf := rfl
@[simp] theorem clearBits_cursor (s : State) : (clearBits s).cursor = s.cursor := rfl
@[simp] theorem clearBits_result0 (s : State) : (clearBits s).result0 = s.result0 := rfl
@[simp] theorem clearBits_result1 (s : State) : (clearBits s).result1 = s.result1 := rfl
@[simp] theorem clearBits_pend (s : State) : (clearBits s).pend = s.pend := rfl
@[simp] theorem clearBits_done (s : State) : (clearBits s).done = s.done := rfl
@[simp] theorem clearBits_err (s : State) : (clearBits s).err = s.err := rfl
@[simp] theorem clearBits_ovr (s : State) : (clearBits s).ovr = s.ovr := rfl
@[simp] theorem clearBits_lastErr (s : State) : (clearBits s).lastErr = s.lastErr := rfl
@[simp] theorem clearBits_doneIE (s : State) : (clearBits s).doneIE = s.doneIE := rfl
@[simp] theorem clearBits_errIE (s : State) : (clearBits s).errIE = s.errIE := rfl
@[simp] theorem clearBits_inReset (s : State) : (clearBits s).inReset = s.inReset := rfl
@[simp] theorem clearBits_hostQueue (s : State) : (clearBits s).hostQueue = s.hostQueue := rfl
@[simp] theorem clearBits_hostData (s : State) : (clearBits s).hostData = s.hostData := rfl
@[simp] theorem clearBits_draws (s : State) : (clearBits s).draws = s.draws := rfl
@[simp] theorem clearBits_delay (s : State) : (clearBits s).delay = s.delay := rfl

@[simp] theorem clearSyms_params (s : State) : (clearSyms s).params = s.params := rfl
@[simp] theorem clearSyms_freq (s : State) : (clearSyms s).freq = s.freq := rfl
@[simp] theorem clearSyms_total (s : State) : (clearSyms s).total = s.total := rfl
@[simp] theorem clearSyms_ndist (s : State) : (clearSyms s).ndist = s.ndist := rfl
@[simp] theorem clearSyms_treeValid (s : State) : (clearSyms s).treeValid = s.treeValid := rfl
@[simp] theorem clearSyms_treeN (s : State) : (clearSyms s).treeN = s.treeN := rfl
@[simp] theorem clearSyms_root (s : State) : (clearSyms s).root = s.root := rfl
@[simp] theorem clearSyms_node (s : State) : (clearSyms s).node = s.node := rfl
@[simp] theorem clearSyms_codesValid (s : State) : (clearSyms s).codesValid = s.codesValid := rfl
@[simp] theorem clearSyms_code (s : State) : (clearSyms s).code = s.code := rfl
@[simp] theorem clearSyms_bitlen (s : State) : (clearSyms s).bitlen = s.bitlen := rfl
@[simp] theorem clearSyms_bitbuf (s : State) : (clearSyms s).bitbuf = s.bitbuf := rfl
@[simp] theorem clearSyms_symlen (s : State) : (clearSyms s).symlen = 0 := rfl
@[simp] theorem clearSyms_symbuf (s : State) : (clearSyms s).symbuf = s.symbuf := rfl
@[simp] theorem clearSyms_cursor (s : State) : (clearSyms s).cursor = s.cursor := rfl
@[simp] theorem clearSyms_result0 (s : State) : (clearSyms s).result0 = s.result0 := rfl
@[simp] theorem clearSyms_result1 (s : State) : (clearSyms s).result1 = s.result1 := rfl
@[simp] theorem clearSyms_pend (s : State) : (clearSyms s).pend = s.pend := rfl
@[simp] theorem clearSyms_done (s : State) : (clearSyms s).done = s.done := rfl
@[simp] theorem clearSyms_err (s : State) : (clearSyms s).err = s.err := rfl
@[simp] theorem clearSyms_ovr (s : State) : (clearSyms s).ovr = s.ovr := rfl
@[simp] theorem clearSyms_lastErr (s : State) : (clearSyms s).lastErr = s.lastErr := rfl
@[simp] theorem clearSyms_doneIE (s : State) : (clearSyms s).doneIE = s.doneIE := rfl
@[simp] theorem clearSyms_errIE (s : State) : (clearSyms s).errIE = s.errIE := rfl
@[simp] theorem clearSyms_inReset (s : State) : (clearSyms s).inReset = s.inReset := rfl
@[simp] theorem clearSyms_hostQueue (s : State) : (clearSyms s).hostQueue = s.hostQueue := rfl
@[simp] theorem clearSyms_hostData (s : State) : (clearSyms s).hostData = s.hostData := rfl
@[simp] theorem clearSyms_draws (s : State) : (clearSyms s).draws = s.draws := rfl
@[simp] theorem clearSyms_delay (s : State) : (clearSyms s).delay = s.delay := rfl

@[simp] theorem homeDecoder_params (s : State) : (homeDecoder s).params = s.params := rfl
@[simp] theorem homeDecoder_freq (s : State) : (homeDecoder s).freq = s.freq := rfl
@[simp] theorem homeDecoder_total (s : State) : (homeDecoder s).total = s.total := rfl
@[simp] theorem homeDecoder_ndist (s : State) : (homeDecoder s).ndist = s.ndist := rfl
@[simp] theorem homeDecoder_treeValid (s : State) : (homeDecoder s).treeValid = s.treeValid := rfl
@[simp] theorem homeDecoder_treeN (s : State) : (homeDecoder s).treeN = s.treeN := rfl
@[simp] theorem homeDecoder_root (s : State) : (homeDecoder s).root = s.root := rfl
@[simp] theorem homeDecoder_node (s : State) : (homeDecoder s).node = s.node := rfl
@[simp] theorem homeDecoder_codesValid (s : State) : (homeDecoder s).codesValid = s.codesValid := rfl
@[simp] theorem homeDecoder_code (s : State) : (homeDecoder s).code = s.code := rfl
@[simp] theorem homeDecoder_bitlen (s : State) : (homeDecoder s).bitlen = s.bitlen := rfl
@[simp] theorem homeDecoder_bitbuf (s : State) : (homeDecoder s).bitbuf = s.bitbuf := rfl
@[simp] theorem homeDecoder_symlen (s : State) : (homeDecoder s).symlen = s.symlen := rfl
@[simp] theorem homeDecoder_symbuf (s : State) : (homeDecoder s).symbuf = s.symbuf := rfl
@[simp] theorem homeDecoder_cursor (s : State) : (homeDecoder s).cursor = s.root := rfl
@[simp] theorem homeDecoder_result0 (s : State) : (homeDecoder s).result0 = s.result0 := rfl
@[simp] theorem homeDecoder_result1 (s : State) : (homeDecoder s).result1 = s.result1 := rfl
@[simp] theorem homeDecoder_pend (s : State) : (homeDecoder s).pend = s.pend := rfl
@[simp] theorem homeDecoder_done (s : State) : (homeDecoder s).done = s.done := rfl
@[simp] theorem homeDecoder_err (s : State) : (homeDecoder s).err = s.err := rfl
@[simp] theorem homeDecoder_ovr (s : State) : (homeDecoder s).ovr = s.ovr := rfl
@[simp] theorem homeDecoder_lastErr (s : State) : (homeDecoder s).lastErr = s.lastErr := rfl
@[simp] theorem homeDecoder_doneIE (s : State) : (homeDecoder s).doneIE = s.doneIE := rfl
@[simp] theorem homeDecoder_errIE (s : State) : (homeDecoder s).errIE = s.errIE := rfl
@[simp] theorem homeDecoder_inReset (s : State) : (homeDecoder s).inReset = s.inReset := rfl
@[simp] theorem homeDecoder_hostQueue (s : State) : (homeDecoder s).hostQueue = s.hostQueue := rfl
@[simp] theorem homeDecoder_hostData (s : State) : (homeDecoder s).hostData = s.hostData := rfl
@[simp] theorem homeDecoder_draws (s : State) : (homeDecoder s).draws = s.draws := rfl
@[simp] theorem homeDecoder_delay (s : State) : (homeDecoder s).delay = s.delay := rfl

@[simp] theorem addCount_params (x : Sym) (n : Count) (s : State) : (addCount x n s).params = s.params := rfl
@[simp] theorem addCount_freq (x : Sym) (n : Count) (s : State) : (addCount x n s).freq = s.freq.write freqDefault x.toNat (s.freqAt x + n) := rfl
@[simp] theorem addCount_total (x : Sym) (n : Count) (s : State) : (addCount x n s).total = s.total + n := rfl
@[simp] theorem addCount_ndist (x : Sym) (n : Count) (s : State) : (addCount x n s).ndist = if s.freqAt x = 0 then s.ndist + 1 else s.ndist := rfl
@[simp] theorem addCount_treeValid (x : Sym) (n : Count) (s : State) : (addCount x n s).treeValid = s.treeValid := rfl
@[simp] theorem addCount_treeN (x : Sym) (n : Count) (s : State) : (addCount x n s).treeN = s.treeN := rfl
@[simp] theorem addCount_root (x : Sym) (n : Count) (s : State) : (addCount x n s).root = s.root := rfl
@[simp] theorem addCount_node (x : Sym) (n : Count) (s : State) : (addCount x n s).node = s.node := rfl
@[simp] theorem addCount_codesValid (x : Sym) (n : Count) (s : State) : (addCount x n s).codesValid = s.codesValid := rfl
@[simp] theorem addCount_code (x : Sym) (n : Count) (s : State) : (addCount x n s).code = s.code := rfl
@[simp] theorem addCount_bitlen (x : Sym) (n : Count) (s : State) : (addCount x n s).bitlen = s.bitlen := rfl
@[simp] theorem addCount_bitbuf (x : Sym) (n : Count) (s : State) : (addCount x n s).bitbuf = s.bitbuf := rfl
@[simp] theorem addCount_symlen (x : Sym) (n : Count) (s : State) : (addCount x n s).symlen = s.symlen := rfl
@[simp] theorem addCount_symbuf (x : Sym) (n : Count) (s : State) : (addCount x n s).symbuf = s.symbuf := rfl
@[simp] theorem addCount_cursor (x : Sym) (n : Count) (s : State) : (addCount x n s).cursor = s.cursor := rfl
@[simp] theorem addCount_result0 (x : Sym) (n : Count) (s : State) : (addCount x n s).result0 = s.result0 := rfl
@[simp] theorem addCount_result1 (x : Sym) (n : Count) (s : State) : (addCount x n s).result1 = s.result1 := rfl
@[simp] theorem addCount_pend (x : Sym) (n : Count) (s : State) : (addCount x n s).pend = s.pend := rfl
@[simp] theorem addCount_done (x : Sym) (n : Count) (s : State) : (addCount x n s).done = s.done := rfl
@[simp] theorem addCount_err (x : Sym) (n : Count) (s : State) : (addCount x n s).err = s.err := rfl
@[simp] theorem addCount_ovr (x : Sym) (n : Count) (s : State) : (addCount x n s).ovr = s.ovr := rfl
@[simp] theorem addCount_lastErr (x : Sym) (n : Count) (s : State) : (addCount x n s).lastErr = s.lastErr := rfl
@[simp] theorem addCount_doneIE (x : Sym) (n : Count) (s : State) : (addCount x n s).doneIE = s.doneIE := rfl
@[simp] theorem addCount_errIE (x : Sym) (n : Count) (s : State) : (addCount x n s).errIE = s.errIE := rfl
@[simp] theorem addCount_inReset (x : Sym) (n : Count) (s : State) : (addCount x n s).inReset = s.inReset := rfl
@[simp] theorem addCount_hostQueue (x : Sym) (n : Count) (s : State) : (addCount x n s).hostQueue = s.hostQueue := rfl
@[simp] theorem addCount_hostData (x : Sym) (n : Count) (s : State) : (addCount x n s).hostData = s.hostData := rfl
@[simp] theorem addCount_draws (x : Sym) (n : Count) (s : State) : (addCount x n s).draws = s.draws := rfl
@[simp] theorem addCount_delay (x : Sym) (n : Count) (s : State) : (addCount x n s).delay = s.delay := rfl

@[simp] theorem commitTree_params (s : State) : (commitTree s).params = s.params := rfl
@[simp] theorem commitTree_freq (s : State) : (commitTree s).freq = s.freq := rfl
@[simp] theorem commitTree_total (s : State) : (commitTree s).total = s.total := rfl
@[simp] theorem commitTree_ndist (s : State) : (commitTree s).ndist = s.ndist := rfl
@[simp] theorem commitTree_treeValid (s : State) : (commitTree s).treeValid = true := rfl
@[simp] theorem commitTree_treeN (s : State) : (commitTree s).treeN = BitVec.ofNat 9 (leaves s).length := rfl
@[simp] theorem commitTree_root (s : State) : (commitTree s).root = BitVec.ofNat 9 ((buildArena s).length - 1) := rfl
@[simp] theorem commitTree_node (s : State) : (commitTree s).node = s.node.writeList nodeDefault 0 (buildArena s) := rfl
@[simp] theorem commitTree_codesValid (s : State) : (commitTree s).codesValid = false := rfl
@[simp] theorem commitTree_code (s : State) : (commitTree s).code = s.code := rfl
@[simp] theorem commitTree_bitlen (s : State) : (commitTree s).bitlen = s.bitlen := rfl
@[simp] theorem commitTree_bitbuf (s : State) : (commitTree s).bitbuf = s.bitbuf := rfl
@[simp] theorem commitTree_symlen (s : State) : (commitTree s).symlen = s.symlen := rfl
@[simp] theorem commitTree_symbuf (s : State) : (commitTree s).symbuf = s.symbuf := rfl
@[simp] theorem commitTree_cursor (s : State) : (commitTree s).cursor = BitVec.ofNat 9 ((buildArena s).length - 1) := rfl
@[simp] theorem commitTree_result0 (s : State) : (commitTree s).result0 = s.result0 := rfl
@[simp] theorem commitTree_result1 (s : State) : (commitTree s).result1 = s.result1 := rfl
@[simp] theorem commitTree_pend (s : State) : (commitTree s).pend = s.pend := rfl
@[simp] theorem commitTree_done (s : State) : (commitTree s).done = s.done := rfl
@[simp] theorem commitTree_err (s : State) : (commitTree s).err = s.err := rfl
@[simp] theorem commitTree_ovr (s : State) : (commitTree s).ovr = s.ovr := rfl
@[simp] theorem commitTree_lastErr (s : State) : (commitTree s).lastErr = s.lastErr := rfl
@[simp] theorem commitTree_doneIE (s : State) : (commitTree s).doneIE = s.doneIE := rfl
@[simp] theorem commitTree_errIE (s : State) : (commitTree s).errIE = s.errIE := rfl
@[simp] theorem commitTree_inReset (s : State) : (commitTree s).inReset = s.inReset := rfl
@[simp] theorem commitTree_hostQueue (s : State) : (commitTree s).hostQueue = s.hostQueue := rfl
@[simp] theorem commitTree_hostData (s : State) : (commitTree s).hostData = s.hostData := rfl
@[simp] theorem commitTree_draws (s : State) : (commitTree s).draws = s.draws := rfl
@[simp] theorem commitTree_delay (s : State) : (commitTree s).delay = s.delay := rfl

@[simp] theorem State.clearStatus_params (s : State) (v : Word) : (s.clearStatus v).params = s.params := rfl
@[simp] theorem State.clearStatus_freq (s : State) (v : Word) : (s.clearStatus v).freq = s.freq := rfl
@[simp] theorem State.clearStatus_total (s : State) (v : Word) : (s.clearStatus v).total = s.total := rfl
@[simp] theorem State.clearStatus_ndist (s : State) (v : Word) : (s.clearStatus v).ndist = s.ndist := rfl
@[simp] theorem State.clearStatus_treeValid (s : State) (v : Word) : (s.clearStatus v).treeValid = s.treeValid := rfl
@[simp] theorem State.clearStatus_treeN (s : State) (v : Word) : (s.clearStatus v).treeN = s.treeN := rfl
@[simp] theorem State.clearStatus_root (s : State) (v : Word) : (s.clearStatus v).root = s.root := rfl
@[simp] theorem State.clearStatus_node (s : State) (v : Word) : (s.clearStatus v).node = s.node := rfl
@[simp] theorem State.clearStatus_codesValid (s : State) (v : Word) : (s.clearStatus v).codesValid = s.codesValid := rfl
@[simp] theorem State.clearStatus_code (s : State) (v : Word) : (s.clearStatus v).code = s.code := rfl
@[simp] theorem State.clearStatus_bitlen (s : State) (v : Word) : (s.clearStatus v).bitlen = s.bitlen := rfl
@[simp] theorem State.clearStatus_bitbuf (s : State) (v : Word) : (s.clearStatus v).bitbuf = s.bitbuf := rfl
@[simp] theorem State.clearStatus_symlen (s : State) (v : Word) : (s.clearStatus v).symlen = s.symlen := rfl
@[simp] theorem State.clearStatus_symbuf (s : State) (v : Word) : (s.clearStatus v).symbuf = s.symbuf := rfl
@[simp] theorem State.clearStatus_cursor (s : State) (v : Word) : (s.clearStatus v).cursor = s.cursor := rfl
@[simp] theorem State.clearStatus_result0 (s : State) (v : Word) : (s.clearStatus v).result0 = s.result0 := rfl
@[simp] theorem State.clearStatus_result1 (s : State) (v : Word) : (s.clearStatus v).result1 = s.result1 := rfl
@[simp] theorem State.clearStatus_pend (s : State) (v : Word) : (s.clearStatus v).pend = s.pend := rfl
@[simp] theorem State.clearStatus_done (s : State) (v : Word) : (s.clearStatus v).done = (s.done && !v.getLsbD 1) := rfl
@[simp] theorem State.clearStatus_err (s : State) (v : Word) : (s.clearStatus v).err = (s.err && !v.getLsbD 2) := rfl
@[simp] theorem State.clearStatus_ovr (s : State) (v : Word) : (s.clearStatus v).ovr = (s.ovr && !v.getLsbD 3) := rfl
@[simp] theorem State.clearStatus_lastErr (s : State) (v : Word) : (s.clearStatus v).lastErr = s.lastErr := rfl
@[simp] theorem State.clearStatus_doneIE (s : State) (v : Word) : (s.clearStatus v).doneIE = s.doneIE := rfl
@[simp] theorem State.clearStatus_errIE (s : State) (v : Word) : (s.clearStatus v).errIE = s.errIE := rfl
@[simp] theorem State.clearStatus_inReset (s : State) (v : Word) : (s.clearStatus v).inReset = s.inReset := rfl
@[simp] theorem State.clearStatus_hostQueue (s : State) (v : Word) : (s.clearStatus v).hostQueue = s.hostQueue := rfl
@[simp] theorem State.clearStatus_hostData (s : State) (v : Word) : (s.clearStatus v).hostData = s.hostData := rfl
@[simp] theorem State.clearStatus_draws (s : State) (v : Word) : (s.clearStatus v).draws = s.draws := rfl
@[simp] theorem State.clearStatus_delay (s : State) (v : Word) : (s.clearStatus v).delay = s.delay := rfl

@[simp] theorem State.setEnables_params (s : State) (v : Word) : (s.setEnables v).params = s.params := rfl
@[simp] theorem State.setEnables_freq (s : State) (v : Word) : (s.setEnables v).freq = s.freq := rfl
@[simp] theorem State.setEnables_total (s : State) (v : Word) : (s.setEnables v).total = s.total := rfl
@[simp] theorem State.setEnables_ndist (s : State) (v : Word) : (s.setEnables v).ndist = s.ndist := rfl
@[simp] theorem State.setEnables_treeValid (s : State) (v : Word) : (s.setEnables v).treeValid = s.treeValid := rfl
@[simp] theorem State.setEnables_treeN (s : State) (v : Word) : (s.setEnables v).treeN = s.treeN := rfl
@[simp] theorem State.setEnables_root (s : State) (v : Word) : (s.setEnables v).root = s.root := rfl
@[simp] theorem State.setEnables_node (s : State) (v : Word) : (s.setEnables v).node = s.node := rfl
@[simp] theorem State.setEnables_codesValid (s : State) (v : Word) : (s.setEnables v).codesValid = s.codesValid := rfl
@[simp] theorem State.setEnables_code (s : State) (v : Word) : (s.setEnables v).code = s.code := rfl
@[simp] theorem State.setEnables_bitlen (s : State) (v : Word) : (s.setEnables v).bitlen = s.bitlen := rfl
@[simp] theorem State.setEnables_bitbuf (s : State) (v : Word) : (s.setEnables v).bitbuf = s.bitbuf := rfl
@[simp] theorem State.setEnables_symlen (s : State) (v : Word) : (s.setEnables v).symlen = s.symlen := rfl
@[simp] theorem State.setEnables_symbuf (s : State) (v : Word) : (s.setEnables v).symbuf = s.symbuf := rfl
@[simp] theorem State.setEnables_cursor (s : State) (v : Word) : (s.setEnables v).cursor = s.cursor := rfl
@[simp] theorem State.setEnables_result0 (s : State) (v : Word) : (s.setEnables v).result0 = s.result0 := rfl
@[simp] theorem State.setEnables_result1 (s : State) (v : Word) : (s.setEnables v).result1 = s.result1 := rfl
@[simp] theorem State.setEnables_pend (s : State) (v : Word) : (s.setEnables v).pend = s.pend := rfl
@[simp] theorem State.setEnables_done (s : State) (v : Word) : (s.setEnables v).done = s.done := rfl
@[simp] theorem State.setEnables_err (s : State) (v : Word) : (s.setEnables v).err = s.err := rfl
@[simp] theorem State.setEnables_ovr (s : State) (v : Word) : (s.setEnables v).ovr = s.ovr := rfl
@[simp] theorem State.setEnables_lastErr (s : State) (v : Word) : (s.setEnables v).lastErr = s.lastErr := rfl
@[simp] theorem State.setEnables_doneIE (s : State) (v : Word) : (s.setEnables v).doneIE = v.getLsbD 1 := rfl
@[simp] theorem State.setEnables_errIE (s : State) (v : Word) : (s.setEnables v).errIE = v.getLsbD 2 := rfl
@[simp] theorem State.setEnables_inReset (s : State) (v : Word) : (s.setEnables v).inReset = s.inReset := rfl
@[simp] theorem State.setEnables_hostQueue (s : State) (v : Word) : (s.setEnables v).hostQueue = s.hostQueue := rfl
@[simp] theorem State.setEnables_hostData (s : State) (v : Word) : (s.setEnables v).hostData = s.hostData := rfl
@[simp] theorem State.setEnables_draws (s : State) (v : Word) : (s.setEnables v).draws = s.draws := rfl
@[simp] theorem State.setEnables_delay (s : State) (v : Word) : (s.setEnables v).delay = s.delay := rfl

@[simp] theorem returnData_params (v : Word) (s : State) : (returnData v s).params = s.params := rfl
@[simp] theorem returnData_freq (v : Word) (s : State) : (returnData v s).freq = s.freq := rfl
@[simp] theorem returnData_total (v : Word) (s : State) : (returnData v s).total = s.total := rfl
@[simp] theorem returnData_ndist (v : Word) (s : State) : (returnData v s).ndist = s.ndist := rfl
@[simp] theorem returnData_treeValid (v : Word) (s : State) : (returnData v s).treeValid = s.treeValid := rfl
@[simp] theorem returnData_treeN (v : Word) (s : State) : (returnData v s).treeN = s.treeN := rfl
@[simp] theorem returnData_root (v : Word) (s : State) : (returnData v s).root = s.root := rfl
@[simp] theorem returnData_node (v : Word) (s : State) : (returnData v s).node = s.node := rfl
@[simp] theorem returnData_codesValid (v : Word) (s : State) : (returnData v s).codesValid = s.codesValid := rfl
@[simp] theorem returnData_code (v : Word) (s : State) : (returnData v s).code = s.code := rfl
@[simp] theorem returnData_bitlen (v : Word) (s : State) : (returnData v s).bitlen = s.bitlen := rfl
@[simp] theorem returnData_bitbuf (v : Word) (s : State) : (returnData v s).bitbuf = s.bitbuf := rfl
@[simp] theorem returnData_symlen (v : Word) (s : State) : (returnData v s).symlen = s.symlen := rfl
@[simp] theorem returnData_symbuf (v : Word) (s : State) : (returnData v s).symbuf = s.symbuf := rfl
@[simp] theorem returnData_cursor (v : Word) (s : State) : (returnData v s).cursor = s.cursor := rfl
@[simp] theorem returnData_result0 (v : Word) (s : State) : (returnData v s).result0 = s.result0 := rfl
@[simp] theorem returnData_result1 (v : Word) (s : State) : (returnData v s).result1 = s.result1 := rfl
@[simp] theorem returnData_pend (v : Word) (s : State) : (returnData v s).pend = s.pend := rfl
@[simp] theorem returnData_done (v : Word) (s : State) : (returnData v s).done = s.done := rfl
@[simp] theorem returnData_err (v : Word) (s : State) : (returnData v s).err = s.err := rfl
@[simp] theorem returnData_ovr (v : Word) (s : State) : (returnData v s).ovr = s.ovr := rfl
@[simp] theorem returnData_lastErr (v : Word) (s : State) : (returnData v s).lastErr = s.lastErr := rfl
@[simp] theorem returnData_doneIE (v : Word) (s : State) : (returnData v s).doneIE = s.doneIE := rfl
@[simp] theorem returnData_errIE (v : Word) (s : State) : (returnData v s).errIE = s.errIE := rfl
@[simp] theorem returnData_inReset (v : Word) (s : State) : (returnData v s).inReset = s.inReset := rfl
@[simp] theorem returnData_hostQueue (v : Word) (s : State) : (returnData v s).hostQueue = s.hostQueue := rfl
@[simp] theorem returnData_hostData (v : Word) (s : State) : (returnData v s).hostData = v :: s.hostData := rfl
@[simp] theorem returnData_draws (v : Word) (s : State) : (returnData v s).draws = s.draws := rfl
@[simp] theorem returnData_delay (v : Word) (s : State) : (returnData v s).delay = s.delay := rfl

@[simp] theorem returnDraw_params (s : State) : (returnDraw s).params = s.params := rfl
@[simp] theorem returnDraw_freq (s : State) : (returnDraw s).freq = s.freq := rfl
@[simp] theorem returnDraw_total (s : State) : (returnDraw s).total = s.total := rfl
@[simp] theorem returnDraw_ndist (s : State) : (returnDraw s).ndist = s.ndist := rfl
@[simp] theorem returnDraw_treeValid (s : State) : (returnDraw s).treeValid = s.treeValid := rfl
@[simp] theorem returnDraw_treeN (s : State) : (returnDraw s).treeN = s.treeN := rfl
@[simp] theorem returnDraw_root (s : State) : (returnDraw s).root = s.root := rfl
@[simp] theorem returnDraw_node (s : State) : (returnDraw s).node = s.node := rfl
@[simp] theorem returnDraw_codesValid (s : State) : (returnDraw s).codesValid = s.codesValid := rfl
@[simp] theorem returnDraw_code (s : State) : (returnDraw s).code = s.code := rfl
@[simp] theorem returnDraw_bitlen (s : State) : (returnDraw s).bitlen = s.bitlen := rfl
@[simp] theorem returnDraw_bitbuf (s : State) : (returnDraw s).bitbuf = s.bitbuf := rfl
@[simp] theorem returnDraw_symlen (s : State) : (returnDraw s).symlen = s.symlen := rfl
@[simp] theorem returnDraw_symbuf (s : State) : (returnDraw s).symbuf = s.symbuf := rfl
@[simp] theorem returnDraw_cursor (s : State) : (returnDraw s).cursor = s.cursor := rfl
@[simp] theorem returnDraw_result0 (s : State) : (returnDraw s).result0 = s.result0 := rfl
@[simp] theorem returnDraw_result1 (s : State) : (returnDraw s).result1 = s.result1 := rfl
@[simp] theorem returnDraw_pend (s : State) : (returnDraw s).pend = s.pend := rfl
@[simp] theorem returnDraw_done (s : State) : (returnDraw s).done = s.done := rfl
@[simp] theorem returnDraw_err (s : State) : (returnDraw s).err = s.err := rfl
@[simp] theorem returnDraw_ovr (s : State) : (returnDraw s).ovr = s.ovr := rfl
@[simp] theorem returnDraw_lastErr (s : State) : (returnDraw s).lastErr = s.lastErr := rfl
@[simp] theorem returnDraw_doneIE (s : State) : (returnDraw s).doneIE = s.doneIE := rfl
@[simp] theorem returnDraw_errIE (s : State) : (returnDraw s).errIE = s.errIE := rfl
@[simp] theorem returnDraw_inReset (s : State) : (returnDraw s).inReset = s.inReset := rfl
@[simp] theorem returnDraw_hostQueue (s : State) : (returnDraw s).hostQueue = s.hostQueue := rfl
@[simp] theorem returnDraw_hostData (s : State) : (returnDraw s).hostData = Config.drawWord s.draws :: s.hostData := rfl
@[simp] theorem returnDraw_draws (s : State) : (returnDraw s).draws = s.draws + 1 := rfl
@[simp] theorem returnDraw_delay (s : State) : (returnDraw s).delay = s.delay := rfl

@[simp] theorem takeEvent_params (rest : List HostEvent) (s : State) : (takeEvent rest s).params = s.params := rfl
@[simp] theorem takeEvent_freq (rest : List HostEvent) (s : State) : (takeEvent rest s).freq = s.freq := rfl
@[simp] theorem takeEvent_total (rest : List HostEvent) (s : State) : (takeEvent rest s).total = s.total := rfl
@[simp] theorem takeEvent_ndist (rest : List HostEvent) (s : State) : (takeEvent rest s).ndist = s.ndist := rfl
@[simp] theorem takeEvent_treeValid (rest : List HostEvent) (s : State) : (takeEvent rest s).treeValid = s.treeValid := rfl
@[simp] theorem takeEvent_treeN (rest : List HostEvent) (s : State) : (takeEvent rest s).treeN = s.treeN := rfl
@[simp] theorem takeEvent_root (rest : List HostEvent) (s : State) : (takeEvent rest s).root = s.root := rfl
@[simp] theorem takeEvent_node (rest : List HostEvent) (s : State) : (takeEvent rest s).node = s.node := rfl
@[simp] theorem takeEvent_codesValid (rest : List HostEvent) (s : State) : (takeEvent rest s).codesValid = s.codesValid := rfl
@[simp] theorem takeEvent_code (rest : List HostEvent) (s : State) : (takeEvent rest s).code = s.code := rfl
@[simp] theorem takeEvent_bitlen (rest : List HostEvent) (s : State) : (takeEvent rest s).bitlen = s.bitlen := rfl
@[simp] theorem takeEvent_bitbuf (rest : List HostEvent) (s : State) : (takeEvent rest s).bitbuf = s.bitbuf := rfl
@[simp] theorem takeEvent_symlen (rest : List HostEvent) (s : State) : (takeEvent rest s).symlen = s.symlen := rfl
@[simp] theorem takeEvent_symbuf (rest : List HostEvent) (s : State) : (takeEvent rest s).symbuf = s.symbuf := rfl
@[simp] theorem takeEvent_cursor (rest : List HostEvent) (s : State) : (takeEvent rest s).cursor = s.cursor := rfl
@[simp] theorem takeEvent_result0 (rest : List HostEvent) (s : State) : (takeEvent rest s).result0 = s.result0 := rfl
@[simp] theorem takeEvent_result1 (rest : List HostEvent) (s : State) : (takeEvent rest s).result1 = s.result1 := rfl
@[simp] theorem takeEvent_pend (rest : List HostEvent) (s : State) : (takeEvent rest s).pend = s.pend := rfl
@[simp] theorem takeEvent_done (rest : List HostEvent) (s : State) : (takeEvent rest s).done = s.done := rfl
@[simp] theorem takeEvent_err (rest : List HostEvent) (s : State) : (takeEvent rest s).err = s.err := rfl
@[simp] theorem takeEvent_ovr (rest : List HostEvent) (s : State) : (takeEvent rest s).ovr = s.ovr := rfl
@[simp] theorem takeEvent_lastErr (rest : List HostEvent) (s : State) : (takeEvent rest s).lastErr = s.lastErr := rfl
@[simp] theorem takeEvent_doneIE (rest : List HostEvent) (s : State) : (takeEvent rest s).doneIE = s.doneIE := rfl
@[simp] theorem takeEvent_errIE (rest : List HostEvent) (s : State) : (takeEvent rest s).errIE = s.errIE := rfl
@[simp] theorem takeEvent_inReset (rest : List HostEvent) (s : State) : (takeEvent rest s).inReset = s.inReset := rfl
@[simp] theorem takeEvent_hostQueue (rest : List HostEvent) (s : State) : (takeEvent rest s).hostQueue = rest := rfl
@[simp] theorem takeEvent_hostData (rest : List HostEvent) (s : State) : (takeEvent rest s).hostData = s.hostData := rfl
@[simp] theorem takeEvent_draws (rest : List HostEvent) (s : State) : (takeEvent rest s).draws = s.draws := rfl
@[simp] theorem takeEvent_delay (rest : List HostEvent) (s : State) : (takeEvent rest s).delay = s.delay - 1 := rfl

@[simp] theorem releaseReset_params (s : State) : (releaseReset s).params = s.params := rfl
@[simp] theorem releaseReset_freq (s : State) : (releaseReset s).freq = s.freq := rfl
@[simp] theorem releaseReset_total (s : State) : (releaseReset s).total = s.total := rfl
@[simp] theorem releaseReset_ndist (s : State) : (releaseReset s).ndist = s.ndist := rfl
@[simp] theorem releaseReset_treeValid (s : State) : (releaseReset s).treeValid = s.treeValid := rfl
@[simp] theorem releaseReset_treeN (s : State) : (releaseReset s).treeN = s.treeN := rfl
@[simp] theorem releaseReset_root (s : State) : (releaseReset s).root = s.root := rfl
@[simp] theorem releaseReset_node (s : State) : (releaseReset s).node = s.node := rfl
@[simp] theorem releaseReset_codesValid (s : State) : (releaseReset s).codesValid = s.codesValid := rfl
@[simp] theorem releaseReset_code (s : State) : (releaseReset s).code = s.code := rfl
@[simp] theorem releaseReset_bitlen (s : State) : (releaseReset s).bitlen = s.bitlen := rfl
@[simp] theorem releaseReset_bitbuf (s : State) : (releaseReset s).bitbuf = s.bitbuf := rfl
@[simp] theorem releaseReset_symlen (s : State) : (releaseReset s).symlen = s.symlen := rfl
@[simp] theorem releaseReset_symbuf (s : State) : (releaseReset s).symbuf = s.symbuf := rfl
@[simp] theorem releaseReset_cursor (s : State) : (releaseReset s).cursor = s.cursor := rfl
@[simp] theorem releaseReset_result0 (s : State) : (releaseReset s).result0 = s.result0 := rfl
@[simp] theorem releaseReset_result1 (s : State) : (releaseReset s).result1 = s.result1 := rfl
@[simp] theorem releaseReset_pend (s : State) : (releaseReset s).pend = s.pend := rfl
@[simp] theorem releaseReset_done (s : State) : (releaseReset s).done = s.done := rfl
@[simp] theorem releaseReset_err (s : State) : (releaseReset s).err = s.err := rfl
@[simp] theorem releaseReset_ovr (s : State) : (releaseReset s).ovr = s.ovr := rfl
@[simp] theorem releaseReset_lastErr (s : State) : (releaseReset s).lastErr = s.lastErr := rfl
@[simp] theorem releaseReset_doneIE (s : State) : (releaseReset s).doneIE = s.doneIE := rfl
@[simp] theorem releaseReset_errIE (s : State) : (releaseReset s).errIE = s.errIE := rfl
@[simp] theorem releaseReset_inReset (s : State) : (releaseReset s).inReset = false := rfl
@[simp] theorem releaseReset_hostQueue (s : State) : (releaseReset s).hostQueue = s.hostQueue := rfl
@[simp] theorem releaseReset_hostData (s : State) : (releaseReset s).hostData = s.hostData := rfl
@[simp] theorem releaseReset_draws (s : State) : (releaseReset s).draws = s.draws := rfl
@[simp] theorem releaseReset_delay (s : State) : (releaseReset s).delay = s.delay := rfl

@[simp] theorem placeCommand_params (s : State) (w : Word) : (placeCommand s w).params = s.params := rfl
@[simp] theorem placeCommand_freq (s : State) (w : Word) : (placeCommand s w).freq = s.freq := rfl
@[simp] theorem placeCommand_total (s : State) (w : Word) : (placeCommand s w).total = s.total := rfl
@[simp] theorem placeCommand_ndist (s : State) (w : Word) : (placeCommand s w).ndist = s.ndist := rfl
@[simp] theorem placeCommand_treeValid (s : State) (w : Word) : (placeCommand s w).treeValid = s.treeValid := rfl
@[simp] theorem placeCommand_treeN (s : State) (w : Word) : (placeCommand s w).treeN = s.treeN := rfl
@[simp] theorem placeCommand_root (s : State) (w : Word) : (placeCommand s w).root = s.root := rfl
@[simp] theorem placeCommand_node (s : State) (w : Word) : (placeCommand s w).node = s.node := rfl
@[simp] theorem placeCommand_codesValid (s : State) (w : Word) : (placeCommand s w).codesValid = s.codesValid := rfl
@[simp] theorem placeCommand_code (s : State) (w : Word) : (placeCommand s w).code = s.code := rfl
@[simp] theorem placeCommand_bitlen (s : State) (w : Word) : (placeCommand s w).bitlen = s.bitlen := rfl
@[simp] theorem placeCommand_bitbuf (s : State) (w : Word) : (placeCommand s w).bitbuf = s.bitbuf := rfl
@[simp] theorem placeCommand_symlen (s : State) (w : Word) : (placeCommand s w).symlen = s.symlen := rfl
@[simp] theorem placeCommand_symbuf (s : State) (w : Word) : (placeCommand s w).symbuf = s.symbuf := rfl
@[simp] theorem placeCommand_cursor (s : State) (w : Word) : (placeCommand s w).cursor = s.cursor := rfl
@[simp] theorem placeCommand_result0 (s : State) (w : Word) : (placeCommand s w).result0 = s.result0 := rfl
@[simp] theorem placeCommand_result1 (s : State) (w : Word) : (placeCommand s w).result1 = s.result1 := rfl
@[simp] theorem placeCommand_pend (s : State) (w : Word) : (placeCommand s w).pend = some w := rfl
@[simp] theorem placeCommand_done (s : State) (w : Word) : (placeCommand s w).done = s.done := rfl
@[simp] theorem placeCommand_err (s : State) (w : Word) : (placeCommand s w).err = s.err := rfl
@[simp] theorem placeCommand_ovr (s : State) (w : Word) : (placeCommand s w).ovr = s.ovr := rfl
@[simp] theorem placeCommand_lastErr (s : State) (w : Word) : (placeCommand s w).lastErr = s.lastErr := rfl
@[simp] theorem placeCommand_doneIE (s : State) (w : Word) : (placeCommand s w).doneIE = s.doneIE := rfl
@[simp] theorem placeCommand_errIE (s : State) (w : Word) : (placeCommand s w).errIE = s.errIE := rfl
@[simp] theorem placeCommand_inReset (s : State) (w : Word) : (placeCommand s w).inReset = false := rfl
@[simp] theorem placeCommand_hostQueue (s : State) (w : Word) : (placeCommand s w).hostQueue = s.hostQueue := rfl
@[simp] theorem placeCommand_hostData (s : State) (w : Word) : (placeCommand s w).hostData = s.hostData := rfl
@[simp] theorem placeCommand_draws (s : State) (w : Word) : (placeCommand s w).draws = s.draws := rfl
@[simp] theorem placeCommand_delay (s : State) (w : Word) : (placeCommand s w).delay = 0 := rfl

@[simp] theorem assertReset_params (s : State) : (assertReset s).params = s.params := rfl
@[simp] theorem assertReset_freq (s : State) : (assertReset s).freq = [] := rfl
@[simp] theorem assertReset_total (s : State) : (assertReset s).total = 0 := rfl
@[simp] theorem assertReset_ndist (s : State) : (assertReset s).ndist = 0 := rfl
@[simp] theorem assertReset_treeValid (s : State) : (assertReset s).treeValid = false := rfl
@[simp] theorem assertReset_treeN (s : State) : (assertReset s).treeN = 0 := rfl
@[simp] theorem assertReset_root (s : State) : (assertReset s).root = 0 := rfl
@[simp] theorem assertReset_node (s : State) : (assertReset s).node = [] := rfl
@[simp] theorem assertReset_codesValid (s : State) : (assertReset s).codesValid = false := rfl
@[simp] theorem assertReset_code (s : State) : (assertReset s).code = [] := rfl
@[simp] theorem assertReset_bitlen (s : State) : (assertReset s).bitlen = 0 := rfl
@[simp] theorem assertReset_bitbuf (s : State) : (assertReset s).bitbuf = [] := rfl
@[simp] theorem assertReset_symlen (s : State) : (assertReset s).symlen = 0 := rfl
@[simp] theorem assertReset_symbuf (s : State) : (assertReset s).symbuf = [] := rfl
@[simp] theorem assertReset_cursor (s : State) : (assertReset s).cursor = 0 := rfl
@[simp] theorem assertReset_result0 (s : State) : (assertReset s).result0 = 0 := rfl
@[simp] theorem assertReset_result1 (s : State) : (assertReset s).result1 = 0 := rfl
@[simp] theorem assertReset_pend (s : State) : (assertReset s).pend = none := rfl
@[simp] theorem assertReset_done (s : State) : (assertReset s).done = false := rfl
@[simp] theorem assertReset_err (s : State) : (assertReset s).err = false := rfl
@[simp] theorem assertReset_ovr (s : State) : (assertReset s).ovr = false := rfl
@[simp] theorem assertReset_lastErr (s : State) : (assertReset s).lastErr = .ok := rfl
@[simp] theorem assertReset_doneIE (s : State) : (assertReset s).doneIE = false := rfl
@[simp] theorem assertReset_errIE (s : State) : (assertReset s).errIE = false := rfl
@[simp] theorem assertReset_inReset (s : State) : (assertReset s).inReset = true := rfl
@[simp] theorem assertReset_hostQueue (s : State) : (assertReset s).hostQueue = s.hostQueue := rfl
@[simp] theorem assertReset_hostData (s : State) : (assertReset s).hostData = s.hostData := rfl
@[simp] theorem assertReset_draws (s : State) : (assertReset s).draws = s.draws := rfl
@[simp] theorem assertReset_delay (s : State) : (assertReset s).delay = 0 := rfl

/-! What a state reads at an index depends only on the store. -/

theorem State.freqAt_congr {s t : State} (h : t.freq = s.freq) (x : Sym) : t.freqAt x = s.freqAt x := by
  unfold State.freqAt; rw [h]
theorem State.nodeAt_congr {s t : State} (h : t.node = s.node) (x : NodeId) : t.nodeAt x = s.nodeAt x := by
  unfold State.nodeAt; rw [h]
theorem State.codeAt_congr {s t : State} (h : t.code = s.code) (x : Sym) : t.codeAt x = s.codeAt x := by
  unfold State.codeAt; rw [h]
theorem State.bitAt_congr {s t : State} (h : t.bitbuf = s.bitbuf) (p : Nat) : t.bitAt p = s.bitAt p := by
  unfold State.bitAt; rw [h]
theorem State.symAt_congr {s t : State} (h : t.symbuf = s.symbuf) (i : Nat) : t.symAt i = s.symAt i := by
  unfold State.symAt; rw [h]

@[simp] theorem freqAt_retire (e : ErrCode) (s : State) (x : Sym) : (retire e s).freqAt x = s.freqAt x := rfl
@[simp] theorem nodeAt_retire (e : ErrCode) (s : State) (x : NodeId) : (retire e s).nodeAt x = s.nodeAt x := rfl
@[simp] theorem codeAt_retire (e : ErrCode) (s : State) (x : Sym) : (retire e s).codeAt x = s.codeAt x := rfl
@[simp] theorem bitAt_retire (e : ErrCode) (s : State) (p : Nat) : (retire e s).bitAt p = s.bitAt p := rfl
@[simp] theorem symAt_retire (e : ErrCode) (s : State) (i : Nat) : (retire e s).symAt i = s.symAt i := rfl

/-- COUNT and COUNTN change one count. -/
theorem freqAt_addCount (x y : Sym) (n : Count) (s : State) :
    (addCount x n s).freqAt y = if y = x then s.freqAt x + n else s.freqAt y := by
  unfold State.freqAt
  rw [addCount_freq, Memory.read_write]
  by_cases h : y = x
  · simp [h, State.freqAt]
  · have : y.toNat ≠ x.toNat := fun e => h (BitVec.eq_of_toNat_eq e)
    simp [h, this]

/-- The bits appended stand at BITLEN and after, and every other position is as it was. -/
theorem bitAt_appendBits (s : State) (bs : List Bool) (p : Nat) :
    (s.appendBits bs).bitAt p =
      if s.bitlen ≤ p ∧ p < s.bitlen + bs.length then bs.getD (p - s.bitlen) bitDefault else s.bitAt p := by
  unfold State.bitAt
  rw [State.appendBits_bitbuf, Memory.read_writeList]

/-- The symbols appended stand at SYMLEN and after, and every other index is as it was. -/
theorem symAt_appendSyms (s : State) (ss : List Sym) (i : Nat) :
    (s.appendSyms ss).symAt i =
      if s.symlen ≤ i ∧ i < s.symlen + ss.length then ss.getD (i - s.symlen) symDefault else s.symAt i := by
  unfold State.symAt
  rw [State.appendSyms_symbuf, Memory.read_writeList]

/-- The held bit string after an append is the old one followed by the bits appended. -/
theorem heldBits_appendBits (s : State) (bs : List Bool) : (s.appendBits bs).heldBits = s.heldBits ++ bs := by
  unfold State.heldBits
  apply List.ext_getElem
  · simp
  · intro p hp _
    simp only [State.appendBits_bitlen, List.length_map, List.length_range] at hp
    simp only [List.getElem_map, List.getElem_range, bitAt_appendBits]
    by_cases h : s.bitlen ≤ p
    · rw [if_pos ⟨h, hp⟩, List.getElem_append_right (by simpa using h)]
      have hlt : p - s.bitlen < bs.length := by omega
      simp [List.getD, hlt]
    · rw [if_neg (by omega), List.getElem_append_left (by simpa using Nat.lt_of_not_le h)]
      simp

/-- The held symbols after an append are the old ones followed by the symbols appended. -/
theorem heldSyms_appendSyms (s : State) (ss : List Sym) : (s.appendSyms ss).heldSyms = s.heldSyms ++ ss := by
  unfold State.heldSyms
  apply List.ext_getElem
  · simp
  · intro p hp _
    simp only [State.appendSyms_symlen, List.length_map, List.length_range] at hp
    simp only [List.getElem_map, List.getElem_range, symAt_appendSyms]
    by_cases h : s.symlen ≤ p
    · rw [if_pos ⟨h, hp⟩, List.getElem_append_right (by simpa using h)]
      have hlt : p - s.symlen < ss.length := by omega
      simp [List.getD, hlt]
    · rw [if_neg (by omega), List.getElem_append_left (by simpa using Nat.lt_of_not_le h)]
      simp

/-- Every store of the state after reset is in its canonical form. -/
theorem resetWith_stores_wf (p : Params) :
    Memory.wf freqDefault (State.resetWith p).freq ∧ Memory.wf nodeDefault (State.resetWith p).node ∧
    Memory.wf codeDefault (State.resetWith p).code ∧ Memory.wf bitDefault (State.resetWith p).bitbuf ∧
    Memory.wf symDefault (State.resetWith p).symbuf :=
  ⟨Memory.wf_nil _, Memory.wf_nil _, Memory.wf_nil _, Memory.wf_nil _, Memory.wf_nil _⟩

end Sys2Proof.Machine
end

