-- ==== Sys2Proof/Laws/Exec.lean ====
section
/-! SUPPORT. Every command through one lemma: `exec` is `runRule` around the command's rule, so whatever it answers is a next
state that ends in success or in an error that changed nothing else. -/

namespace Sys2Proof.Machine

/-- The rule of a command: the state its pseudocode leaves, or the error it raises (60_exceptions.md R141). -/
def ruleOf (i : Instr) (s : State) : Except ErrCode State :=
  match i with
  | .nop => .ok s
  | .clr mask => .ok (clrRule mask s)
  | .count sym => countRule sym s
  | .countn sym n => countnRule sym n s
  | .build => buildRule s
  | .derive => deriveRule s
  | .enc sym => encRule sym s
  | .wrbits n v => wrbitsRule n v s
  | .decbit b => decbitRule b s
  | .decend => decendRule s
  | .decbuf => decbufRule s
  | .rdfreq sym => .ok (s.setResults (s.freqAt sym) 0)
  | .rdnode id => rdnodeRule id s
  | .rdcode sym w => .ok (rdcodeRule sym w s)
  | .rdbits k => rdbitsRule k s
  | .rdsym idx => rdsymRule idx s

theorem exec_eq_runRule (i : Instr) (s : State) : exec i s = runRule s (ruleOf i s) := by cases i <;> rfl

/-- What `runRule` answers, success or error. -/
theorem runRule_cases {s t : State} {r : Except ErrCode State} (h : runRule s r = .next t) :
    (∃ u, r = .ok u ∧ t = retire .ok u) ∨ (∃ e, r = .error e ∧ t = raiseError e s) := by
  cases r with
  | ok u => left; exact ⟨u, rfl, by simpa [runRule] using h.symm⟩
  | error e => right; exact ⟨e, rfl, by simpa [runRule] using h.symm⟩

theorem runRule_ok (s u : State) : runRule s (.ok u) = .next (retire .ok u) := rfl

theorem runRule_error (s : State) (e : ErrCode) : runRule s (.error e) = .next (raiseError e s) := rfl

/-- What a command answers: the state its rule leaves, completed with code 0, or an error raised from the state before. -/
theorem exec_cases {i : Instr} {s t : State} (h : exec i s = .next t) :
    (∃ u, ruleOf i s = .ok u ∧ t = retire .ok u) ∨ (∃ e, ruleOf i s = .error e ∧ t = raiseError e s) :=
  runRule_cases (exec_eq_runRule i s ▸ h)

/-- What a raised error does: DONE, LASTERR, ERR and PEND, and nothing else. -/
theorem raiseError_eq (e : ErrCode) (s : State) :
    raiseError e s = { s with done := true, lastErr := e, err := s.err || decide (e ≠ .ok), pend := none } := rfl

/-! The rules' answers, one lemma a rule. -/

theorem countRule_ok {x : Sym} {s u : State} (h : countRule x s = .ok u) : s.total ≠ 0xFFFFFFFF ∧ u = addCount x 1 s := by
  unfold countRule at h
  split at h
  · cases h
  · rename_i h0; exact ⟨h0, by simpa using h.symm⟩

theorem countRule_error {x : Sym} {s : State} {e : ErrCode} (h : countRule x s = .error e) :
    s.total = 0xFFFFFFFF ∧ e = .overflow := by
  unfold countRule at h
  split at h
  · rename_i h0; exact ⟨h0, by simpa using h.symm⟩
  · cases h

theorem countnRule_ok {x : Sym} {n : BitVec 16} {s u : State} (h : countnRule x n s = .ok u) :
    n ≠ 0 ∧ s.total.toNat + n.toNat ≤ 0xFFFFFFFF ∧ u = addCount x (zext32 n) s := by
  unfold countnRule at h
  split at h
  · cases h
  · split at h
    · cases h
    · rename_i h0 h1; exact ⟨h0, by omega, by simpa using h.symm⟩

theorem countnRule_error {x : Sym} {n : BitVec 16} {s : State} {e : ErrCode} (h : countnRule x n s = .error e) :
    (n = 0 ∧ e = .illegalCmd) ∨ (n ≠ 0 ∧ s.total.toNat + n.toNat > 0xFFFFFFFF ∧ e = .overflow) := by
  unfold countnRule at h
  split at h
  · rename_i h0; exact .inl ⟨h0, by simpa using h.symm⟩
  · split at h
    · rename_i h0 h1; exact .inr ⟨h0, h1, by simpa using h.symm⟩
    · cases h

theorem buildRule_ok {s u : State} (h : buildRule s = .ok u) : s.ndist ≠ 0 ∧ u = commitTree s := by
  unfold buildRule at h
  split at h
  · cases h
  · rename_i h0; exact ⟨h0, by simpa using h.symm⟩

theorem buildRule_error {s : State} {e : ErrCode} (h : buildRule s = .error e) : s.ndist = 0 ∧ e = .emptyInput := by
  unfold buildRule at h
  split at h
  · rename_i h0; exact ⟨h0, by simpa using h.symm⟩
  · cases h

theorem deriveRule_ok {s u : State} (h : deriveRule s = .ok u) :
    s.treeValid = true ∧ u = { s with code := derivedTable s, codesValid := true } := by
  unfold deriveRule at h
  split at h
  · cases h
  · rename_i h0; exact ⟨by simpa using h0, by simpa using h.symm⟩

theorem deriveRule_error {s : State} {e : ErrCode} (h : deriveRule s = .error e) : s.treeValid = false ∧ e = .noTree := by
  unfold deriveRule at h
  split at h
  · rename_i h0; exact ⟨h0, by simpa using h.symm⟩
  · cases h

theorem appendOrFull_ok {bs : List Bool} {s u : State} (h : appendOrFull bs s = .ok u) :
    s.bitlen + bs.length ≤ s.params.bitcap ∧ u = s.appendBits bs := by
  unfold appendOrFull at h
  split at h
  · cases h
  · exact ⟨by omega, by simpa using h.symm⟩

theorem appendOrFull_error {bs : List Bool} {s : State} {e : ErrCode} (h : appendOrFull bs s = .error e) :
    s.bitlen + bs.length > s.params.bitcap ∧ e = .bufFull := by
  unfold appendOrFull at h
  split at h
  · rename_i h0; exact ⟨h0, by simpa using h.symm⟩
  · cases h

theorem encRule_ok {x : Sym} {s u : State} (h : encRule x s = .ok u) :
    ∃ c, s.validCode x = some c ∧ s.bitlen + c.toBits.length ≤ s.params.bitcap ∧
      u = (s.appendBits c.toBits).setResults (zext32 c.len) (zextLen (s.bitlen + c.toBits.length)) := by
  unfold encRule at h
  split at h
  · cases h
  · rename_i c hc
    split at h
    · cases h
    · rename_i t ht
      obtain ⟨hle, rfl⟩ := appendOrFull_ok ht
      exact ⟨c, hc, hle, by simpa using h.symm⟩

theorem encRule_error {x : Sym} {s : State} {e : ErrCode} (h : encRule x s = .error e) :
    (s.validCode x = none ∧ e = .unknownSymbol) ∨
      (∃ c, s.validCode x = some c ∧ s.bitlen + c.toBits.length > s.params.bitcap ∧ e = .bufFull) := by
  unfold encRule at h
  split at h
  · rename_i hc; exact .inl ⟨hc, by simpa using h.symm⟩
  · rename_i c hc
    split at h
    · rename_i e' he
      cases h
      exact .inr ⟨c, hc, appendOrFull_error he⟩
    · cases h

theorem wrbitsRule_ok {n : BitVec 5} {v : BitVec 16} {s u : State} (h : wrbitsRule n v s = .ok u) :
    n ≠ 0 ∧ n.toNat ≤ 16 ∧ s.bitlen + (literalBits n v).length ≤ s.params.bitcap ∧ u = s.appendBits (literalBits n v) := by
  unfold wrbitsRule at h
  split at h
  · cases h
  · rename_i h0
    exact ⟨fun e => h0 (.inl e), by omega, appendOrFull_ok h⟩

theorem wrbitsRule_error {n : BitVec 5} {v : BitVec 16} {s : State} {e : ErrCode} (h : wrbitsRule n v s = .error e) :
    ((n = 0 ∨ n.toNat > 16) ∧ e = .illegalCmd) ∨
      (n ≠ 0 ∧ n.toNat ≤ 16 ∧ s.bitlen + (literalBits n v).length > s.params.bitcap ∧ e = .bufFull) := by
  unfold wrbitsRule at h
  split at h
  · rename_i h0; exact .inl ⟨h0, by simpa using h.symm⟩
  · rename_i h0
    exact .inr ⟨fun e => h0 (.inl e), by omega, appendOrFull_error h⟩

theorem decbitRule_ok {b : Bool} {s u : State} (h : decbitRule b s = .ok u) :
    s.treeValid = true ∧
      ((∃ cur x, decStep s s.cursor b = .ok (cur, some x) ∧ s.symlen ≠ s.params.symcap ∧
          u = { (s.appendSyms [x]).setResults (emitWord x) (zext32 cur) with cursor := cur }) ∨
        (∃ cur, decStep s s.cursor b = .ok (cur, none) ∧ u = { s.setResults 0 (zext32 cur) with cursor := cur })) := by
  unfold decbitRule at h
  split at h
  · cases h
  · rename_i h0
    refine ⟨by simpa using h0, ?_⟩
    split at h
    · cases h
    · rename_i cur x hd
      split at h
      · cases h
      · rename_i h1; exact .inl ⟨cur, x, hd, h1, by simpa using h.symm⟩
    · rename_i cur hd; exact .inr ⟨cur, hd, by simpa using h.symm⟩

theorem decbitRule_error {b : Bool} {s : State} {e : ErrCode} (h : decbitRule b s = .error e) :
    (s.treeValid = false ∧ e = .noTree) ∨ (s.treeValid = true ∧ decStep s s.cursor b = .error e) ∨
      (s.treeValid = true ∧ s.symlen = s.params.symcap ∧ e = .bufFull ∧
        ∃ cur x, decStep s s.cursor b = .ok (cur, some x)) := by
  unfold decbitRule at h
  split at h
  · rename_i h0; exact .inl ⟨h0, by simpa using h.symm⟩
  · rename_i h0
    have hv : s.treeValid = true := by simpa using h0
    split at h
    · rename_i e' hd; cases h; exact .inr (.inl ⟨hv, hd⟩)
    · rename_i cur x hd
      split at h
      · rename_i h1; exact .inr (.inr ⟨hv, h1, by simpa using h.symm, cur, x, hd⟩)
      · cases h
    · cases h

theorem decendRule_ok {s u : State} (h : decendRule s = .ok u) : s.treeValid = true ∧ s.cursor = s.root ∧ u = s := by
  unfold decendRule at h
  split at h
  · cases h
  · split at h
    · cases h
    · rename_i h0 h1; exact ⟨by simpa using h0, by simpa using h1, by simpa using h.symm⟩

theorem decendRule_error {s : State} {e : ErrCode} (h : decendRule s = .error e) :
    (s.treeValid = false ∧ e = .noTree) ∨ (s.treeValid = true ∧ s.cursor ≠ s.root ∧ e = .truncated) := by
  unfold decendRule at h
  split at h
  · rename_i h0; exact .inl ⟨h0, by simpa using h.symm⟩
  · split at h
    · rename_i h0 h1; exact .inr ⟨by simpa using h0, h1, by simpa using h.symm⟩
    · cases h

theorem decbufRule_ok {s u : State} (h : decbufRule s = .ok u) :
    s.treeValid = true ∧ ∃ out, decLoop s s.heldBits s.root [] = .ok (s.root, out) ∧
      u = { (s.appendSyms out).setResults (zextLen out.length) (zextLen (s.symlen + out.length)) with cursor := s.root } := by
  unfold decbufRule at h
  split at h
  · cases h
  · rename_i h0
    refine ⟨by simpa using h0, ?_⟩
    split at h
    · cases h
    · rename_i cur out hd
      split at h
      · cases h
      · rename_i h1
        have h1 : cur = s.root := by simpa using h1
        subst h1
        exact ⟨out, hd, by simpa using h.symm⟩

theorem decbufRule_error {s : State} {e : ErrCode} (h : decbufRule s = .error e) :
    (s.treeValid = false ∧ e = .noTree) ∨ (s.treeValid = true ∧ decLoop s s.heldBits s.root [] = .error e) ∨
      (s.treeValid = true ∧ e = .truncated ∧ ∃ cur out, decLoop s s.heldBits s.root [] = .ok (cur, out) ∧ cur ≠ s.root) := by
  unfold decbufRule at h
  split at h
  · rename_i h0; exact .inl ⟨h0, by simpa using h.symm⟩
  · rename_i h0
    have hv : s.treeValid = true := by simpa using h0
    split at h
    · rename_i e' hd; cases h; exact .inr (.inl ⟨hv, hd⟩)
    · rename_i cur out hd
      split at h
      · rename_i h1; exact .inr (.inr ⟨hv, by simpa using h.symm, cur, out, hd, h1⟩)
      · cases h

theorem rdnodeRule_ok {id : NodeId} {s u : State} (h : rdnodeRule id s = .ok u) :
    s.treeValid = true ∧ id ≤ s.root ∧ u = s.setResults (s.nodeAt id).freq (nodeWord (s.nodeAt id)) := by
  unfold rdnodeRule at h
  split at h
  · cases h
  · split at h
    · cases h
    · rename_i h0 h1; exact ⟨by simpa using h0, by simpa using h1, by simpa using h.symm⟩

theorem rdnodeRule_error {id : NodeId} {s : State} {e : ErrCode} (h : rdnodeRule id s = .error e) :
    (s.treeValid = false ∧ e = .noTree) ∨ (s.treeValid = true ∧ s.root < id ∧ e = .range) := by
  unfold rdnodeRule at h
  split at h
  · rename_i h0; exact .inl ⟨h0, by simpa using h.symm⟩
  · split at h
    · rename_i h0 h1; exact .inr ⟨by simpa using h0, h1, by simpa using h.symm⟩
    · cases h

theorem rdbitsRule_ok {k : BitVec 11} {s u : State} (h : rdbitsRule k s = .ok u) :
    k.toNat < s.params.bitcap / 32 ∧ u = s.setResults (bitWord s k.toNat) (zextLen s.bitlen) := by
  unfold rdbitsRule at h
  split at h
  · cases h
  · exact ⟨by omega, by simpa using h.symm⟩

theorem rdbitsRule_error {k : BitVec 11} {s : State} {e : ErrCode} (h : rdbitsRule k s = .error e) :
    s.params.bitcap / 32 ≤ k.toNat ∧ e = .range := by
  unfold rdbitsRule at h
  split at h
  · rename_i h0; exact ⟨h0, by simpa using h.symm⟩
  · cases h

theorem rdsymRule_ok {idx : BitVec 16} {s u : State} (h : rdsymRule idx s = .ok u) :
    idx.toNat < s.symlen ∧ u = s.setResults (zext32 (s.symAt idx.toNat)) (zextLen s.symlen) := by
  unfold rdsymRule at h
  split at h
  · cases h
  · exact ⟨by omega, by simpa using h.symm⟩

theorem rdsymRule_error {idx : BitVec 16} {s : State} {e : ErrCode} (h : rdsymRule idx s = .error e) :
    s.symlen ≤ idx.toNat ∧ e = .range := by
  unfold rdsymRule at h
  split at h
  · rename_i h0; exact ⟨h0, by simpa using h.symm⟩
  · cases h

end Sys2Proof.Machine
end

