-- ==== Sys2Proof/Laws/Operands.lean ====
section
/-! SUPPORT. The operand and flag computations bit by bit. -/

namespace Sys2Proof.Machine

/-- Bit j of a packed word is `f j` below the width packed, 0 above. -/
theorem getLsbD_packBits (f : Nat → Bool) (n j : Nat) (hn : n ≤ 32) :
    (packBits f n).getLsbD j = (decide (j < n) && f j) := by
  induction n with
  | zero => simp [packBits]
  | succ n ih =>
    have hn' : n ≤ 32 := by omega
    rw [packBits, BitVec.getLsbD_or, ih hn']
    by_cases hj : j = n
    · subst hj
      by_cases hf : f j
      · simp [hf]; omega
      · simp [hf]
    · by_cases hf : f n
      · rw [if_pos hf, BitVec.getLsbD_shiftLeft]
        by_cases h1 : j < n
        · have : j < n + 1 := by omega
          simp [h1, this]
        · have h2 : ¬ j < n + 1 := by omega
          have h3 : j - n ≠ 0 := by omega
          simp [h1, h2, h3]
      · rw [if_neg hf]
        by_cases h1 : j < n
        · have : j < n + 1 := by omega
          simp [h1, this]
        · have h2 : ¬ j < n + 1 := by omega
          simp [h1, h2]

@[simp] theorem Code.toBits_length (c : Code) : c.toBits.length = c.len.toNat := by simp [Code.toBits]

@[simp] theorem literalBits_length (n : BitVec 5) (v : BitVec 16) : (literalBits n v).length = n.toNat := by
  simp [literalBits]

/-- What ENC and RDCODE find (10_state.md R42). -/
theorem validCode_eq_some {s : State} {x : Sym} {c : Code} :
    s.validCode x = some c ↔ s.codesValid = true ∧ (s.codeAt x).valid = true ∧ c = s.codeAt x := by
  unfold State.validCode
  split
  · rename_i h
    rw [Bool.and_eq_true] at h
    simp [h.1, h.2, eq_comm]
  · rename_i h
    rw [Bool.and_eq_true] at h
    simp only [reduceCtorEq, false_iff]
    exact fun hc => h ⟨hc.1, hc.2.1⟩

theorem validCode_eq_none {s : State} {x : Sym} :
    s.validCode x = none ↔ s.codesValid = false ∨ (s.codeAt x).valid = false := by
  unfold State.validCode
  split
  · rename_i h
    rw [Bool.and_eq_true] at h
    simp [h.1, h.2]
  · rename_i h
    rw [Bool.and_eq_true] at h
    cases h1 : s.codesValid <;> cases h2 : (s.codeAt x).valid <;> simp_all

end Sys2Proof.Machine
end

