-- ==== Sys2Proof/Laws/PerInstr.lean ====
section
/-! SUPPORT. Statements made for every constructor of `Instr`. `RowMatch`: the encoded word carries its row's opcode and has
the row's fixed bits (30_encoding.md R70, R71, R73). -/

namespace Sys2Proof.Laws

/-- The operand fields of a row lie below bit `k`, and its mask is every bit from `k` up. -/
def operandBits : Op → Nat
  | .nop | .build | .derive | .decend | .decbuf => 0
  | .clr => 6
  | .count | .enc | .rdfreq => 8
  | .countn => 24
  | .wrbits => 21
  | .decbit => 1
  | .rdnode => 9
  | .rdcode | .rdbits => 11
  | .rdsym => 16

theorem mask_eq (op : Op) : op.maskWord = BitVec.allOnes 32 <<< operandBits op := by cases op <;> rfl

theorem match_and_mask (op : Op) : op.matchWord &&& op.maskWord = op.matchWord := by cases op <;> rfl

theorem opcodeOf_match (op : Op) : Op.ofOpcode (opcodeOf op.matchWord) = some op := by cases op <;> rfl

theorem operandBits_le (op : Op) : operandBits op ≤ 27 := by cases op <;> decide

/-- A word that agrees with a row at the row's mask has the row's opcode. -/
theorem opcodeOf_of_mask {w : Word} {op : Op} (h : w &&& op.maskWord = op.matchWord) :
    opcodeOf w = opcodeOf op.matchWord := by
  rw [← h, mask_eq]
  unfold opcodeOf
  apply BitVec.eq_of_getLsbD_eq
  intro j hj
  have := operandBits_le op
  have h1 : ¬ 27 + j < operandBits op := by omega
  have h2 : 27 + j < 32 := by omega
  have h3 : 27 + j - operandBits op < 32 := by omega
  simp only [BitVec.getLsbD_extractLsb', BitVec.getLsbD_and, BitVec.getLsbD_shiftLeft, BitVec.getLsbD_allOnes, hj, h1, h2, h3,
    decide_true, Bool.true_and, Bool.and_true, decide_false, Bool.not_false]

/-- The word of a command is selected by its row: its opcode names the row, and `word AND mask = match`. -/
def RowMatch.Statement (i : Instr) : Prop :=
  Op.ofOpcode (opcodeOf (encode i)) = some i.op ∧ encode i &&& i.op.maskWord = i.op.matchWord

/-- A row's word with operand bits below the mask matches the row. -/
theorem statement_of_low {i : Instr} (h : ∀ j, operandBits i.op ≤ j → i.operandWord.getLsbD j = false) :
    RowMatch.Statement i := by
  have hz : i.operandWord &&& i.op.maskWord = 0 := by
    rw [mask_eq]
    apply BitVec.eq_of_getLsbD_eq
    intro j hj
    by_cases hk : j < operandBits i.op
    · simp [hk]
    · simp [h j (by omega)]
  have hm : encode i &&& i.op.maskWord = i.op.matchWord := by
    unfold encode
    rw [BitVec.and_comm, BitVec.and_or_distrib_left, BitVec.and_comm _ i.op.matchWord, match_and_mask,
      BitVec.and_comm _ i.operandWord, hz]
    simp
  exact ⟨by rw [opcodeOf_of_mask hm, opcodeOf_match], hm⟩

namespace RowMatch

theorem nop : Statement .nop := statement_of_low fun j _ => by simp [Instr.operandWord]

theorem clr (mask : BitVec 6) : Statement (.clr mask) :=
  statement_of_low fun j (hj : 6 ≤ j) => by simp [Instr.operandWord, BitVec.getLsbD_setWidth, BitVec.getLsbD_of_ge _ _ hj]

theorem count (sym : Sym) : Statement (.count sym) :=
  statement_of_low fun j (hj : 8 ≤ j) => by simp [Instr.operandWord, BitVec.getLsbD_setWidth, BitVec.getLsbD_of_ge _ _ hj]

theorem countn (sym : Sym) (n : BitVec 16) : Statement (.countn sym n) :=
  statement_of_low fun j (hj : 24 ≤ j) => by
    have h1 : sym.getLsbD j = false := BitVec.getLsbD_of_ge _ _ (by omega)
    have h2 : n.getLsbD (j - 8) = false := BitVec.getLsbD_of_ge _ _ (by omega)
    simp [Instr.operandWord, BitVec.getLsbD_setWidth, h1, h2]

theorem build : Statement .build := statement_of_low fun j _ => by simp [Instr.operandWord]

theorem derive : Statement .derive := statement_of_low fun j _ => by simp [Instr.operandWord]

theorem enc (sym : Sym) : Statement (.enc sym) :=
  statement_of_low fun j (hj : 8 ≤ j) => by simp [Instr.operandWord, BitVec.getLsbD_setWidth, BitVec.getLsbD_of_ge _ _ hj]

theorem wrbits (n : BitVec 5) (v : BitVec 16) : Statement (.wrbits n v) :=
  statement_of_low fun j (hj : 21 ≤ j) => by
    have h1 : v.getLsbD j = false := BitVec.getLsbD_of_ge _ _ (by omega)
    have h2 : n.getLsbD (j - 16) = false := BitVec.getLsbD_of_ge _ _ (by omega)
    simp [Instr.operandWord, BitVec.getLsbD_setWidth, h1, h2]

theorem decbit (b : Bool) : Statement (.decbit b) :=
  statement_of_low fun j (hj : 1 ≤ j) => by
    simp [Instr.operandWord, BitVec.getLsbD_setWidth, BitVec.getLsbD_of_ge _ _ hj]

theorem decend : Statement .decend := statement_of_low fun j _ => by simp [Instr.operandWord]

theorem decbuf : Statement .decbuf := statement_of_low fun j _ => by simp [Instr.operandWord]

theorem rdfreq (sym : Sym) : Statement (.rdfreq sym) :=
  statement_of_low fun j (hj : 8 ≤ j) => by simp [Instr.operandWord, BitVec.getLsbD_setWidth, BitVec.getLsbD_of_ge _ _ hj]

theorem rdnode (id : NodeId) : Statement (.rdnode id) :=
  statement_of_low fun j (hj : 9 ≤ j) => by simp [Instr.operandWord, BitVec.getLsbD_setWidth, BitVec.getLsbD_of_ge _ _ hj]

theorem rdcode (sym : Sym) (w : BitVec 3) : Statement (.rdcode sym w) :=
  statement_of_low fun j (hj : 11 ≤ j) => by
    have h1 : sym.getLsbD j = false := BitVec.getLsbD_of_ge _ _ (by omega)
    have h2 : w.getLsbD (j - 8) = false := BitVec.getLsbD_of_ge _ _ (by omega)
    simp [Instr.operandWord, BitVec.getLsbD_setWidth, h1, h2]

theorem rdbits (k : BitVec 11) : Statement (.rdbits k) :=
  statement_of_low fun j (hj : 11 ≤ j) => by simp [Instr.operandWord, BitVec.getLsbD_setWidth, BitVec.getLsbD_of_ge _ _ hj]

theorem rdsym (idx : BitVec 16) : Statement (.rdsym idx) :=
  statement_of_low fun j (hj : 16 ≤ j) => by simp [Instr.operandWord, BitVec.getLsbD_setWidth, BitVec.getLsbD_of_ge _ _ hj]

end RowMatch

end Sys2Proof.Laws
end

