-- ==== Sys2Proof/Laws/Step.lean ====
section
/-! SUPPORT. Everything a step can do, said once: an executed command, an illegal word, nothing, or one event of the outside
world; and everything each event can do. -/

namespace Sys2Proof.Machine

/-- The engine is due only with a command pending and reset not asserted. -/
theorem engineDue_pend {s : State} (h : engineDue s = true) : (∃ w, s.pend = some w) ∧ s.inReset = false := by
  simp only [engineDue, Bool.and_eq_true, State.busy, Option.isSome_iff_exists, Bool.not_eq_true'] at h
  exact h.1

/-- With a command pending, reset not asserted and no delay left the engine is due. -/
theorem engineDue_of_delay {s : State} {w : Word} (hp : s.pend = some w) (hr : s.inReset = false) (hd : s.delay = 0) :
    engineDue s = true := by
  simp [engineDue, State.busy, hp, hr, hd]

/-- With a command pending, reset not asserted and nothing more from the host the engine is due. -/
theorem engineDue_of_idle {s : State} {w : Word} (hp : s.pend = some w) (hr : s.inReset = false) (hq : s.hostQueue = []) :
    engineDue s = true := by
  simp [engineDue, State.busy, hp, hr, hq]

/-- What the engine's step answers. -/
theorem engineStep_cases {s t : State} (hd : engineDue s = true) (h : engineStep s = .next t) :
    (∃ w i, s.pend = some w ∧ decode w = .ok i ∧ exec i s = .next t) ∨
      (∃ w r, s.pend = some w ∧ decode w = .error r ∧ t = raiseError .illegalCmd s) := by
  obtain ⟨⟨w, hw⟩, -⟩ := engineDue_pend hd
  simp only [engineStep, fetchWord, hw] at h
  split at h
  · rename_i i hi; exact .inl ⟨w, i, hw, hi, h⟩
  · rename_i r hr; exact .inr ⟨w, r, hw, hr, by simpa [execIllegal] using h.symm⟩

/-- What a register read leaves: the word returned and, for an unspecified one, the draw. -/
theorem readReg_cases (r : Reg) (s : State) :
    (∃ v, s.regValue r = some v ∧ readReg r s = returnData v s) ∨ (s.regValue r = none ∧ readReg r s = returnDraw s) := by
  unfold readReg
  cases h : s.regValue r with
  | some v => exact .inl ⟨v, rfl, rfl⟩
  | none => exact .inr ⟨rfl, rfl⟩

/-- What a CMD write leaves: the word accepted, or OVR set. -/
theorem submit_cases (w : Word) (s : State) :
    (s.pend = none ∧ submit w s = { s with pend := some w, delay := Config.engineLatency s.draws, draws := s.draws + 1 }) ∨
      ((∃ v, s.pend = some v) ∧ submit w s = { s with ovr := true }) := by
  unfold submit
  cases h : s.pend with
  | none => exact .inl ⟨rfl, rfl⟩
  | some v => exact .inr ⟨⟨v, rfl⟩, rfl⟩

/-- What a register write leaves. -/
theorem writeReg_cases (r : Reg) (v : Word) (s : State) :
    (r = .cmd ∧ writeReg r v s = submit v s) ∨ (r = .status ∧ writeReg r v s = s.clearStatus v) ∨
      (r = .ie ∧ writeReg r v s = s.setEnables v) ∨ (r ≠ .cmd ∧ r ≠ .status ∧ r ≠ .ie ∧ writeReg r v s = s) := by
  cases r <;> simp [writeReg]

/-- What an event of the outside world answers when it answers a next state. -/
theorem perform_cases {e : HostEvent} {s t : State} (h : perform e s = .next t) :
    (∃ addr width r, e = .read addr width ∧ targetOf s.params addr width = .reg r ∧
        t = if s.inReset then returnDraw s else readReg r s) ∨
      (∃ addr width data r, e = .write addr width data ∧ targetOf s.params addr width = .reg r ∧
        t = if s.inReset then s else writeReg r data s) ∨
      (e = .assertReset ∧ t = assertReset s) ∨ (e = .releaseReset ∧ t = releaseReset s) := by
  cases e with
  | read addr width =>
    simp only [perform, hostRead] at h
    split at h
    · cases h
    · cases h
    · rename_i r hr; exact .inl ⟨addr, width, r, rfl, hr, by simpa using h.symm⟩
  | write addr width data =>
    simp only [perform, hostWrite] at h
    split at h
    · cases h
    · cases h
    · rename_i r hr; exact .inr (.inl ⟨addr, width, data, r, rfl, hr, by simpa using h.symm⟩)
  | assertReset => exact .inr (.inr (.inl ⟨rfl, by simpa [perform] using h.symm⟩))
  | releaseReset => exact .inr (.inr (.inr ⟨rfl, by simpa [perform] using h.symm⟩))

/-- Everything a step can do when it answers a next state. -/
theorem step_cases {s t : State} (h : step s = .next t) :
    (engineDue s = true ∧ ∃ w i, s.pend = some w ∧ decode w = .ok i ∧ exec i s = .next t) ∨
      (engineDue s = true ∧ ∃ w r, s.pend = some w ∧ decode w = .error r ∧ t = raiseError .illegalCmd s) ∨
      (engineDue s = false ∧ s.hostQueue = [] ∧ t = s) ∨
      (engineDue s = false ∧ ∃ e rest, s.hostQueue = e :: rest ∧ perform e (takeEvent rest s) = .next t) := by
  unfold step at h
  split at h
  · rename_i hd
    rcases engineStep_cases hd h with h | h
    · exact .inl ⟨hd, h⟩
    · exact .inr (.inl ⟨hd, h⟩)
  · rename_i hd
    have hd : engineDue s = false := by simpa using hd
    unfold hostStep at h
    split at h
    · rename_i hq; exact .inr (.inr (.inl ⟨hd, hq, by simpa using h.symm⟩))
    · rename_i e rest hq; exact .inr (.inr (.inr ⟨hd, e, rest, hq, h⟩))

/-- The command word `withFetchWord` places is executed by the very next step. -/
theorem engineDue_withFetchWord (s : State) (nbits w : Nat) : engineDue (s.withFetchWord nbits w) = true := rfl

end Sys2Proof.Machine
end

