-- ==== Sys2Proof/Laws/Tree.lean ====
section
/-! SUPPORT. The tree builder's parts: what `minKey` extracts, and how long the arena gets. -/

namespace Sys2Proof.Machine

/-- `keyBefore` is the lexicographic order of (frequency, id) (42_tree_builder.md R97). -/
theorem keyBefore_iff (arena : List Node) (x y : Nat) :
    keyBefore arena x y = true ↔
      arenaFreq arena x < arenaFreq arena y ∨ (arenaFreq arena x = arenaFreq arena y ∧ x < y) := by
  simp [keyBefore]

/-- The order is total on different ids (R97: "this is a strict total order"). -/
theorem keyBefore_total (arena : List Node) {x y : Nat} (h : x ≠ y) (hn : keyBefore arena x y = false) :
    keyBefore arena y x = true := by
  have hn' : ¬(keyBefore arena x y = true) := by simp [hn]
  rw [keyBefore_iff] at hn' ⊢
  simp only [BitVec.lt_def, ← BitVec.toNat_inj] at *
  omega

theorem keyBefore_trans (arena : List Node) {x y z : Nat} (h1 : keyBefore arena x y = true)
    (h2 : keyBefore arena y z = true) : keyBefore arena x z = true := by
  rw [keyBefore_iff] at *
  simp only [BitVec.lt_def, ← BitVec.toNat_inj] at *
  omega

theorem minKey_eq_none {arena : List Node} {h : List Nat} : minKey arena h = none ↔ h = [] := by
  cases h with
  | nil => simp [minKey]
  | cons x rest =>
    simp only [minKey, reduceCtorEq, iff_false]
    split
    · simp
    · split <;> simp

/-- `min_key` is an element of the set, and before every other one (00_scope.md R13). -/
theorem minKey_spec {arena : List Node} {h : List Nat} {a : Nat} (hm : minKey arena h = some a) :
    a ∈ h ∧ ∀ y ∈ h, y ≠ a → keyBefore arena a y = true := by
  induction h generalizing a with
  | nil => simp [minKey] at hm
  | cons x rest ih =>
    simp only [minKey] at hm
    split at hm
    · rename_i hn
      obtain rfl : x = a := by simpa using hm
      rw [minKey_eq_none] at hn
      subst hn
      simp
    · rename_i y hy
      obtain ⟨hmem, hmin⟩ := ih hy
      split at hm
      · rename_i hk
        obtain rfl : x = a := by simpa using hm
        refine ⟨by simp, fun z hz hne => ?_⟩
        rcases List.mem_cons.mp hz with rfl | hz
        · exact absurd rfl hne
        · by_cases hzy : z = y
          · exact hzy ▸ hk
          · exact keyBefore_trans arena hk (hmin z hz hzy)
      · rename_i hk
        obtain rfl : y = a := by simpa using hm
        refine ⟨List.mem_cons_of_mem _ hmem, fun z hz hne => ?_⟩
        rcases List.mem_cons.mp hz with rfl | hz
        · exact keyBefore_total arena hne (by simpa using hk)
        · exact hmin z hz hne

/-- Two elements or more: both extractions succeed, and give two different elements. -/
theorem minKey_two {arena : List Node} {h : List Nat} (hnd : h.Nodup) (hl : 2 ≤ h.length) :
    ∃ a b, minKey arena h = some a ∧ minKey arena (h.erase a) = some b ∧ a ∈ h ∧ b ∈ h ∧ a ≠ b := by
  cases ha : minKey arena h with
  | none => rw [minKey_eq_none] at ha; subst ha; simp at hl
  | some a =>
    obtain ⟨hma, -⟩ := minKey_spec ha
    cases hb : minKey arena (h.erase a) with
    | none =>
      rw [minKey_eq_none] at hb
      have := List.length_erase_of_mem hma
      rw [hb] at this
      simp at this
      omega
    | some b =>
      obtain ⟨hmb, -⟩ := minKey_spec hb
      rw [hnd.mem_erase_iff] at hmb
      exact ⟨a, b, rfl, hb, hma, hmb.2, fun e => hmb.1 e.symm⟩

/-- The two extractions lower the set by two. -/
theorem length_erase_erase {h : List Nat} {a b : Nat} (hnd : h.Nodup) (ha : a ∈ h) (hb : b ∈ h) (hab : a ≠ b) :
    ((h.erase a).erase b).length = h.length - 2 := by
  have hb' : b ∈ h.erase a := (hnd.mem_erase_iff).mpr ⟨fun e => hab e.symm, hb⟩
  rw [List.length_erase_of_mem hb', List.length_erase_of_mem ha]
  omega

/-- A set of one element (or none) is left as it is: the loop ends (42_tree_builder.md R99). -/
theorem mergeLoop_short (fuel : Nat) (arena : List Node) {h : List Nat} (hl : h.length ≤ 1) :
    mergeLoop fuel arena h = arena := by
  cases fuel with
  | zero => rfl
  | succ fuel =>
    match h, hl with
    | [], _ => rfl
    | [x], _ => simp [mergeLoop, minKey]

/-- One merge of the loop (42_tree_builder.md R98). -/
theorem mergeLoop_merge (fuel : Nat) (arena : List Node) {h : List Nat} {a b : Nat} (ha : minKey arena h = some a)
    (hb : minKey arena (h.erase a) = some b) :
    mergeLoop (fuel + 1) arena h =
      mergeLoop fuel (arena ++ [mergeNode arena a b]) ((h.erase a).erase b ++ [arena.length]) := by
  simp [mergeLoop, ha, hb]

/-- The set after a merge: no repeats, every id below the new arena's length. -/
theorem mergeSet_next {arena : List Node} {h : List Nat} {a b : Nat} {n : Node} (hnd : h.Nodup)
    (hlt : ∀ x ∈ h, x < arena.length) :
    ((h.erase a).erase b ++ [arena.length]).Nodup ∧
      ∀ x ∈ (h.erase a).erase b ++ [arena.length], x < (arena ++ [n]).length := by
  have hsub : ∀ x ∈ (h.erase a).erase b, x < arena.length := fun x hx =>
    hlt x (List.mem_of_mem_erase (List.mem_of_mem_erase hx))
  refine ⟨?_, ?_⟩
  · rw [List.nodup_append]
    refine ⟨(hnd.erase a).erase b, by simp, ?_⟩
    intro x hx y hy
    have := hsub x hx
    simp only [List.mem_singleton] at hy
    omega
  · intro x hx
    simp only [List.mem_append, List.mem_singleton] at hx
    simp only [List.length_append, List.length_cons, List.length_nil]
    rcases hx with hx | rfl
    · have := hsub x hx; omega
    · omega

/-- The loop keeps the arena it starts from and adds exactly |H| - 1 nodes to it (42_tree_builder.md R99). -/
theorem mergeLoop_prefix (fuel : Nat) (arena : List Node) (h : List Nat) (hnd : h.Nodup)
    (hlt : ∀ x ∈ h, x < arena.length) (hf : h.length ≤ fuel + 1) :
    arena <+: mergeLoop fuel arena h ∧ (mergeLoop fuel arena h).length = arena.length + (h.length - 1) := by
  induction fuel generalizing arena h with
  | zero => simp [mergeLoop]; omega
  | succ fuel ih =>
    by_cases hl : h.length ≤ 1
    · rw [mergeLoop_short _ _ hl]
      exact ⟨List.prefix_rfl, by omega⟩
    · obtain ⟨a, b, ha, hb, hma, hmb, hab⟩ := minKey_two (arena := arena) hnd (by omega : 2 ≤ h.length)
      rw [mergeLoop_merge fuel arena ha hb]
      obtain ⟨hnd', hlt'⟩ := mergeSet_next (a := a) (b := b) (n := mergeNode arena a b) hnd hlt
      have hlen := length_erase_erase hnd hma hmb hab
      obtain ⟨hp, hn⟩ := ih _ _ hnd' hlt' (by simp [hlen]; omega)
      refine ⟨(List.prefix_append _ _).trans hp, ?_⟩
      rw [hn]
      simp [hlen]
      omega

/-- At most 256 leaves. -/
theorem leaves_length_le (s : State) : (leaves s).length ≤ Config.nsym := by
  unfold leaves
  exact (List.length_filterMap_le _ _).trans (by simp)

/-- BUILD over n leaves makes an arena of 2n-1 nodes (42_tree_builder.md R99). -/
theorem buildArena_length (s : State) : (buildArena s).length = 2 * (leaves s).length - 1 := by
  unfold buildArena
  obtain ⟨-, h⟩ := mergeLoop_prefix (leaves s).length (leaves s) (List.range (leaves s).length) List.nodup_range
    (by simp) (by simp)
  rw [h]
  simp
  omega

/-- The leaves stand first in the arena (42_tree_builder.md R96). -/
theorem leaves_prefix_buildArena (s : State) : leaves s <+: buildArena s :=
  (mergeLoop_prefix (leaves s).length (leaves s) (List.range (leaves s).length) List.nodup_range (by simp) (by simp)).1

/-- What NODE holds after the commit: the arena below its length, the old nodes above. -/
theorem nodeRead_commitTree (s : State) (i : Nat) :
    (commitTree s).node.read nodeDefault i =
      if i < (buildArena s).length then (buildArena s).getD i nodeDefault else s.node.read nodeDefault i := by
  rw [commitTree_node, Memory.read_writeList]
  simp

end Sys2Proof.Machine
end

