-- ==== Sys2Proof/Tests/Slice0.lean ====
section
/-! SUPPORT. Own tests: the smoke test of the well-formedness check, every constructor's word, one or two steps a command with the
expected values of 95_test_vectors.md (the vector is named in each comment), and a witness for the hypotheses of every
obligation that has any. -/

namespace Sys2Proof.Tests

open Sys2Proof.Machine

/-! ## Well-formedness: the three checks of 30_encoding.md R76, each refusing an ill-formed term -/

theorem test_wf_countn_zero : (Instr.countn 0x61 0).wf = false := by decide
theorem test_wf_wrbits_zero : (Instr.wrbits 0 5).wf = false := by decide
theorem test_wf_wrbits_seventeen : (Instr.wrbits 17 5).wf = false := by decide
theorem test_wf_edges : (Instr.countn 0 1).wf = true ∧ (Instr.countn 0 65535).wf = true ∧ (Instr.wrbits 1 0).wf = true ∧
    (Instr.wrbits 16 0).wf = true := by decide

/-! ## Every constructor's word, written out as opcode and fields from 30_encoding.md R71, R73 -/

theorem test_decode_nop : decode 0b00000000000000000000000000000000 = .ok .nop := by decide
theorem test_decode_clr : decode 0b00001000000000000000000000111011 = .ok (.clr 0x3B) := by decide
theorem test_decode_count : decode 0b00010000000000000000000001100001 = .ok (.count 0x61) := by decide
theorem test_decode_countn : decode 0b00011000000000000000010001100001 = .ok (.countn 0x61 4) := by decide
theorem test_decode_build : decode 0b00100000000000000000000000000000 = .ok .build := by decide
theorem test_decode_derive : decode 0b00101000000000000000000000000000 = .ok .derive := by decide
theorem test_decode_enc : decode 0b00110000000000000000000001100001 = .ok (.enc 0x61) := by decide
theorem test_decode_wrbits : decode 0b00111000000000110000000000000110 = .ok (.wrbits 3 0b110) := by decide
theorem test_decode_decbit : decode 0b01000000000000000000000000000001 = .ok (.decbit true) := by decide
theorem test_decode_decend : decode 0b01001000000000000000000000000000 = .ok .decend := by decide
theorem test_decode_decbuf : decode 0b01010000000000000000000000000000 = .ok .decbuf := by decide
theorem test_decode_rdfreq : decode 0b10000000000000000000000001100001 = .ok (.rdfreq 0x61) := by decide
theorem test_decode_rdnode : decode 0b10001000000000000000000100000010 = .ok (.rdnode 258) := by decide
theorem test_decode_rdcode : decode 0b10010000000000000000010101100001 = .ok (.rdcode 0x61 5) := by decide
theorem test_decode_rdbits : decode 0b10011000000000000000011111111111 = .ok (.rdbits 2047) := by decide
theorem test_decode_rdsym : decode 0b10100000000000001000000000000001 = .ok (.rdsym 32769) := by decide

/-- V-ILL-1, V-ILL-3: reserved opcodes. -/
theorem test_decode_reserved : decode 0x58000000 = .error .reservedOpcode ∧ decode 0xF8000000 = .error .reservedOpcode := by
  decide

/-- V-ILL-5, V-ILL-12, V-ILL-16: must-be-zero bits. -/
theorem test_decode_must_be_zero : decode 0x08000040 = .error .nonzeroMustBeZero ∧
    decode 0x88000200 = .error .nonzeroMustBeZero ∧ decode 0x10000100 = .error .nonzeroMustBeZero := by decide

/-- V-ILL-6, V-ILL-8: illegal field values. -/
theorem test_decode_illegal_field : decode 0x18000061 = .error .illegalField ∧ decode 0x38110000 = .error .illegalField := by
  decide

/-! ## Small states -/

/-- An active-low reset, synchronous, held for two units. -/
def someReset : ResetPolarity := { activeHigh := false, synchronous := true, duration := 2 }

/-- BITCAP = SYMCAP = 65536, the window at 0x100. -/
def pBig : Params := { bitcapExp := 11, symcapExp := 16, baseBlock := 4, resetPolarity := someReset }

/-- BITCAP = 32, SYMCAP = 1. -/
def pSmall : Params := { bitcapExp := 0, symcapExp := 0, baseBlock := 4, resetPolarity := someReset }

def s0 : State := State.resetWith pBig

/-- The table and tree of "ab" (V-BLD-3), no codes derived. -/
def abTree (p : Params) : State :=
  { State.resetWith p with
    freq := [(0x61, 1), (0x62, 1)], total := 2, ndist := 2
    treeValid := true, treeN := 2, root := 2, cursor := 2
    node := [(0, .leaf 0x61 1), (1, .leaf 0x62 1), (2, .internal 2 0 1)] }

/-- The same with its codes (V-BLD-3). -/
def abCodes (p : Params) : State :=
  { abTree p with
    codesValid := true
    code := [(0x61, { valid := true, len := 1, bits := 0 }), (0x62, { valid := true, len := 1, bits := 1 })] }

/-- The same with the bits of "ab" (V-BLD-3). -/
def abBits (p : Params) : State := { abCodes p with bitlen := 2, bitbuf := [(1, true)] }

/-- The tree of "x" (V-ENC-2), no codes derived. -/
def xTree (p : Params) : State :=
  { State.resetWith p with
    freq := [(0x78, 1)], total := 1, ndist := 1
    treeValid := true, treeN := 1, root := 0, cursor := 0, node := [(0, .leaf 0x78 1)] }

/-- The tree of "abracadabra" (V-BLD-9) with its codes (V-ENC-3), the cursor at node 7. -/
def abraAt7 : State :=
  { State.resetWith pBig with
    freq := [(0x61, 5), (0x62, 2), (0x63, 1), (0x64, 1), (0x72, 2)], total := 11, ndist := 5
    treeValid := true, treeN := 5, root := 8, cursor := 7
    node := [(0, .leaf 0x61 5), (1, .leaf 0x62 2), (2, .leaf 0x63 1), (3, .leaf 0x64 1), (4, .leaf 0x72 2),
      (5, .internal 2 2 3), (6, .internal 4 1 4), (7, .internal 6 5 6), (8, .internal 11 0 7)]
    codesValid := true
    code := [(0x61, { valid := true, len := 1, bits := 0 }), (0x62, { valid := true, len := 3, bits := 3 }),
      (0x63, { valid := true, len := 3, bits := 1 }), (0x64, { valid := true, len := 3, bits := 5 }),
      (0x72, { valid := true, len := 3, bits := 7 })] }

/-- The state a command leaves (the state before, where it leaves none). -/
def after (i : Instr) (s : State) : State :=
  match exec i s with
  | .next t => t
  | _ => s

/-- The state a step leaves (the state before, where it leaves none). -/
def stepped (s : State) : State :=
  match Sys2Proof.Machine.step s with
  | .next t => t
  | _ => s

/-! ## One step a command -/

/-- V-CTL-1. -/
theorem test_nop : (after .nop s0).statusWord = 0x00000002 := by decide
/-- V-CTL-4 (from a state whose ERR is clear). -/
theorem test_clr_codes : (after (.clr 0x04) abraAt7).statusWord = 0x00000052 ∧ (after (.clr 0x04) abraAt7).cursor = 7 := by decide
/-- V-CTL-5. -/
theorem test_clr_tree : (after (.clr 0x02) abraAt7).treeValid = false ∧ (after (.clr 0x22) abraAt7).cursor = 0 ∧
    (after (.clr 0x02) abraAt7).freqAt 0x61 = 5 := by decide
/-- V-FRQ-1, first and last COUNT. -/
theorem test_count : (after (.count 0x61) s0).ndist = 1 ∧ (after (.count 0x61) (abTree pBig)).freqAt 0x61 = 2 ∧
    (after (.count 0x61) (abTree pBig)).ndist = 2 := by decide
/-- V-FRQ-5. -/
theorem test_count_overflow :
    (after (.count 0x62) { s0 with freq := [(0x61, 0xFFFFFFFF)], total := 0xFFFFFFFF, ndist := 1 }).statusWord = 0x00000706 := by
  decide
/-- V-FRQ-2. -/
theorem test_countn : (after (.countn 0x61 4) s0).freqAt 0x61 = 4 ∧ (after (.countn 0x61 4) s0).total = 4 := by decide
/-- V-FRQ-8. -/
theorem test_countn_bound :
    (after (.countn 0x62 16) { s0 with freq := [(0x61, 0xFFFFFFF0)], total := 0xFFFFFFF0, ndist := 1 }).lastErr = .overflow ∧
    (after (.countn 0x62 15) { s0 with freq := [(0x61, 0xFFFFFFF0)], total := 0xFFFFFFF0, ndist := 1 }).total = 0xFFFFFFFF := by
  decide
/-- V-BLD-6: the leaf 'a' and internal node 3 tie at 3, and the leaf goes left. -/
theorem test_build :
    (after .build { s0 with freq := [(0x61, 3), (0x62, 2), (0x63, 1)], total := 6, ndist := 3 }).node =
      [(0, .leaf 0x61 3), (1, .leaf 0x62 2), (2, .leaf 0x63 1), (3, .internal 3 2 1), (4, .internal 6 0 3)] := by
  decide +kernel
/-- V-BLD-1. -/
theorem test_build_empty : (after .build s0).statusWord = 0x00000206 := by decide
/-- V-BLD-9, V-ENC-3: from the tree of "abracadabra" to its codes. -/
theorem test_derive : (after .derive { abraAt7 with code := [], codesValid := false }).code = abraAt7.code := by decide +kernel
/-- V-ENC-2. -/
theorem test_derive_single : (after .derive (xTree pBig)).codeAt 0x78 = { valid := true, len := 1, bits := 0 } := by decide
/-- V-ENC-9. -/
theorem test_enc : (after (.enc 0x63) abraAt7).heldBits = [true, false, false] ∧ (after (.enc 0x63) abraAt7).result0 = 3 := by
  decide
/-- V-ENC-8. -/
theorem test_enc_unknown : (after (.enc 0x7A) abraAt7).lastErr = .unknownSymbol := by decide
/-- V-ENC-11. -/
theorem test_wrbits : (after (.wrbits 3 0b110) s0).heldBits = [false, true, true] := by decide
/-- V-ENC-14: BITLEN 31 of 32; the exact fill is accepted, one more is BUF_FULL. -/
theorem test_wrbits_full : (after (.wrbits 1 1) { State.resetWith pSmall with bitlen := 31 }).bitlen = 32 ∧
    (after (.wrbits 2 1) { State.resetWith pSmall with bitlen := 31 }).lastErr = .bufFull := by decide
/-- V-DEC-2. -/
theorem test_decbit : (after (.decbit true) (abTree pBig)).result0 = 0x162 ∧ (after (.decbit true) (abTree pBig)).result1 = 2 ∧
    (after (.decbit true) (abTree pBig)).heldSyms = [0x62] := by decide
/-- V-DEC-8, V-DEC-13. -/
theorem test_decbit_errors : (after (.decbit true) (xTree pBig)).lastErr = .malformed ∧
    (after (.decbit true) { abTree pSmall with symlen := 1 }).lastErr = .bufFull := by decide
/-- V-DEC-4, V-DEC-11. -/
theorem test_decend : (after .decend abraAt7).statusWord = 0x00000576 ∧
    (after .decend { abraAt7 with cursor := 8 }).lastErr = .ok := by decide
/-- V-DEC-9: "010" decodes to "aba". -/
theorem test_decbuf : (after .decbuf { abBits pBig with bitlen := 3 }).heldSyms = [0x61, 0x62, 0x61] ∧
    (after .decbuf { abBits pBig with bitlen := 3 }).result0 = 3 := by decide
/-- V-DEC-6, V-DEC-14. -/
theorem test_decbuf_errors :
    (after .decbuf { xTree pBig with bitlen := 3, bitbuf := [(2, true)] }).lastErr = .malformed ∧
    (after .decbuf (abBits pSmall)).lastErr = .bufFull ∧ (after .decbuf (abBits pSmall)).symlen = 0 := by decide
/-- V-RD-1. -/
theorem test_rdfreq : (after (.rdfreq 0x61) abraAt7).result0 = 5 ∧ (after (.rdfreq 0x7A) abraAt7).result0 = 0 := by decide
/-- V-RD-5. -/
theorem test_rdnode : (after (.rdnode 7) abraAt7).result0 = 6 ∧ (after (.rdnode 7) abraAt7).result1 = 0x00060005 ∧
    (after (.rdnode 2) abraAt7).result1 = 0x80000063 := by decide
/-- V-RD-3. -/
theorem test_rdnode_range : (after (.rdnode 3) (abTree pBig)).lastErr = .range := by decide
/-- V-ENC-3, V-ENC-5. -/
theorem test_rdcode : (after (.rdcode 0x64 0) abraAt7).result0 = 0x80000003 ∧ (after (.rdcode 0x64 0) abraAt7).result1 = 5 ∧
    (after (.rdcode 0x7A 0) abraAt7).result0 = 0 := by decide
/-- V-BLD-3, V-RD-9: "01" reads 2; stale bits read 0. -/
theorem test_rdbits : (after (.rdbits 0) (abBits pBig)).result0 = 2 ∧ (after (.rdbits 0) (abBits pBig)).result1 = 2 ∧
    (after (.rdbits 0) { abBits pBig with bitlen := 0 }).result0 = 0 := by decide
/-- V-RD-10, V-ENC-14. -/
theorem test_rdbits_range : (after (.rdbits 2047) s0).lastErr = .ok ∧
    (after (.rdbits 1) (State.resetWith pSmall)).lastErr = .range := by decide
/-- V-RD-11. -/
theorem test_rdsym : (after (.rdsym 1) { s0 with symlen := 2, symbuf := [(0, 0x61), (1, 0x62)] }).result0 = 0x62 ∧
    (after (.rdsym 2) { s0 with symlen := 2, symbuf := [(0, 0x61), (1, 0x62)] }).lastErr = .range := by decide

/-! ## The step, the window, the interrupt and reset -/

/-- V-ILL-1: the engine's step with an illegal word. -/
theorem test_step_illegal : (stepped { s0 with pend := some 0x58000000 }).statusWord = 0x00000106 := by decide
/-- V-ST-1: NOP with DONE_IE set. -/
theorem test_step_irq : (stepped { s0 with pend := some 0, doneIE := true }).irq = true := by decide
/-- V-ST-5: the second CMD write, dropped. -/
theorem test_cmd_dropped :
    (stepped { s0 with pend := some 0x10000061, delay := 2, hostQueue := [.write 0x108 .w32 0x10000062] }).ovr = true ∧
    (stepped { s0 with pend := some 0x10000061, delay := 2, hostQueue := [.write 0x108 .w32 0x10000062] }).pend =
      some 0x10000061 := by decide
/-- P5: CMD written while idle. -/
theorem test_cmd_accepted : (stepped { s0 with hostQueue := [.write 0x108 .w32 0x20000000] }).pend = some 0x20000000 := by decide
/-- V-ST-7. -/
theorem test_ie : (stepped { s0 with hostQueue := [.write 0x110 .w32 0xFFFFFFFF] }).ieWord = 0x00000006 := by decide
/-- V-ST-8. -/
theorem test_status_clear :
    ({ abCodes pBig with done := true, err := true, lastErr := .overflow }).statusWord = 0x00000736 ∧
    (stepped { abCodes pBig with
      done := true, err := true, lastErr := .overflow, hostQueue := [.write 0x10C .w32 0xFFFFFFFF] }).statusWord =
      0x00000730 := by decide
/-- V-ST-9. -/
theorem test_read_only_write : (stepped { abTree pBig with hostQueue := [.write 0x118 .w32 0x12345678] }).total = 2 := by decide
/-- V-ST-10. -/
theorem test_bus_error :
    (match Sys2Proof.Machine.step { s0 with hostQueue := [.read 0x10C .w16] } with
      | .fault .busError => true
      | _ => false) = true ∧
    (match Sys2Proof.Machine.step { s0 with hostQueue := [.write 0x10A .w32 0] } with
      | .fault .busError => true
      | _ => false) = true := by decide
/-- V-RST-1, V-RST-2. -/
theorem test_id_param : (stepped { s0 with hostQueue := [.read 0x100 .w32] }).hostData = [0x48554631] ∧
    paramWord pBig = 0x01101008 ∧ paramWord pSmall = 0x01000508 := by decide
/-- V-RST-1: CURSOR reads through offset 0x20. -/
theorem test_read_cursor : (stepped { abraAt7 with hostQueue := [.read 0x120 .w32] }).hostData = [7] := by decide
/-- V-RST-3. -/
theorem test_reset_discards :
    (stepped { abCodes pBig with pend := some 0x20000000, delay := 1, hostQueue := [.assertReset] }).pend = none ∧
    (stepped { abCodes pBig with pend := some 0x20000000, delay := 1, hostQueue := [.assertReset] }).treeValid = false := by
  decide
/-- The interface to a placed word: BUILD right after reset raises EMPTY_INPUT (V-BLD-1), and the decoder reads it. -/
theorem test_with_fetch_word : (stepped (State.reset.withFetchWord 32 0x20000000)).lastErr = .emptyInput ∧
    decodeTableWord 32 0x20000000 = some .build := by decide

/-! ## Pseudo-instructions and lines -/

/-- 30_encoding.md R81, R80: `NEWSESSION`; `COUNT ';'; x`; `WRBITS 3, 0b110`. -/
theorem test_assemble :
    assembleLine ['N', 'E', 'W', 'S', 'E', 'S', 'S', 'I', 'O', 'N'] = some [.clr 0x3B] ∧
    assembleLine ['C', 'O', 'U', 'N', 'T', ' ', Char.ofNat 39, ';', Char.ofNat 39, ';', ' ', 'x'] = some [.count 0x3B] ∧
    assembleLine ['W', 'R', 'B', 'I', 'T', 'S', ' ', '3', ',', ' ', '0', 'b', '1', '1', '0'] = some [.wrbits 3 6] := by
  decide +kernel
/-- 30_encoding.md R81: chunks of 16, the last may be shorter. -/
theorem test_wrbitss : pseudoWrbitss (List.replicate 17 true) = [.wrbits 16 0xFFFF, .wrbits 1 1] := by decide +kernel

/-! ## Witnesses: the hypotheses of every obligation can be met -/

theorem wf_of_strict {α : Type} {d : α} {m : Memory α} (h1 : m.Pairwise (fun x y => x.1 < y.1)) (h2 : ∀ x ∈ m, x.2 ≠ d) :
    Memory.wf d m := ⟨h1, h2⟩

theorem above_of_bounded {c : Code} (h : ∀ j < 256, c.len.toNat ≤ j → c.bits.getLsbD j = false) :
    ∀ j, c.len.toNat ≤ j → c.bits.getLsbD j = false := by
  intro j hj
  by_cases hb : j < 256
  · exact h j hb hj
  · exact BitVec.getLsbD_of_ge _ _ (by omega)

/-- The codes of a table whose listed symbols are few: every symbol with a valid entry is one of them. -/
theorem abCode_cases (x : Sym) (h : ((abCodes pBig).codeAt x).valid = true) : x = 0x61 ∨ x = 0x62 := by
  revert x; decide +kernel

theorem abCodes_freqInv : FreqInv (abCodes pBig) :=
  ⟨by decide, by decide, by decide +kernel, by decide +kernel⟩

theorem abCodes_treeInv : TreeInv (abCodes pBig) where
  none := fun h => absurd h (by decide)
  held _ := ⟨by decide, by decide, by decide +kernel, by decide +kernel, by decide +kernel, by decide +kernel⟩
  cursor _ := .inl rfl

theorem abCodes_codeInv : CodeInv (abCodes pBig) where
  tree := by decide
  exactly _ := by unfold HasLeaf; decide +kernel
  path _ := by unfold IsCodeOf; decide +kernel
  length _ := by decide +kernel
  above _ := by
    intro x hx
    rcases abCode_cases x hx with rfl | rfl <;> exact above_of_bounded (by decide +kernel)

theorem abCodes_storeInv : StoreInv (abCodes pBig) where
  bitlen := by decide
  symlen := by decide
  node := by decide
  code := by decide
  bitbuf := by decide
  symbuf := by decide

theorem abCodes_inv : Inv (abCodes pBig) :=
  ⟨abCodes_freqInv, abCodes_treeInv, abCodes_codeInv, abCodes_storeInv, by intro h; exact absurd h (by decide)⟩

theorem witness_DecodeInvertsEncode : (Instr.wrbits 16 0xFFFF).wf = true ∧ (Instr.countn 0xFF 0xFFFF).wf = true := by decide

theorem witness_EncodeInvertsDecode : decode 0x18FFFFFF = .ok (.countn 0xFF 0xFFFF) := by decide

theorem witness_DecodingIsTotalAndUnambiguous :
    (0x0800003F#32 &&& Op.clr.maskWord = Op.clr.matchWord) ∧ (∀ op : Op, 0xF8000000#32 &&& op.maskWord ≠ op.matchWord) ∧
    engineDue { s0 with pend := some 0 } = true ∧ decode 0 = .ok .nop ∧ decode 0xF8000000 = .error .reservedOpcode := by
  refine ⟨by decide, fun op => by cases op <;> decide, by decide, by decide, by decide⟩

theorem witness_IllegalWordsOnlyReport :
    (∀ w ∈ [0x58000000#32, 0x78000000#32, 0xA8000000#32, 0xF8000000#32, 0x18000061#32, 0x38000000#32, 0x38110000#32], IllegalWord w) ∧
    IllegalWord 0x00000001 ∧ ¬IllegalWord 0xA000FFFF ∧ engineDue { s0 with pend := some 0x58000000 } = true := by
  refine ⟨?_, .inr (.inr (.inl ⟨.nop, by decide, by decide⟩)), ?_, by decide⟩
  · intro w hw
    simp only [List.mem_cons, List.not_mem_nil, or_false] at hw
    rcases hw with rfl | rfl | rfl | rfl | rfl | rfl | rfl
    · exact .inl (by decide)
    · exact .inl (by decide)
    · exact .inr (.inl (by decide))
    · exact .inr (.inl (by decide))
    · exact .inr (.inr (.inr (.inl (by decide))))
    · exact .inr (.inr (.inr (.inr (by decide))))
    · exact .inr (.inr (.inr (.inr (by decide))))
  · rintro (h | h | ⟨op, h1, h2⟩ | h | h)
    · exact absurd h (by decide)
    · exact absurd h (by decide)
    · cases op <;> first | exact absurd h1 (by decide) | exact absurd h2 (by decide)
    · exact absurd h (by decide)
    · exact absurd h (by decide)

theorem witness_StepRunsDecodedCommandOrEvent :
    (∃ s : State, s.pend = some 0 ∧ s.inReset = false ∧ s.delay = 0) ∧
    (∃ s : State, s.pend = some 0 ∧ s.inReset = false ∧ s.hostQueue = [] ∧ s.delay = 3) ∧ decode 0 = .ok .nop ∧
    (∃ s : State, s.pend = none ∧ s.hostQueue = []) ∧
    (∃ s : State, s.pend = some 0 ∧ s.delay ≠ 0 ∧ s.hostQueue = [.assertReset]) :=
  ⟨⟨{ s0 with pend := some 0 }, rfl, rfl, rfl⟩, ⟨{ s0 with pend := some 0, delay := 3 }, rfl, rfl, rfl, rfl⟩, by decide,
    ⟨s0, rfl, rfl⟩, ⟨{ s0 with pend := some 0, delay := 1, hostQueue := [.assertReset] }, rfl, by decide, rfl⟩⟩

/-- An idle block, and one with a command the engine has not reached, meeting the same next event. -/
def idleWith (e : HostEvent) : State := { s0 with hostQueue := [e] }
def busyWith (e : HostEvent) : State := { s0 with hostQueue := [e], pend := some 0, delay := 1 }

theorem idleWith_next (e : HostEvent) : NextEvent (idleWith e) e [] := ⟨rfl, rfl⟩
theorem busyWith_next (e : HostEvent) : NextEvent (busyWith e) e [] := ⟨rfl, rfl⟩

theorem witness_CmdWriteAcceptedOrDropped :
    NextEvent (idleWith (.write (pBig.base + 0x08) .w32 0)) (.write (pBig.base + 0x08) .w32 0) [] ∧
    NextEvent (busyWith (.write (pBig.base + 0x08) .w32 0)) (.write (pBig.base + 0x08) .w32 0) [] ∧
    (idleWith .assertReset).pend = none ∧ (busyWith .assertReset).pend = some 0 ∧ (busyWith .assertReset).inReset = false ∧
    (busyWith .assertReset).params = pBig :=
  ⟨idleWith_next _, busyWith_next _, rfl, rfl, rfl, rfl⟩

theorem witness_StatusRegister :
    NextEvent (busyWith (.read (pBig.base + 0x0C) .w32)) (.read (pBig.base + 0x0C) .w32) [] ∧
    NextEvent (busyWith (.write (pBig.base + 0x0C) .w32 0xE)) (.write (pBig.base + 0x0C) .w32 0xE) [] :=
  ⟨busyWith_next _, busyWith_next _⟩

theorem witness_InterruptEnableRegister :
    NextEvent (idleWith (.read (pBig.base + 0x10) .w32)) (.read (pBig.base + 0x10) .w32) [] ∧
    NextEvent (idleWith (.write (pBig.base + 0x10) .w32 6)) (.write (pBig.base + 0x10) .w32 6) [] :=
  ⟨idleWith_next _, idleWith_next _⟩

theorem witness_IdentificationRegisters :
    NextEvent (busyWith (.read pBig.base .w32)) (.read pBig.base .w32) [] ∧
    NextEvent (idleWith (.read (pBig.base + 0x04) .w32)) (.read (pBig.base + 0x04) .w32) [] ∧
    pBig.bitcap = 65536 ∧ pBig.symcap = 65536 :=
  ⟨busyWith_next _, idleWith_next _, by decide, by decide⟩

theorem witness_WindowReadsWhenIdle :
    (∀ off ∈ [0x08, 0x38, 0x3C],
      NextEvent (busyWith (.read (pBig.base + off) .w32)) (.read (pBig.base + off) .w32) [] ∧
      (busyWith (.read (pBig.base + off) .w32)).inReset = false) ∧
    ∀ off ∈ [0x14, 0x18, 0x1C, 0x20, 0x24, 0x28, 0x2C, 0x30, 0x34],
      NextEvent (idleWith (.read (pBig.base + off) .w32)) (.read (pBig.base + off) .w32) [] ∧
      (idleWith (.read (pBig.base + off) .w32)).pend = none :=
  ⟨fun _ _ => ⟨busyWith_next _, rfl⟩, fun _ _ => ⟨idleWith_next _, rfl⟩⟩

theorem witness_BusyReadsReturnFreeValues :
    ∀ off ∈ [0x14, 0x18, 0x1C, 0x20, 0x24, 0x28, 0x2C, 0x30, 0x34],
      NextEvent (busyWith (.read (pBig.base + off) .w32)) (.read (pBig.base + off) .w32) [] ∧
      (busyWith (.read (pBig.base + off) .w32)).pend = some 0 :=
  fun _ _ => ⟨busyWith_next _, rfl⟩

theorem witness_WritesToReadOnlyIgnored :
    ∀ off ∈ [0x00, 0x04, 0x14, 0x18, 0x1C, 0x20, 0x24, 0x28, 0x2C, 0x30, 0x34, 0x38, 0x3C],
      NextEvent (idleWith (.write (pBig.base + off) .w32 1)) (.write (pBig.base + off) .w32 1) [] :=
  fun _ _ => idleWith_next _

theorem witness_WindowAcceptsOnlyAlignedWords :
    NextEvent (idleWith (.read (pBig.base + 63) .w32)) (.read (pBig.base + 63) .w32) [] ∧ 63 % 4 ≠ 0 ∧
    NextEvent (idleWith (.write (pBig.base + 60) .w16 0)) (.write (pBig.base + 60) .w16 0) [] ∧
    NextEvent (idleWith (.read (pBig.base + 60) .w32)) (.read (pBig.base + 60) .w32) [] ∧ 60 % 4 = 0 ∧
    ∀ e, (idleWith e).inReset = false :=
  ⟨idleWith_next _, by decide, idleWith_next _, idleWith_next _, by decide, fun _ => rfl⟩

theorem witness_AccessOutsideWindowIsRefused :
    NextEvent (idleWith (.read 255 .w32)) (.read 255 .w32) [] ∧ 255 < pBig.base ∧
    NextEvent (idleWith (.write 320 .w32 0)) (.write 320 .w32 0) [] ∧ pBig.base + 64 ≤ 320 :=
  ⟨idleWith_next _, by decide, idleWith_next _, by decide⟩

/-- irq rises with the completion of a NOP (V-ST-1) and falls with a STATUS write (V-ST-2). -/
theorem witness_InterruptLevelChanges :
    ({ s0 with pend := some 0, doneIE := true } : State).irq = false ∧
    (stepped { s0 with pend := some 0, doneIE := true }).irq = true ∧
    ({ s0 with done := true, doneIE := true, hostQueue := [.write 0x10C .w32 2] } : State).irq = true ∧
    (stepped { s0 with done := true, doneIE := true, hostQueue := [.write 0x10C .w32 2] }).irq = false := by decide

theorem witness_ResetInput : NextEvent (busyWith .assertReset) .assertReset [] ∧ NextEvent (idleWith .releaseReset) .releaseReset [] :=
  ⟨busyWith_next _, idleWith_next _⟩

theorem witness_AccessDuringResetHasNoEffect :
    (assertReset (idleWith (.read (pBig.base + 60) .w32))).inReset = true ∧
    NextEvent (assertReset (idleWith (.read (pBig.base + 60) .w32))) (.read (pBig.base + 60) .w32) [] ∧
    NextEvent (assertReset (idleWith (.write (pBig.base + 8) .w32 0))) (.write (pBig.base + 8) .w32 0) [] ∧
    NextEvent (assertReset (idleWith (.write (pBig.base + 63) .w32 0))) (.write (pBig.base + 63) .w32 0) [] ∧
    NextEvent (assertReset (idleWith (.read (pBig.base + 60) .w8))) (.read (pBig.base + 60) .w8) [] :=
  ⟨rfl, ⟨rfl, rfl⟩, ⟨rfl, rfl⟩, ⟨rfl, rfl⟩, ⟨rfl, rfl⟩⟩

theorem witness_CountAddsOne : s0.total ≠ 0xFFFFFFFF ∧ ({ s0 with total := 0xFFFFFFFF } : State).total = 0xFFFFFFFF := by decide

theorem witness_CountnAddsN : (0xFFFF : BitVec 16) ≠ 0 ∧
    ({ s0 with total := 0xFFFF0000 } : State).total.toNat + (0xFFFF : BitVec 16).toNat ≤ 0xFFFFFFFF ∧
    ({ s0 with total := 0xFFFF0001 } : State).total.toNat + (0xFFFF : BitVec 16).toNat > 0xFFFFFFFF := by decide

/-- The clause that names n COUNT commands. -/
theorem witness_CountnAddsN_repeated : FreqInv (abCodes pBig) ∧ (3 : BitVec 16) ≠ 0 ∧
    (abCodes pBig).total.toNat + (3 : BitVec 16).toNat ≤ 0xFFFFFFFF := ⟨abCodes_freqInv, by decide, by decide⟩

theorem witness_CountingConservesFrequency : ([0x61, 0x62, 0x61] : List Sym).length ≤ 0xFFFFFFFF :=
  by decide

theorem witness_BuildPlacesLeavesAndRoot : abraAt7.ndist ≠ 0 ∧ freqEntries abraAt7 = 5 := ⟨by decide, by decide +kernel⟩

/-- BUILD on the table of "ab" answers a next state with an internal node. -/
theorem witness_BuildMergesTwoLeast : (abCodes pBig).ndist ≠ 0 ∧ exec .build (abCodes pBig) = .next (after .build (abCodes pBig)) ∧
    (after .build (abCodes pBig)).treeN.toNat ≤ 2 ∧ 2 < 2 * (after .build (abCodes pBig)).treeN.toNat - 1 :=
  ⟨by decide, rfl, by decide +kernel, by decide +kernel⟩

theorem witness_BuildFrequenciesAreSums :
    FreqInv (abCodes pBig) ∧ (abCodes pBig).ndist ≠ 0 ∧ exec .build (abCodes pBig) = .next (after .build (abCodes pBig)) :=
  ⟨abCodes_freqInv, by decide, rfl⟩

theorem witness_BuildIsOptimal :
    FreqInv (abCodes pBig) ∧ (abCodes pBig).ndist ≠ 0 ∧ exec .build (abCodes pBig) = .next (after .build (abCodes pBig)) ∧
    (PrefixTree.fork (.leaf 0x62) (.leaf 0x61)).syms.Nodup ∧
    ∀ x : Sym, x ∈ (PrefixTree.fork (.leaf 0x62) (.leaf 0x61)).syms ↔ (abCodes pBig).freqAt x ≠ 0 :=
  ⟨abCodes_freqInv, by decide, rfl, by decide, by decide +kernel⟩

theorem witness_MissingTableOrTreeIsReported : s0.ndist = 0 ∧ s0.treeValid = false := by decide

theorem witness_DeriveGivesPathCodes : TreeInv (abCodes pBig) ∧ (abCodes pBig).treeValid = true := ⟨abCodes_treeInv, rfl⟩

/-- The single-leaf clause's case: the table of "x" (V-ENC-2). -/
def xCodes : State := { xTree pBig with codesValid := true, code := [(0x78, { valid := true, len := 1, bits := 0 })] }

theorem xCode_cases (x : Sym) (h : (xCodes.codeAt x).valid = true) : x = 0x78 := by
  revert x; decide +kernel

theorem witness_CodesArePrefixFreeAndComplete_single : TreeInv xCodes ∧ CodeInv xCodes ∧ xCodes.codesValid = true ∧ xCodes.treeN = 1 := by
  refine ⟨⟨fun h => absurd h (by decide), fun _ => ⟨by decide, by decide, by decide +kernel, by decide +kernel, by decide +kernel,
    by decide +kernel⟩, fun _ => .inl rfl⟩, ⟨by decide, fun _ => by unfold HasLeaf; decide +kernel,
    fun _ => by unfold IsCodeOf; decide +kernel, fun _ => by decide +kernel, fun _ x hx => ?_⟩, rfl, rfl⟩
  obtain rfl := xCode_cases x hx
  exact above_of_bounded (by decide +kernel)

theorem witness_CodesArePrefixFreeAndComplete : TreeInv (abCodes pBig) ∧ CodeInv (abCodes pBig) ∧ (abCodes pBig).codesValid = true ∧
    ((abCodes pBig).codeAt 0x61).valid = true ∧ ((abCodes pBig).codeAt 0x62).valid = true ∧ 2 ≤ (abCodes pBig).treeN.toNat ∧
    Config.lmax ≤ (List.replicate 255 true).length :=
  ⟨abCodes_treeInv, abCodes_codeInv, rfl, by decide, by decide, by decide, Nat.le_of_eq List.length_replicate.symm⟩

theorem witness_EncAppendsCode :
    ((abCodes pSmall).codesValid = true ∧ ((abCodes pSmall).codeAt 0x61).valid = true ∧
      ({ abCodes pSmall with bitlen := 31 } : State).bitlen + ((abCodes pSmall).codeAt 0x61).len.toNat ≤ pSmall.bitcap) ∧
    (abTree pSmall).codesValid = false ∧ ((abCodes pSmall).codeAt 0x63).valid = false ∧
    ({ abCodes pSmall with bitlen := 32 } : State).bitlen + ((abCodes pSmall).codeAt 0x61).len.toNat > pSmall.bitcap := by decide

theorem witness_EncodingConcatenatesCodes : (abCodes pBig).codesValid = true ∧ AllCoded (abCodes pBig) [0x61, 0x62] ∧
    (encodeSyms (abCodes pBig) [0x61, 0x62]).length ≤ (abCodes pBig).params.bitcap := by
  refine ⟨rfl, ?_, by decide⟩
  unfold AllCoded; decide

theorem witness_WrbitsAppendsLiteralBits : (16 : BitVec 5) ≠ 0 ∧ (16 : BitVec 5).toNat ≤ 16 ∧
    ({ State.resetWith pSmall with bitlen := 16 } : State).bitlen + (16 : BitVec 5).toNat ≤ pSmall.bitcap ∧
    ({ State.resetWith pSmall with bitlen := 17 } : State).bitlen + (16 : BitVec 5).toNat > pSmall.bitcap ∧
    (17 : BitVec 5).toNat > 16 ∧ (0 : BitVec 5) = 0 := by decide

theorem witness_DecbitMovesOrEmits :
    ((xTree pBig).treeValid = true ∧ (xTree pBig).treeN = 1 ∧ (xTree pBig).symlen ≠ (xTree pBig).params.symcap) ∧
    (abraAt7.treeValid = true ∧ abraAt7.treeN ≠ 1 ∧ abraAt7.nodeAt abraAt7.cursor = .internal 6 5 6 ∧
      abraAt7.nodeAt 5 = .internal 2 2 3) ∧
    ((abTree pBig).nodeAt (abTree pBig).cursor = .internal 2 0 1 ∧ (abTree pBig).nodeAt 1 = .leaf 0x62 1 ∧
      (abTree pBig).symlen ≠ (abTree pBig).params.symcap) := by decide

theorem witness_DecbitErrorsConsumeNothing :
    (xTree pSmall).treeValid = true ∧ (xTree pSmall).treeN = 1 ∧
    ({ xTree pSmall with symlen := 1 } : State).symlen = (xTree pSmall).params.symcap ∧
    (abTree pSmall).treeN ≠ 1 ∧ (abTree pSmall).nodeAt (abTree pSmall).cursor = .internal 2 0 1 ∧
    (abTree pSmall).nodeAt 0 = .leaf 0x61 1 ∧
    ({ abTree pSmall with symlen := 1 } : State).symlen = (abTree pSmall).params.symcap := by decide

theorem witness_DecendChecksRoot : s0.treeValid = false ∧ (abraAt7.treeValid = true ∧ abraAt7.cursor ≠ abraAt7.root) ∧
    ((abTree pBig).treeValid = true ∧ (abTree pBig).cursor = (abTree pBig).root) := by decide

/-- V-DEC-9's "010" in the buffer, under the tree of "ab" with no code table derived. -/
def abHeld (p : Params) : State := { abTree p with bitlen := 3, bitbuf := [(1, true)] }

/-- What every held tree of the tests has to show; no code table is derived in it. -/
theorem inv_of_tree {s : State} (freq : FreqInv s) (held : HeldTree s) (cursor : CursorInTree s) (store : StoreInv s)
    (htree : s.treeValid = true) (hcodes : s.codesValid = false) (hreset : s.inReset = false) : Inv s where
  freq := freq
  tree := ⟨by simp [htree], fun _ => held, fun _ => cursor⟩
  code := ⟨by simp [hcodes], by simp [hcodes], by simp [hcodes], by simp [hcodes], by simp [hcodes]⟩
  store := store
  reset := by simp [ResetHeld, hreset]

theorem abHeld_inv (p : Params) (hp : p = pBig ∨ p = pSmall) : Inv (abHeld p) := by
  rcases hp with rfl | rfl <;> exact inv_of_tree ⟨by decide, by decide, by decide +kernel, by decide +kernel⟩
    ⟨by decide, by decide, by decide +kernel, by decide +kernel, by decide +kernel, by decide +kernel⟩ (.inl rfl)
    ⟨by decide, by decide, by decide, by decide, by decide, by decide⟩ rfl rfl rfl

theorem abHeld_spells (p : Params) (hp : p = pBig ∨ p = pSmall) :
    PathsSpell (abHeld p) [0x61, 0x62, 0x61] [false, true, false] := by
  rcases hp with rfl | rfl <;>
    exact ⟨[false], [true, false], rfl, by unfold IsCodeOf; decide, [true], [false], rfl, by unfold IsCodeOf; decide,
      [false], [], rfl, by unfold IsCodeOf; decide, rfl⟩

theorem abHeld_splits (p : Params) (hp : p = pBig ∨ p = pSmall) :
    SplitsInto (abHeld p) (abHeld p).heldBits [0x61, 0x62, 0x61] [] := by
  refine ⟨_, abHeld_spells p hp, ?_, 0x61, [false], ?_, ?_⟩
  · rcases hp with rfl | rfl <;> decide
  · rcases hp with rfl | rfl <;> (unfold IsCodeOf; decide)
  · decide

/-- "1" in the buffer under the tree of "abracadabra" (V-BLD-9), no codes derived: a rest in mid-codeword, and the cursor away
from the root. -/
def abraRest : State := { abraAt7 with codesValid := false, bitlen := 1, bitbuf := [(0, true)] }

theorem abraRest_inv : Inv abraRest :=
  inv_of_tree ⟨by decide, by decide, by decide +kernel, by decide +kernel⟩
    ⟨by decide, by decide, by decide +kernel, by decide +kernel, by decide +kernel, by decide +kernel⟩ (.inr (by decide))
    ⟨by decide, by decide, by decide, by decide, by decide, by decide⟩ rfl rfl rfl

/-- The three clauses: room for the symbols and no rest, a rest, and no room (SYMCAP = 1). -/
theorem witness_DecbufDecodesCodes :
    (Inv (abHeld pBig) ∧ (abHeld pBig).treeValid = true ∧ 2 ≤ (abHeld pBig).treeN.toNat ∧
      SplitsInto (abHeld pBig) (abHeld pBig).heldBits [0x61, 0x62, 0x61] [] ∧ (abHeld pBig).symlen + 3 ≤ pBig.symcap) ∧
    (Inv abraRest ∧ abraRest.treeValid = true ∧ 2 ≤ abraRest.treeN.toNat ∧ SplitsInto abraRest abraRest.heldBits [] [true] ∧
      abraRest.symlen + 0 ≤ pBig.symcap) ∧
    (Inv (abHeld pSmall) ∧ (abHeld pSmall).treeValid = true ∧ 2 ≤ (abHeld pSmall).treeN.toNat ∧
      SplitsInto (abHeld pSmall) (abHeld pSmall).heldBits [0x61, 0x62, 0x61] [] ∧ (abHeld pSmall).symlen + 3 > pSmall.symcap) := by
  refine ⟨⟨abHeld_inv _ (.inl rfl), rfl, by decide, abHeld_splits _ (.inl rfl), by decide⟩,
    ⟨abraRest_inv, rfl, by decide, ⟨[], rfl, by decide, 0x62, [true, true, false], ?_, by decide, by decide⟩, by decide⟩,
    ⟨abHeld_inv _ (.inr rfl), rfl, by decide, abHeld_splits _ (.inr rfl), by decide⟩⟩
  unfold IsCodeOf; decide

/-- A single-leaf tree with an empty buffer and with a 1 in it. -/
theorem xTree_inv (b : Bool) : Inv { xTree pBig with bitlen := 1, bitbuf := if b then [(0, true)] else [] } := by
  cases b <;> exact inv_of_tree ⟨by decide, by decide, by decide +kernel, by decide +kernel⟩
    ⟨by decide, by decide, by decide +kernel, by decide +kernel, by decide +kernel, by decide +kernel⟩ (.inl rfl)
    ⟨by decide, by decide, by decide, by decide, by decide, by decide⟩ rfl rfl rfl

/-- The same with a full symbol buffer (SYMCAP = 1) and a 0 to come. -/
def xFull : State := { xTree pSmall with bitlen := 1, symlen := 1 }

theorem xFull_inv : Inv xFull :=
  inv_of_tree ⟨by decide, by decide, by decide +kernel, by decide +kernel⟩
    ⟨by decide, by decide, by decide +kernel, by decide +kernel, by decide +kernel, by decide +kernel⟩ (.inl rfl)
    ⟨by decide, by decide, by decide, by decide, by decide, by decide⟩ rfl rfl rfl

/-- The three clauses: k = 1 zero with room, k = 0 zeros and a 1, and k = 1 zero without room. -/
theorem witness_DecbufDecodesSingleLeaf :
    (Inv { xTree pBig with bitlen := 1, bitbuf := [] } ∧
      ({ xTree pBig with bitlen := 1, bitbuf := [] } : State).heldBits = List.replicate 1 false) ∧
    (Inv { xTree pBig with bitlen := 1, bitbuf := [(0, true)] } ∧
      ({ xTree pBig with bitlen := 1, bitbuf := [(0, true)] } : State).heldBits = List.replicate 0 false ++ true :: []) ∧
    (Inv xFull ∧ xFull.treeValid = true ∧ xFull.treeN = 1 ∧ xFull.heldBits = List.replicate 1 false ++ [] ∧
      xFull.symlen + 1 > xFull.params.symcap) :=
  ⟨⟨xTree_inv false, by decide⟩, ⟨xTree_inv true, by decide⟩, xFull_inv, rfl, rfl, by decide, by decide⟩

theorem witness_DecbufEqualsStreaming : (abBits pBig).cursor = (abBits pBig).root ∧
    exec .decbuf (abBits pBig) = .next (after .decbuf (abBits pBig)) ∧ (after .decbuf (abBits pBig)).lastErr = .ok :=
  ⟨rfl, rfl, by decide⟩

/-- A tree with no table derived, and one with its table. -/
theorem witness_BitStringsSplitUniquely :
    (TreeInv abraRest ∧ abraRest.treeValid = true ∧ 2 ≤ abraRest.treeN.toNat ∧ abraRest.codesValid = false) ∧
    TreeInv (abCodes pBig) ∧ (abCodes pBig).treeValid = true ∧ 2 ≤ (abCodes pBig).treeN.toNat ∧ CodeInv (abCodes pBig) ∧
    (abCodes pBig).codesValid = true :=
  ⟨⟨abraRest_inv.tree, rfl, by decide, rfl⟩, abCodes_treeInv, rfl, by decide, abCodes_codeInv, rfl⟩

/-- The state a sequence of commands leaves (the state before, where it leaves none). -/
def afterAll (is : List Instr) (s : State) : State :=
  match execAll is s with
  | .next t => t
  | _ => s

/-- "ab" from reset: V-BLD-3's codes give two bits. -/
theorem witness_EncodeThenDecodeRoundTrips : ([0x61, 0x62] : List Sym) ≠ [] ∧ ([0x61, 0x62] : List Sym).length ≤ min pBig.symcap 0xFFFFFFFF ∧
    (encodeSyms (afterAll (pseudoNewsession ++ pseudoCounts [0x61, 0x62] ++ [.build, .derive]) s0) [0x61, 0x62]).length ≤ pBig.bitcap := by
  decide +kernel

theorem witness_RdnodeReturnsNode :
    ((abTree pBig).treeValid = true ∧ (2 : NodeId) ≤ (abTree pBig).root ∧ (abTree pBig).nodeAt 2 = .internal 2 0 1 ∧
      (abTree pBig).nodeAt 0 = .leaf 0x61 1) ∧ s0.treeValid = false ∧ (abTree pBig).root < (3 : NodeId) := by decide

theorem witness_RdcodeReturnsCode : ((abCodes pBig).codesValid = true ∧ ((abCodes pBig).codeAt 0x62).valid = true) ∧
    s0.codesValid = false ∧ ((abCodes pBig).codeAt 0x63).valid = false := by decide

theorem witness_RdbitsReturnsWord : (2047 : BitVec 11).toNat < pBig.bitcap / 32 ∧ (0 : BitVec 11).toNat < pSmall.bitcap / 32 ∧
    pSmall.bitcap / 32 ≤ (1 : BitVec 11).toNat := by decide

theorem witness_RdsymReturnsSymbol : (1 : BitVec 16).toNat < ({ s0 with symlen := 2 } : State).symlen ∧
    ({ s0 with symlen := 2 } : State).symlen ≤ (2 : BitVec 16).toNat := by decide

theorem witness_ReadbackChangesNoStore : isReadback (.rdnode 2) = true ∧
    exec (.rdnode 2) (abTree pBig) = .next (after (.rdnode 2) (abTree pBig)) ∧
    exec (.decbit true) (abTree pBig) = .next (after (.decbit true) (abTree pBig)) ∧
    exec (.decbit true) (after (.rdnode 2) (abTree pBig)) = .next (after (.decbit true) (after (.rdnode 2) (abTree pBig))) :=
  ⟨rfl, rfl, rfl, rfl⟩

theorem witness_FailedCommandChangesNothing : exec .build s0 = .next (after .build s0) ∧ (after .build s0).lastErr ≠ .ok :=
  ⟨rfl, by decide⟩

theorem witness_CompletionReportsEveryCommand :
    Sys2Proof.Machine.step (idleWith .releaseReset) = .next (stepped (idleWith .releaseReset)) ∧
    engineDue (idleWith .releaseReset) = false := ⟨rfl, rfl⟩

theorem witness_ErrorCodesOfEachCommand : exec .decend abraAt7 = .next (after .decend abraAt7) := rfl

theorem witness_ResultRegistersHaveEightWriters :
    Sys2Proof.Machine.step { abTree pBig with pend := some 0x80000061 } =
      .next (stepped { abTree pBig with pend := some 0x80000061 }) ∧
    ¬SameResults { abTree pBig with pend := some 0x80000061 } (stepped { abTree pBig with pend := some 0x80000061 }) :=
  ⟨rfl, fun h => absurd h.result0 (by decide)⟩

theorem witness_StoresHaveTheirWriters :
    Sys2Proof.Machine.step { s0 with pend := some 0x10000061 } = .next (stepped { s0 with pend := some 0x10000061 }) ∧
    (∀ rest, ¬NextEvent { s0 with pend := some 0x10000061 } .assertReset rest) ∧
    (stepped { s0 with pend := some 0x10000061 }).freq ≠ s0.freq :=
  ⟨rfl, fun _ h => absurd h.1 (by decide), by decide⟩

theorem witness_AcceptedCommandCompletes : (busyWith .releaseReset).pend = some 0 ∧ (busyWith .releaseReset).inReset = false ∧
    ∀ e ∈ (busyWith .releaseReset).hostQueue, Harmless (busyWith .releaseReset).params e := by
  refine ⟨rfl, rfl, fun e he => ?_⟩
  obtain rfl : e = .releaseReset := by simpa [busyWith] using he
  trivial

/-- BUILD pending on the table and tree of "ab". -/
def abBuild : State := { abCodes pBig with pend := some 0x20000000 }

/-- One state and step for the four step invariants. -/
theorem witness_StepKeepsInvariants :
    (FreqInv abBuild ∧ TreeInv abBuild ∧ CodeInv abBuild ∧ StoreInv abBuild ∧ ResetHeld abBuild) ∧
    Sys2Proof.Machine.step abBuild = .next (stepped abBuild) ∧ (stepped abBuild).codesValid = false := by
  refine ⟨⟨⟨abCodes_freqInv.wf, abCodes_freqInv.inRange, abCodes_freqInv.total, abCodes_freqInv.ndist⟩,
    ⟨abCodes_treeInv.none, fun h => let k := abCodes_treeInv.held h
      ⟨k.size, k.root, k.leaf, k.order, k.internal, k.parent⟩, abCodes_treeInv.cursor⟩,
    ⟨abCodes_codeInv.tree, abCodes_codeInv.exactly, by unfold IsCodeOf; decide +kernel, abCodes_codeInv.length,
      abCodes_codeInv.above⟩,
    ⟨by decide, by decide, by decide, by decide, by decide, by decide⟩, fun h => absurd h (by decide)⟩, rfl, by decide +kernel⟩

/-- A block in reset, and a CMD write that reaches it there, for the reset clause of the last of the four. -/
theorem witness_StepKeepsStoresAndReset :
    StoreInv (assertReset (idleWith (.write 0x108 .w32 0x20000000))) ∧
    ResetHeld (assertReset (idleWith (.write 0x108 .w32 0x20000000))) ∧
    (assertReset (idleWith (.write 0x108 .w32 0x20000000))).inReset = true ∧
    Sys2Proof.Machine.step (assertReset (idleWith (.write 0x108 .w32 0x20000000))) =
      .next (stepped (assertReset (idleWith (.write 0x108 .w32 0x20000000)))) ∧
    (stepped (assertReset (idleWith (.write 0x108 .w32 0x20000000)))).inReset = true :=
  ⟨⟨by decide, by decide, by decide, by decide, by decide, by decide⟩, fun _ => rfl, rfl, rfl, rfl⟩

/-- Two different states that look the same: a stale bit at BITLEN. -/
theorem witness_UnwrittenContentsUnobservable : FreqInv (abCodes pBig) ∧ TreeInv (abCodes pBig) ∧
    ObsEq (abCodes pBig) { abCodes pBig with bitbuf := [(0, true)] } ∧
    abCodes pBig ≠ { abCodes pBig with bitbuf := [(0, true)] } := by
  refine ⟨abCodes_freqInv, abCodes_treeInv, ?_, by decide⟩
  exact
    { params := rfl, freq := ⟨rfl, rfl, rfl⟩, treeValid := rfl, treeN := rfl, root := rfl, node := fun _ _ _ => rfl
      codesValid := rfl, code := fun _ _ => rfl, bitlen := rfl, bits := fun p hp => absurd hp (by simp [abCodes, abTree, State.resetWith])
      symlen := rfl, syms := fun _ _ => rfl, cursor := rfl, results := ⟨rfl, rfl⟩, pend := rfl, done := rfl, err := rfl
      lastErr := rfl, host := ⟨rfl, rfl, rfl, rfl, rfl, rfl, rfl, rfl, rfl⟩ }

end Sys2Proof.Tests
end

/-! What one step does to the block, said once: a successful command has one of a few effects, and every other step leaves
the block as it is or resets it. Every invariant of 10_state.md is proved from this. -/
section

namespace Sys2Proof.Machine

/-! Frames: the relations compose, and the operations of the bus and of completion leave the block alone. -/

theorem SameBlock.trans {s t u : State} (h : SameBlock s t) (k : SameBlock t u) : SameBlock s u where
  freq := ⟨k.freq.freq.trans h.freq.freq, k.freq.total.trans h.freq.total, k.freq.ndist.trans h.freq.ndist⟩
  tree := ⟨k.tree.treeValid.trans h.tree.treeValid, k.tree.treeN.trans h.tree.treeN, k.tree.root.trans h.tree.root,
    k.tree.node.trans h.tree.node⟩
  codes := ⟨k.codes.codesValid.trans h.codes.codesValid, k.codes.code.trans h.codes.code⟩
  cursor := k.cursor.trans h.cursor
  bits := ⟨k.bits.bitlen.trans h.bits.bitlen, k.bits.bitbuf.trans h.bits.bitbuf⟩
  syms := ⟨k.syms.symlen.trans h.syms.symlen, k.syms.symbuf.trans h.syms.symbuf⟩
  results := ⟨k.results.result0.trans h.results.result0, k.results.result1.trans h.results.result1⟩

theorem SameBlock.refl (s : State) : SameBlock s s :=
  ⟨⟨rfl, rfl, rfl⟩, ⟨rfl, rfl, rfl, rfl⟩, ⟨rfl, rfl⟩, rfl, ⟨rfl, rfl⟩, ⟨rfl, rfl⟩, ⟨rfl, rfl⟩⟩

/-- The status fields, the enables and everything of the host play no part in the block. -/
theorem sameBlock_withStatus (s : State) (p : Option Word) (d e o : Bool) (l : ErrCode) (di ei r : Bool)
    (q : List HostEvent) (hd : List Word) (n k : Nat) :
    SameBlock s { s with pend := p, done := d, err := e, ovr := o, lastErr := l, doneIE := di, errIE := ei, inReset := r,
                         hostQueue := q, hostData := hd, draws := n, delay := k } :=
  ⟨⟨rfl, rfl, rfl⟩, ⟨rfl, rfl, rfl, rfl⟩, ⟨rfl, rfl⟩, rfl, ⟨rfl, rfl⟩, ⟨rfl, rfl⟩, ⟨rfl, rfl⟩⟩

theorem sameBlock_takeEvent (rest : List HostEvent) (s : State) : SameBlock s (takeEvent rest s) :=
  sameBlock_withStatus s ..

theorem sameBlock_returnData (v : Word) (s : State) : SameBlock s (returnData v s) := sameBlock_withStatus s ..

theorem sameBlock_returnDraw (s : State) : SameBlock s (returnDraw s) := sameBlock_withStatus s ..

theorem sameBlock_clearStatus (s : State) (v : Word) : SameBlock s (s.clearStatus v) := sameBlock_withStatus s ..

theorem sameBlock_setEnables (s : State) (v : Word) : SameBlock s (s.setEnables v) := sameBlock_withStatus s ..

theorem sameBlock_releaseReset (s : State) : SameBlock s (releaseReset s) := sameBlock_withStatus s ..

theorem sameBlock_retire (e : ErrCode) (s : State) : SameBlock s (retire e s) := sameBlock_withStatus s ..

theorem sameBlock_raiseError (e : ErrCode) (s : State) : SameBlock s (raiseError e s) := sameBlock_withStatus s ..

/-- Asserting reset gives the block the values of 10_state.md R50. -/
theorem sameBlock_assertReset (s : State) : SameBlock (State.resetWith s.params) (assertReset s) :=
  sameBlock_withStatus (State.resetWith s.params) ..

theorem sameBlock_submit (w : Word) (s : State) : SameBlock s (submit w s) := by
  obtain ⟨-, h⟩ | ⟨-, h⟩ := submit_cases w s <;> rw [h]
  · exact sameBlock_withStatus s ..
  · exact sameBlock_withStatus s ..

theorem submit_params (w : Word) (s : State) : (submit w s).params = s.params := by
  obtain ⟨-, h⟩ | ⟨-, h⟩ := submit_cases w s <;> rw [h]

theorem sameBlock_readReg (r : Reg) (s : State) : SameBlock s (readReg r s) := by
  obtain ⟨v, -, h⟩ | ⟨-, h⟩ := readReg_cases r s <;> rw [h]
  · exact sameBlock_returnData v s
  · exact sameBlock_returnDraw s

theorem readReg_params (r : Reg) (s : State) : (readReg r s).params = s.params := by
  obtain ⟨v, -, h⟩ | ⟨-, h⟩ := readReg_cases r s <;> rw [h] <;> rfl

theorem sameBlock_writeReg (r : Reg) (v : Word) (s : State) : SameBlock s (writeReg r v s) := by
  obtain ⟨-, h⟩ | ⟨-, h⟩ | ⟨-, h⟩ | ⟨-, -, -, h⟩ := writeReg_cases r v s <;> rw [h]
  · exact sameBlock_submit v s
  · exact sameBlock_clearStatus s v
  · exact sameBlock_setEnables s v
  · exact SameBlock.refl s

theorem writeReg_params (r : Reg) (v : Word) (s : State) : (writeReg r v s).params = s.params := by
  obtain ⟨-, h⟩ | ⟨-, h⟩ | ⟨-, h⟩ | ⟨-, -, -, h⟩ := writeReg_cases r v s <;> rw [h]
  · exact submit_params v s
  · rfl
  · rfl

/-- An event of the outside world leaves the block as it is, or resets it (20_memory.md R64, 70_reset_and_hazards.md R161). -/
theorem perform_block {e : HostEvent} {s t : State} (h : perform e s = .next t) :
    (SameBlock s t ∧ t.params = s.params) ∨ (e = .assertReset ∧ t = assertReset s) := by
  obtain ⟨addr, width, r, -, -, rfl⟩ | ⟨addr, width, data, r, -, -, rfl⟩ | h | ⟨-, rfl⟩ := perform_cases h
  · left
    split
    · exact ⟨sameBlock_returnDraw s, rfl⟩
    · exact ⟨sameBlock_readReg r s, readReg_params r s⟩
  · left
    split
    · exact ⟨SameBlock.refl s, rfl⟩
    · exact ⟨sameBlock_writeReg r data s, writeReg_params r data s⟩
  · exact .inr h
  · exact .inl ⟨sameBlock_releaseReset s, rfl⟩

/-! CLR: what its six steps keep, the whole command keeps. -/

/-- What each step whose mask bit is 1 keeps, CLR keeps (40_control.md R86). -/
theorem clrRule_keeps {P : State → Prop} {mask : BitVec 6} {s : State}
    (hF : clearsFreq mask = true → ∀ u, P u → P (clearFreq u)) (hT : ∀ u, P u → P (clearTree u))
    (hC : ∀ u, P u → P (clearCodes u)) (hB : ∀ u, P u → P (clearBits u)) (hS : ∀ u, P u → P (clearSyms u))
    (hD : ∀ u, P u → P (homeDecoder u)) (h : P s) : P (clrRule mask s) := by
  have onBit_keeps : ∀ (b : Bool) (f : State → State), (b = true → ∀ u, P u → P (f u)) → ∀ u, P u → P (onBit b f u) := by
    intro b f hf u hu
    cases b
    · exact hu
    · exact hf rfl u hu
  unfold clrRule
  exact onBit_keeps _ _ (fun _ => hD) _ <| onBit_keeps _ _ (fun _ => hS) _ <| onBit_keeps _ _ (fun _ => hB) _ <|
    onBit_keeps _ _ (fun _ => hC) _ <| onBit_keeps _ _ (fun _ => hT) _ <| onBit_keeps _ _ hF _ h

/-! The decoder: what a step of the walk can leave. -/

/-- A step that emits a symbol is back at the root (44_decoder.md R116). -/
theorem decStep_some {s : State} {c cur : NodeId} {b : Bool} {x : Sym} (h : decStep s c b = .ok (cur, some x)) :
    cur = s.root := by
  unfold decStep at h
  split at h
  · split at h
    · cases h
    · cases h; rfl
  · split at h
    · cases h; rfl
    · cases h

/-- The loop of DECBUF never holds more symbols than there is room for (44_decoder.md R119). -/
theorem decLoop_fits {s : State} {bits : List Bool} {c cur : NodeId} {out out' : List Sym}
    (h : decLoop s bits c out = .ok (cur, out')) (hfit : s.symlen + out.length ≤ s.params.symcap) :
    s.symlen + out'.length ≤ s.params.symcap := by
  induction bits generalizing c out with
  | nil =>
    obtain ⟨-, rfl⟩ : c = cur ∧ out = out' := by simpa [decLoop] using h
    exact hfit
  | cons b rest ih =>
    unfold decLoop at h
    split at h
    · cases h
    · exact ih h hfit
    · split at h
      · cases h
      · exact ih h (by rw [List.length_append, List.length_singleton]; omega)

/-! The effect of a successful command. -/

/-- What a successful command `i` leaves of `s`, by the store it works on. -/
inductive Effect (s : State) : Instr → State → Prop
  /-- NOP and DECEND change nothing (40_control.md R85, 44_decoder.md R118). -/
  | none {i : Instr} (hi : i = .nop ∨ i = .decend) : Effect s i s
  /-- CLR (40_control.md R86). -/
  | clear (mask : BitVec 6) : Effect s (.clr mask) (clrRule mask s)
  /-- COUNT and COUNTN add a positive number that TOTAL has room for (41_frequency.md R90, R91). -/
  | count {i : Instr} {x : Sym} {n : Count} (hi : i = .count x ∨ ∃ m, i = .countn x m) (hn : n ≠ 0)
      (hfit : s.total.toNat + n.toNat < 2 ^ 32) : Effect s i (addCount x n s)
  /-- BUILD (42_tree_builder.md R95). -/
  | build (hn : s.ndist ≠ 0) : Effect s .build (commitTree s)
  /-- DERIVE (43_encoder.md R105). -/
  | derive (hv : s.treeValid = true) : Effect s .derive { s with code := derivedTable s, codesValid := true }
  /-- WRBITS (43_encoder.md R110). -/
  | write {n : BitVec 5} {v : BitVec 16} (hfit : s.bitlen + (literalBits n v).length ≤ s.params.bitcap) :
      Effect s (.wrbits n v) (s.appendBits (literalBits n v))
  /-- ENC (43_encoder.md R109). -/
  | encode {x : Sym} {bs : List Bool} {r0 r1 : Word} (hfit : s.bitlen + bs.length ≤ s.params.bitcap) :
      Effect s (.enc x) ((s.appendBits bs).setResults r0 r1)
  /-- DECBIT and DECBUF append symbols that fit and move the cursor to the root or one step of the walk
  (44_decoder.md R117, R119). -/
  | decode {i : Instr} {ss : List Sym} {r0 r1 : Word} {cur : NodeId} (hi : (∃ b, i = .decbit b) ∨ i = .decbuf)
      (hv : s.treeValid = true) (hcur : cur = s.root ∨ ∃ b, decStep s s.cursor b = .ok (cur, none))
      (hfit : s.symlen ≤ s.params.symcap → s.symlen + ss.length ≤ s.params.symcap) :
      Effect s i { (s.appendSyms ss).setResults r0 r1 with cursor := cur }
  /-- The five read-back commands write the result registers (45_readback.md R130). -/
  | readback {i : Instr} {r0 r1 : Word} (hi : isReadback i = true) : Effect s i (s.setResults r0 r1)

theorem effect_of_countnRule {x : Sym} {n : BitVec 16} {s u : State} (h : countnRule x n s = .ok u) :
    Effect s (.countn x n) u := by
  obtain ⟨hn, hfit, rfl⟩ := countnRule_ok h
  have hz : (zext32 n).toNat = n.toNat := by simp [zext32]; omega
  refine .count (.inr ⟨n, rfl⟩) (fun h0 => hn ?_) (by omega)
  rw [h0] at hz
  exact BitVec.eq_of_toNat_eq hz.symm

theorem effect_of_decbitRule {b : Bool} {s u : State} (h : decbitRule b s = .ok u) : Effect s (.decbit b) u := by
  obtain ⟨hv, ⟨cur, x, hd, hroom, rfl⟩ | ⟨cur, hd, rfl⟩⟩ := decbitRule_ok h
  · exact .decode (ss := [x]) (.inl ⟨b, rfl⟩) hv (.inl (decStep_some hd))
      (fun hle => by rw [List.length_singleton]; omega)
  · exact .decode (ss := []) (.inl ⟨b, rfl⟩) hv (.inr ⟨b, hd⟩) id

/-- Every successful command has its effect. -/
theorem effect_of_ruleOf {i : Instr} {s u : State} (h : ruleOf i s = .ok u) : Effect s i u := by
  cases i with
  | nop => cases h; exact .none (.inl rfl)
  | clr mask => cases h; exact .clear mask
  | count x =>
    obtain ⟨hne, rfl⟩ := countRule_ok h
    exact .count (.inl rfl) (by decide) (by have := s.total.isLt; bv_omega)
  | countn x n => exact effect_of_countnRule h
  | build => obtain ⟨hn, rfl⟩ := buildRule_ok h; exact .build hn
  | derive => obtain ⟨hv, rfl⟩ := deriveRule_ok h; exact .derive hv
  | enc x => obtain ⟨c, -, hfit, rfl⟩ := encRule_ok h; exact .encode hfit
  | wrbits n v => obtain ⟨-, -, hfit, rfl⟩ := wrbitsRule_ok h; exact .write hfit
  | decbit b => exact effect_of_decbitRule h
  | decend => obtain ⟨-, -, rfl⟩ := decendRule_ok h; exact .none (.inr rfl)
  | decbuf =>
    obtain ⟨hv, out, hl, rfl⟩ := decbufRule_ok h
    exact .decode (.inr rfl) hv (.inl rfl) (fun hle => decLoop_fits hl (by simpa using hle))
  | rdfreq x => cases h; exact .readback rfl
  | rdnode id => obtain ⟨-, -, rfl⟩ := rdnodeRule_ok h; exact .readback rfl
  | rdcode x w =>
    cases h
    unfold rdcodeRule
    split
    · exact .readback rfl
    · exact .readback rfl
  | rdbits k => obtain ⟨-, rfl⟩ := rdbitsRule_ok h; exact .readback rfl
  | rdsym idx => obtain ⟨-, rfl⟩ := rdsymRule_ok h; exact .readback rfl

/-- Everything a step can do to the block: the effect of a successful command, nothing, or a reset. -/
theorem step_block {s t : State} (h : step s = .next t) :
    (∃ i u, EngineRuns s i ∧ Effect s i u ∧ t = retire .ok u) ∨ (SameBlock s t ∧ t.params = s.params) ∨
      (∃ rest, NextEvent s .assertReset rest ∧ t = assertReset (takeEvent rest s)) := by
  obtain ⟨hd, w, i, hw, hi, hx⟩ | ⟨-, w, r, -, -, rfl⟩ | ⟨-, -, rfl⟩ | ⟨hd, e, rest, hq, hp⟩ := step_cases h
  · obtain ⟨u, hu, rfl⟩ | ⟨e, -, rfl⟩ := exec_cases hx
    · exact .inl ⟨i, u, ⟨hd, w, hw, hi⟩, effect_of_ruleOf hu, rfl⟩
    · exact .inr (.inl ⟨sameBlock_raiseError e s, rfl⟩)
  · exact .inr (.inl ⟨sameBlock_raiseError .illegalCmd s, rfl⟩)
  · exact .inr (.inl ⟨SameBlock.refl _, rfl⟩)
  · obtain ⟨hb, hpar⟩ | ⟨rfl, rfl⟩ := perform_block hp
    · exact .inr (.inl ⟨(sameBlock_takeEvent rest s).trans hb, hpar⟩)
    · exact .inr (.inr ⟨rest, ⟨hd, hq⟩, rfl⟩)

/-- A property of the block and the parameters that holds after reset and is kept by every effect is kept by every step. -/
theorem step_keeps {P : State → Prop} (hsame : ∀ u v, SameBlock u v → v.params = u.params → P u → P v)
    (hreset : ∀ p, P (State.resetWith p)) {s t : State} (heffect : ∀ i u, Effect s i u → P u) (hs : P s)
    (h : step s = .next t) : P t := by
  obtain ⟨i, u, -, hu, rfl⟩ | ⟨hb, hp⟩ | ⟨rest, -, rfl⟩ := step_block h
  · exact hsame u _ (sameBlock_retire .ok u) rfl (heffect i u hu)
  · exact hsame s t hb hp hs
  · exact hsame _ _ (sameBlock_assertReset (takeEvent rest s)) rfl (hreset _)

end Sys2Proof.Machine

end

/-! 10_state.md R40: TOTAL and NDIST as sums over the symbols, and how one count's change moves them. -/
section

namespace Sys2Proof.Machine

/-! Sums over the symbols in which one term changes. -/

theorem freqSum_eq_sum (s : State) :
    freqSum s = ∑ k ∈ Finset.range Config.nsym, (s.freqAt (BitVec.ofNat 8 k)).toNat := rfl

theorem freqEntries_eq_sum (s : State) :
    freqEntries s = ∑ k ∈ Finset.range Config.nsym, if s.freqAt (BitVec.ofNat 8 k) ≠ 0 then 1 else 0 := by
  rw [← Finset.card_filter]
  rfl

/-- A sum in which the term of one symbol alone is replaced. -/
theorem sum_replace_symbol {f g : Sym → Nat} {x : Sym} (h : ∀ y, y ≠ x → g y = f y) :
    ∑ k ∈ Finset.range Config.nsym, g (BitVec.ofNat 8 k) + f x =
      ∑ k ∈ Finset.range Config.nsym, f (BitVec.ofNat 8 k) + g x := by
  have hx : x.toNat ∈ Finset.range Config.nsym := Finset.mem_range.mpr x.isLt
  have hne : ∀ k ∈ (Finset.range Config.nsym).erase x.toNat, g (BitVec.ofNat 8 k) = f (BitVec.ofNat 8 k) := by
    intro k hk
    obtain ⟨hkx, hk⟩ := Finset.mem_erase.mp hk
    refine h _ fun e => hkx ?_
    have hk : k < 2 ^ 8 := Finset.mem_range.mp hk
    rw [← e, BitVec.toNat_ofNat, Nat.mod_eq_of_lt hk]
  have hg := Finset.add_sum_erase _ (fun k => g (BitVec.ofNat 8 k)) hx
  have hf := Finset.add_sum_erase _ (fun k => f (BitVec.ofNat 8 k)) hx
  simp only [BitVec.ofNat_toNat, BitVec.setWidth_eq] at hg hf
  rw [← hg, ← hf, Finset.sum_congr rfl hne]
  omega

/-- One count is at most the sum of all. -/
theorem freqAt_le_freqSum (s : State) (x : Sym) : (s.freqAt x).toNat ≤ freqSum s := by
  rw [freqSum_eq_sum]
  have hx : x.toNat ∈ Finset.range Config.nsym := Finset.mem_range.mpr x.isLt
  have := Finset.single_le_sum (f := fun k => (s.freqAt (BitVec.ofNat 8 k)).toNat) (fun _ _ => Nat.zero_le _) hx
  simpa using this

theorem freqEntries_le (s : State) : freqEntries s ≤ Config.nsym := by
  unfold freqEntries
  exact (List.length_filter_le _ _).trans (by simp)

theorem FreqInv.congr {s t : State} (hs : FreqInv s) (h : SameFreq s t) : FreqInv t where
  wf := h.freq ▸ hs.wf
  inRange := h.freq ▸ hs.inRange
  total := by
    rw [h.total, hs.total]
    simp only [freqSum, State.freqAt_congr h.freq]
  ndist := by
    rw [h.ndist, hs.ndist]
    simp only [freqEntries, State.freqAt_congr h.freq]

theorem freqInv_of_freq_empty {s : State} (hf : s.freq = []) (ht : s.total = 0) (hn : s.ndist = 0) : FreqInv s where
  wf := hf ▸ Memory.wf_nil _
  inRange := by simp [hf]
  total := by simp [freqSum, State.freqAt, freqDefault, hf, ht]
  ndist := by simp [freqEntries, State.freqAt, freqDefault, hf, hn]

/-! Adding to a count (41_frequency.md R90, R91). -/

section AddCount

variable {s : State} {x : Sym} {n : Count} (hs : FreqInv s) (hfit : s.total.toNat + n.toNat < 2 ^ 32)
include hs hfit

/-- The count itself has room for what TOTAL has room for. -/
theorem freqAt_addCount_toNat : ((addCount x n s).freqAt x).toNat = (s.freqAt x).toNat + n.toNat := by
  have hle := freqAt_le_freqSum s x
  rw [← hs.total] at hle
  rw [freqAt_addCount, if_pos rfl, BitVec.toNat_add, Nat.mod_eq_of_lt (by omega)]

theorem freqSum_addCount : freqSum (addCount x n s) = freqSum s + n.toNat := by
  have h := sum_replace_symbol (f := fun y => (s.freqAt y).toNat) (g := fun y => ((addCount x n s).freqAt y).toNat) (x := x)
    fun y hy => by simp [freqAt_addCount, hy]
  rw [← freqSum_eq_sum, ← freqSum_eq_sum, freqAt_addCount_toNat hs hfit] at h
  omega

theorem freqAt_addCount_ne_zero (hn : n ≠ 0) : (addCount x n s).freqAt x ≠ 0 := by
  have h := freqAt_addCount_toNat hs hfit (x := x)
  intro h0
  rw [h0] at h
  bv_omega

theorem freqEntries_addCount (hn : n ≠ 0) :
    freqEntries (addCount x n s) = freqEntries s + if s.freqAt x = 0 then 1 else 0 := by
  have h := sum_replace_symbol (f := fun y => if s.freqAt y ≠ 0 then 1 else 0)
    (g := fun y => if (addCount x n s).freqAt y ≠ 0 then 1 else 0) (x := x) fun y hy => by simp [freqAt_addCount, hy]
  rw [← freqEntries_eq_sum, ← freqEntries_eq_sum, if_pos (freqAt_addCount_ne_zero hs hfit hn)] at h
  by_cases h0 : s.freqAt x = 0
  · simp only [h0, ne_eq, not_true_eq_false, if_false, if_true] at h ⊢; omega
  · simp only [h0, ne_eq, not_false_eq_true, if_true, if_false] at h ⊢; omega

theorem freqInv_addCount (hn : n ≠ 0) : FreqInv (addCount x n s) where
  wf := by
    rw [addCount_freq]
    exact Memory.wf_write hs.wf _ _
  inRange := by
    intro p hp
    rw [addCount_freq] at hp
    obtain rfl | hp := Memory.mem_write hp
    · exact x.isLt
    · exact hs.inRange p hp
  total := by
    rw [addCount_total, freqSum_addCount hs hfit, ← hs.total, BitVec.toNat_add, Nat.mod_eq_of_lt hfit]
  ndist := by
    have hle : freqEntries (addCount x n s) ≤ 256 := freqEntries_le _
    rw [freqEntries_addCount hs hfit hn] at hle ⊢
    rw [addCount_ndist, ← hs.ndist] at *
    split at hle
    · rename_i h0
      rw [if_pos h0, if_pos h0, BitVec.toNat_add]
      exact Nat.mod_eq_of_lt (by simp; omega)
    · rename_i h0
      rw [if_neg h0, if_neg h0, Nat.add_zero]

end AddCount

theorem freqInv_clrRule {s : State} (mask : BitVec 6) (hs : FreqInv s) : FreqInv (clrRule mask s) := by
  refine clrRule_keeps (P := FreqInv) (fun _ u _ => freqInv_of_freq_empty rfl rfl rfl) ?_ ?_ ?_ ?_ ?_ hs
  all_goals exact fun u hu => hu.congr ⟨rfl, rfl, rfl⟩

theorem freqInv_effect {s u : State} {i : Instr} (hs : FreqInv s) (h : Effect s i u) : FreqInv u := by
  cases h with
  | none => exact hs
  | clear mask => exact freqInv_clrRule mask hs
  | count _ hn hfit => exact freqInv_addCount hs hfit hn
  | build | derive | write | encode | decode | readback => exact hs.congr ⟨rfl, rfl, rfl⟩

/-- Settles O55: COUNT and COUNTN move TOTAL, NDIST and one count together, CLR F empties them, and every other step leaves
the table alone. -/
theorem stepKeepsFrequencyTable : Obligations.StepKeepsFrequencyTable := by
  intro s t hs h
  exact step_keeps (P := FreqInv) (fun u v huv _ hu => hu.congr huv.freq)
    (fun p => freqInv_of_freq_empty rfl rfl rfl) (fun i u => freqInv_effect hs) hs h

end Sys2Proof.Machine

end

/-! 10_state.md R43, R44, R61 and 70_reset_and_hazards.md R161: the stores stay canonical and in range, and a block in reset
keeps its reset values. -/
section

namespace Sys2Proof.Machine

/-! What writes keep of a store: the canonical form and the range of its indexes. -/

theorem Memory.write_wf_inRange {α : Type} [DecidableEq α] {d : α} {m : Memory α} {bound a : Nat}
    (h : Memory.wf d m ∧ ∀ p ∈ m, p.1 < bound) (ha : a < bound) (x : α) :
    Memory.wf d (m.write d a x) ∧ ∀ p ∈ m.write d a x, p.1 < bound := by
  refine ⟨Memory.wf_write h.1 a x, fun p hp => ?_⟩
  obtain rfl | hp := Memory.mem_write hp
  · exact ha
  · exact h.2 p hp

theorem Memory.writeList_wf_inRange {α : Type} [DecidableEq α] {d : α} {m : Memory α} {bound a : Nat} {xs : List α}
    (h : Memory.wf d m ∧ ∀ p ∈ m, p.1 < bound) (hx : a + xs.length ≤ bound) :
    Memory.wf d (m.writeList d a xs) ∧ ∀ p ∈ m.writeList d a xs, p.1 < bound :=
  ⟨Memory.wf_writeList h.1 a xs, Memory.writeList_inRange h.2 a xs hx⟩

theorem buildArena_length_le (s : State) : (buildArena s).length ≤ Config.nnode := by
  have hn : (leaves s).length ≤ 256 := leaves_length_le s
  have hnode : Config.nnode = 511 := rfl
  rw [buildArena_length]
  omega

/-- DERIVE's walk keeps the code table canonical with its indexes in range, whatever the tree. -/
theorem walkCodes_wf_inRange (s : State) (fuel : Nat) (x : NodeId) (depth : Nat) (path : CodeBits) {table : Memory Code}
    (h : Memory.wf codeDefault table ∧ ∀ p ∈ table, p.1 < Config.nsym) :
    Memory.wf codeDefault (walkCodes s fuel x depth path table) ∧
      ∀ p ∈ walkCodes s fuel x depth path table, p.1 < Config.nsym := by
  induction fuel generalizing x depth path table with
  | zero => exact h
  | succ fuel ih =>
    unfold walkCodes
    split
    · exact Memory.write_wf_inRange h (BitVec.isLt _) _
    · exact ih _ _ _ (ih _ _ _ h)

theorem derivedTable_wf_inRange (s : State) :
    Memory.wf codeDefault (derivedTable s) ∧ ∀ p ∈ derivedTable s, p.1 < Config.nsym := by
  have hnil : Memory.wf codeDefault [] ∧ ∀ p ∈ ([] : Memory Code), p.1 < Config.nsym := ⟨Memory.wf_nil _, by simp⟩
  unfold derivedTable
  split
  · exact Memory.write_wf_inRange hnil (BitVec.isLt _) _
  · exact walkCodes_wf_inRange s _ _ _ _ hnil

/-! The invariant of the stores. -/

theorem StoreInv.congr {s t : State} (hs : StoreInv s) (h : SameBlock s t) (hp : t.params = s.params) : StoreInv t where
  bitlen := by rw [h.bits.bitlen, hp]; exact hs.bitlen
  symlen := by rw [h.syms.symlen, hp]; exact hs.symlen
  node := by rw [h.tree.node]; exact hs.node
  code := by rw [h.codes.code]; exact hs.code
  bitbuf := by rw [h.bits.bitbuf, hp]; exact hs.bitbuf
  symbuf := by rw [h.syms.symbuf, hp]; exact hs.symbuf

theorem storeInv_resetWith (p : Params) : StoreInv (State.resetWith p) := by
  obtain ⟨-, hnode, hcode, hbit, hsym⟩ := resetWith_stores_wf p
  exact ⟨Nat.zero_le _, Nat.zero_le _, ⟨hnode, nofun⟩, ⟨hcode, nofun⟩, ⟨hbit, nofun⟩, ⟨hsym, nofun⟩⟩

theorem storeInv_clrRule {s : State} (mask : BitVec 6) (hs : StoreInv s) : StoreInv (clrRule mask s) :=
  clrRule_keeps (P := StoreInv) (fun _ _ hu => { hu with }) (fun _ hu => { hu with }) (fun _ hu => { hu with })
    (fun _ hu => { hu with bitlen := Nat.zero_le _ }) (fun _ hu => { hu with symlen := Nat.zero_le _ })
    (fun _ hu => { hu with }) hs

theorem storeInv_appendBits {s : State} {bs : List Bool} (hs : StoreInv s)
    (hfit : s.bitlen + bs.length ≤ s.params.bitcap) : StoreInv (s.appendBits bs) :=
  { hs with bitlen := hfit, bitbuf := Memory.writeList_wf_inRange hs.bitbuf hfit }

theorem storeInv_effect {s u : State} {i : Instr} (hs : StoreInv s) (h : Effect s i u) : StoreInv u := by
  cases h with
  | none => exact hs
  | clear mask => exact storeInv_clrRule mask hs
  | count => exact { hs with }
  | build =>
    refine { hs with node := Memory.writeList_wf_inRange hs.node ?_ }
    rw [Nat.zero_add]
    exact buildArena_length_le s
  | derive => exact { hs with code := derivedTable_wf_inRange s }
  | write hfit => exact storeInv_appendBits hs hfit
  | encode hfit => exact { storeInv_appendBits hs hfit with }
  | decode _ _ _ hfit =>
    exact { hs with symlen := hfit hs.symlen, symbuf := Memory.writeList_wf_inRange hs.symbuf (hfit hs.symlen) }
  | readback => exact { hs with }

theorem step_keeps_storeInv {s t : State} (h : step s = .next t) (hs : StoreInv s) : StoreInv t :=
  step_keeps (P := StoreInv) (fun _ _ huv hp hu => hu.congr huv hp) storeInv_resetWith (fun _ _ => storeInv_effect hs) hs h

/-! The reset input. -/

theorem readReg_inReset (r : Reg) (s : State) : (readReg r s).inReset = s.inReset := by
  obtain ⟨v, -, h⟩ | ⟨-, h⟩ := readReg_cases r s <;> rw [h] <;> rfl

theorem writeReg_inReset (r : Reg) (v : Word) (s : State) : (writeReg r v s).inReset = s.inReset := by
  obtain ⟨-, h⟩ | ⟨-, h⟩ | ⟨-, h⟩ | ⟨-, -, -, h⟩ := writeReg_cases r v s <;> rw [h]
  · obtain ⟨-, h⟩ | ⟨-, h⟩ := submit_cases v s <;> rw [h]
  · rfl
  · rfl

theorem effect_inReset {s u : State} {i : Instr} (h : Effect s i u) : u.inReset = s.inReset := by
  cases h with
  | clear mask =>
    exact clrRule_keeps (P := fun u => u.inReset = s.inReset) (fun _ _ hu => hu) (fun _ hu => hu) (fun _ hu => hu)
      (fun _ hu => hu) (fun _ hu => hu) (fun _ hu => hu) rfl
  | none | count | build | derive | write | encode | decode | readback => rfl

/-- An event of the outside world leaves a released reset input released, or is the reset itself. -/
theorem perform_inReset_false {e : HostEvent} {s t : State} (hr : s.inReset = false) (h : perform e s = .next t) :
    t.inReset = false ∨ t = assertReset s := by
  obtain ⟨addr, width, r, -, -, rfl⟩ | ⟨addr, width, data, r, -, -, rfl⟩ | ⟨-, rfl⟩ | ⟨-, rfl⟩ := perform_cases h
  · left; rw [hr]; exact (readReg_inReset r s).trans hr
  · left; rw [hr]; exact (writeReg_inReset r data s).trans hr
  · exact .inr rfl
  · exact .inl rfl

/-- What an event can do to a block in reset: the host's own fields, a release, or another reset. -/
theorem perform_inReset {e : HostEvent} {s t : State} (hr : s.inReset = true) (h : perform e s = .next t) :
    t = returnDraw s ∨ t = s ∨ t.inReset = false ∨ t = assertReset s := by
  obtain ⟨addr, width, r, -, -, rfl⟩ | ⟨addr, width, data, r, -, -, rfl⟩ | ⟨-, rfl⟩ | ⟨-, rfl⟩ := perform_cases h
  · left; rw [hr]; rfl
  · right; left; rw [hr]; rfl
  · exact .inr (.inr (.inr rfl))
  · exact .inr (.inr (.inl rfl))

theorem resetHeld_of_not_inReset {s : State} (h : s.inReset = false) : ResetHeld s := by
  intro hr
  rw [h] at hr
  cases hr

theorem resetHeld_assertReset (s : State) : ResetHeld (assertReset s) := fun _ => rfl

/-- With the block at its reset values an event is taken without a trace: the delay is 0 and stays so. -/
theorem resetHeld_takeEvent {s : State} (rest : List HostEvent) (hs : ResetHeld s) : ResetHeld (takeEvent rest s) := by
  intro hr
  have h : s = assertReset s := hs hr
  rw [h]
  rfl

theorem resetHeld_returnDraw {s : State} (hs : ResetHeld s) : ResetHeld (returnDraw s) := by
  intro hr
  have h : s = assertReset s := hs hr
  rw [h]
  rfl

theorem resetHeld_perform {e : HostEvent} {s t : State} (hs : ResetHeld s) (h : perform e s = .next t) : ResetHeld t := by
  cases hr : s.inReset with
  | false =>
    obtain ht | rfl := perform_inReset_false hr h
    · exact resetHeld_of_not_inReset ht
    · exact resetHeld_assertReset s
  | true =>
    obtain rfl | rfl | ht | rfl := perform_inReset hr h
    · exact resetHeld_returnDraw hs
    · exact hs
    · exact resetHeld_of_not_inReset ht
    · exact resetHeld_assertReset s

theorem step_keeps_resetHeld {s t : State} (h : step s = .next t) (hs : ResetHeld s) : ResetHeld t := by
  obtain ⟨hd, w, i, -, -, hx⟩ | ⟨hd, w, r, -, -, rfl⟩ | ⟨-, -, rfl⟩ | ⟨-, e, rest, -, hp⟩ := step_cases h
  · refine resetHeld_of_not_inReset ?_
    obtain ⟨u, hu, rfl⟩ | ⟨e, -, rfl⟩ := exec_cases hx
    · exact (effect_inReset (effect_of_ruleOf hu)).trans (engineDue_pend hd).2
    · exact (engineDue_pend hd).2
  · exact resetHeld_of_not_inReset (engineDue_pend hd).2
  · exact hs
  · exact resetHeld_perform (resetHeld_takeEvent rest hs) hp

/-- Settles O58: every write lands inside its store, and in reset a step touches only what belongs to the host. -/
theorem stepKeepsStoresAndReset : Obligations.StepKeepsStoresAndReset :=
  fun _ _ h => ⟨step_keeps_storeInv h, step_keeps_resetHeld h⟩

end Sys2Proof.Machine

end

/-! BUILD's arena is a strict binary tree (42_tree_builder.md R95 to R101): the leaves in ascending symbol order, then the
merge loop with its invariant. -/
section

namespace Sys2Proof.Machine

/-! The leaves (R96): one for each symbol with a count, in ascending order. -/

/-- The leaf of symbol number `k`. -/
def leafOf (s : State) (k : Nat) : Node := .leaf (BitVec.ofNat 8 k) (s.freqAt (BitVec.ofNat 8 k))

/-- The numbers of the symbols that have a count. -/
def countedSyms (s : State) : List Nat := (List.range Config.nsym).filter fun k => decide (s.freqAt (BitVec.ofNat 8 k) ≠ 0)

theorem leaves_eq_map (s : State) : leaves s = (countedSyms s).map (leafOf s) := by
  unfold leaves countedSyms
  induction List.range Config.nsym with
  | nil => rfl
  | cons k ks ih =>
    rw [List.filterMap_cons, List.filter_cons, ih]
    by_cases h : s.freqAt (BitVec.ofNat 8 k) = 0
    · rw [if_pos h, if_neg (by simpa using h)]
    · rw [if_neg h, if_pos (by simpa using h)]
      rfl

theorem leaves_length (s : State) : (leaves s).length = freqEntries s := by
  rw [leaves_eq_map, List.length_map]
  rfl

theorem leaves_length_pos {s : State} (hs : FreqInv s) (hn : s.ndist ≠ 0) : 1 ≤ (leaves s).length := by
  have : s.ndist.toNat ≠ 0 := fun h0 => hn (BitVec.eq_of_toNat_eq h0)
  rw [leaves_length, ← hs.ndist]
  omega

theorem mem_countedSyms {s : State} {k : Nat} :
    k ∈ countedSyms s ↔ k < Config.nsym ∧ s.freqAt (BitVec.ofNat 8 k) ≠ 0 := by
  simp [countedSyms]

theorem countedSyms_pairwise (s : State) : (countedSyms s).Pairwise (· < ·) :=
  List.pairwise_lt_range.filter _

/-- Every leaf is one, with a positive frequency. -/
theorem leaf_of_mem_leaves {s : State} {x : Node} (h : x ∈ leaves s) : x.isLeaf = true ∧ x.freq ≠ 0 := by
  rw [leaves_eq_map] at h
  obtain ⟨k, hk, rfl⟩ := List.mem_map.mp h
  exact ⟨rfl, (mem_countedSyms.mp hk).2⟩

theorem leaves_pairwise (s : State) : (leaves s).Pairwise fun x y => x.sym < y.sym := by
  rw [leaves_eq_map, List.pairwise_map]
  refine (countedSyms_pairwise s).imp_of_mem fun {j k} hj hk hjk => ?_
  have hj : j < 256 := (mem_countedSyms.mp hj).1
  have hk : k < 256 := (mem_countedSyms.mp hk).1
  simp only [leafOf, Node.sym, BitVec.lt_def, BitVec.toNat_ofNat]
  omega

/-- The frequencies of the leaves sum to the counts. -/
theorem leaves_sum (s : State) : ((leaves s).map fun x => x.freq.toNat).sum = freqSum s := by
  rw [leaves_eq_map, List.map_map]
  unfold countedSyms freqSum
  induction List.range Config.nsym with
  | nil => rfl
  | cons k ks ih =>
    rw [List.map_cons, List.sum_cons, ← ih, List.filter_cons]
    by_cases h : s.freqAt (BitVec.ofNat 8 k) = 0
    · rw [if_neg (by simpa using h), h]
      exact (Nat.zero_add _).symm
    · rw [if_pos (by simpa using h)]
      rfl

/-! The arena while it grows. -/

/-- How many child fields of a node name node `i`. -/
def Node.names (x : Node) (i : Nat) : Nat :=
  if x.isLeaf then 0 else (if (x.child false).toNat = i then 1 else 0) + (if (x.child true).toNat = i then 1 else 0)

/-- How many child fields of the arena name node `i`. -/
def ownerCount (arena : List Node) (i : Nat) : Nat := (arena.map fun x => x.names i).sum

theorem ownerCount_append (arena : List Node) (x : Node) (i : Nat) :
    ownerCount (arena ++ [x]) i = ownerCount arena i + x.names i := by
  simp [ownerCount]

theorem ownerCount_eq_zero_of_leaves {arena : List Node} (h : ∀ x ∈ arena, x.isLeaf = true) (i : Nat) :
    ownerCount arena i = 0 := by
  unfold ownerCount
  rw [List.sum_eq_zero]
  intro k hk
  obtain ⟨x, hx, rfl⟩ := List.mem_map.mp hk
  simp [Node.names, h x hx]

theorem names_mergeNode {arena : List Node} {a b : Nat} (ha : a < 512) (hb : b < 512) (i : Nat) :
    (mergeNode arena a b).names i = (if a = i then 1 else 0) + (if b = i then 1 else 0) := by
  simp [mergeNode, Node.names, Node.isLeaf, Node.child, Nat.mod_eq_of_lt ha, Nat.mod_eq_of_lt hb]

theorem arenaFreq_append {arena : List Node} {i : Nat} (h : i < arena.length) (x : Node) :
    arenaFreq (arena ++ [x]) i = arenaFreq arena i := by
  simp [arenaFreq, List.getElem?_append_left h]

theorem arenaFreq_append_length (arena : List Node) (x : Node) : arenaFreq (arena ++ [x]) arena.length = x.freq := by
  simp [arenaFreq]

/-- What a merge made (R98, R101): the node at `i` has two different children of smaller id and their exact sum. -/
def MergedAt (arena : List Node) (i : Nat) : Prop :=
  ∃ a b, a < i ∧ b < i ∧ a ≠ b ∧ arena[i]? = some (mergeNode arena a b) ∧
    (arenaFreq arena a).toNat + (arenaFreq arena b).toNat < 2 ^ 32

theorem MergedAt.append {arena : List Node} {i : Nat} (h : MergedAt arena i) (hi : i < arena.length) (x : Node) :
    MergedAt (arena ++ [x]) i := by
  obtain ⟨a, b, ha, hb, hab, hx, hsum⟩ := h
  refine ⟨a, b, ha, hb, hab, ?_, ?_⟩
  · rw [List.getElem?_append_left hi, hx]
    simp only [mergeNode, arenaFreq_append (ha.trans hi), arenaFreq_append (hb.trans hi)]
  · rwa [arenaFreq_append (ha.trans hi), arenaFreq_append (hb.trans hi)]

theorem mergedAt_append_length {arena : List Node} {a b : Nat} (ha : a < arena.length) (hb : b < arena.length) (hab : a ≠ b)
    (hsum : (arenaFreq arena a).toNat + (arenaFreq arena b).toNat < 2 ^ 32) :
    MergedAt (arena ++ [mergeNode arena a b]) arena.length := by
  refine ⟨a, b, ha, hb, hab, ?_, ?_⟩
  · rw [List.getElem?_concat_length]
    simp only [mergeNode, arenaFreq_append ha, arenaFreq_append hb]
  · rwa [arenaFreq_append ha, arenaFreq_append hb]

/-! The merge loop. -/

/-- What every merge keeps, the loop keeps; and it ends with at most one element in the set (R99). -/
theorem mergeLoop_induction {P : List Node → List Nat → Prop}
    (hstep : ∀ arena h a b, minKey arena h = some a → minKey arena (h.erase a) = some b → P arena h →
      P (arena ++ [mergeNode arena a b]) ((h.erase a).erase b ++ [arena.length]))
    (fuel : Nat) {arena : List Node} {h : List Nat} (hP : P arena h) (hfuel : h.length ≤ fuel + 1) :
    ∃ h', P (mergeLoop fuel arena h) h' ∧ h'.length ≤ 1 := by
  induction fuel generalizing arena h with
  | zero => exact ⟨h, hP, hfuel⟩
  | succ fuel ih =>
    by_cases hl : h.length ≤ 1
    · rw [mergeLoop_short _ _ hl]
      exact ⟨h, hP, hl⟩
    · have hne : h ≠ [] := by rintro rfl; simp at hl
      obtain ⟨a, ha⟩ := Option.ne_none_iff_exists'.mp (mt minKey_eq_none.mp hne : minKey arena h ≠ none)
      have hla := List.length_erase_of_mem (minKey_spec ha).1
      have hne' : h.erase a ≠ [] := by intro h0; rw [h0] at hla; simp at hla; omega
      obtain ⟨b, hb⟩ := Option.ne_none_iff_exists'.mp (mt minKey_eq_none.mp hne' : minKey arena (h.erase a) ≠ none)
      have hlb := List.length_erase_of_mem (minKey_spec hb).1
      rw [mergeLoop_merge fuel arena ha hb]
      exact ih (hstep arena h a b ha hb hP) (by simp [hla, hlb]; omega)

/-- The invariant of the merge loop over `n` leaves: the set holds exactly the nodes no other node owns, its frequencies have
room in a count, and every node from `n` on is a merge. -/
structure MergeInv (n : Nat) (arena : List Node) (h : List Nat) : Prop where
  nodup : h.Nodup
  size : arena.length + h.length = 2 * n
  leafCount : n ≤ arena.length
  newest : arena.length - 1 ∈ h
  room : (h.map fun x => (arenaFreq arena x).toNat).sum < 2 ^ 32
  merged : ∀ i, n ≤ i → i < arena.length → MergedAt arena i
  inSet : ∀ x ∈ h, x < arena.length
  owned : ∀ i, ownerCount arena i = if i ∈ h ∨ arena.length ≤ i then 0 else 1

theorem mergeInv_leaves {s : State} (hs : FreqInv s) (hn : s.ndist ≠ 0) :
    MergeInv (leaves s).length (leaves s) (List.range (leaves s).length) where
  nodup := List.nodup_range
  size := by rw [List.length_range]; omega
  leafCount := le_rfl
  newest := List.mem_range.mpr (by have := leaves_length_pos hs hn; omega)
  room := by
    have hmap : ((List.range (leaves s).length).map fun x => (arenaFreq (leaves s) x).toNat) =
        (leaves s).map fun x => x.freq.toNat :=
      List.ext_getElem (by simp) fun i hi _ => by simp at hi; simp [arenaFreq, hi]
    rw [hmap, leaves_sum, ← hs.total]
    exact s.total.isLt
  merged := fun i h1 h2 => absurd h1 (by omega)
  inSet := fun x hx => List.mem_range.mp hx
  owned := fun i => by
    rw [ownerCount_eq_zero_of_leaves fun x hx => (leaf_of_mem_leaves hx).1, if_pos]
    rw [List.mem_range]
    omega

/-- Taking two different elements out of a set splits its sum. -/
theorem sum_erase_erase {h : List Nat} {a b : Nat} (ha : a ∈ h) (hb : b ∈ h.erase a) (f : Nat → Nat) :
    (h.map f).sum = f a + f b + (((h.erase a).erase b).map f).sum := by
  rw [← List.sum_map_erase f ha, ← List.sum_map_erase f hb, Nat.add_assoc]

theorem mergeInv_merge {n : Nat} (hn : n ≤ 256) {arena : List Node} {h : List Nat} {a b : Nat}
    (ha : minKey arena h = some a) (hb : minKey arena (h.erase a) = some b) (hI : MergeInv n arena h) :
    MergeInv n (arena ++ [mergeNode arena a b]) ((h.erase a).erase b ++ [arena.length]) := by
  have hma := (minKey_spec ha).1
  have hmb := (minKey_spec hb).1
  obtain ⟨hba, hmb'⟩ := hI.nodup.mem_erase_iff.mp hmb
  have hla : a < arena.length := hI.inSet a hma
  have hlb : b < arena.length := hI.inSet b hmb'
  have hsize := hI.size
  have hlen := length_erase_erase hI.nodup hma hmb' hba.symm
  have hlen2 : 2 ≤ h.length := by
    have h1 := List.length_erase_of_mem hma
    have h2 := List.length_pos_of_mem hmb
    omega
  have hsum := sum_erase_erase hma hmb fun x => (arenaFreq arena x).toNat
  have hroom := hI.room
  obtain ⟨hnd, hin⟩ := mergeSet_next (b := b) (a := a) (n := mergeNode arena a b) hI.nodup hI.inSet
  have hmem : ∀ i, i ∈ (h.erase a).erase b ↔ i ≠ b ∧ i ≠ a ∧ i ∈ h := fun i => by
    rw [(hI.nodup.erase a).mem_erase_iff, hI.nodup.mem_erase_iff]
  refine { nodup := hnd, size := ?size, leafCount := ?leafCount, newest := ?newest, room := ?room, merged := ?merged
           inSet := hin, owned := ?owned }
  case size => simp only [List.length_append, List.length_singleton, hlen]; omega
  case leafCount => have := hI.leafCount; simp only [List.length_append]; omega
  case newest => simp
  case room =>
    have hrest : (((h.erase a).erase b).map fun x => (arenaFreq (arena ++ [mergeNode arena a b]) x).toNat) =
        ((h.erase a).erase b).map fun x => (arenaFreq arena x).toNat :=
      List.map_congr_left fun x hx => by rw [arenaFreq_append (hI.inSet x ((hmem x).mp hx).2.2)]
    rw [List.map_append, List.sum_append, hrest]
    simp only [List.map_singleton, List.sum_singleton, arenaFreq_append_length, mergeNode, Node.freq, BitVec.toNat_add]
    rw [Nat.mod_eq_of_lt (by omega)]
    omega
  case merged =>
    intro i hni hi
    rw [List.length_append, List.length_singleton] at hi
    by_cases hlt : i < arena.length
    · exact (hI.merged i hni hlt).append hlt _
    · obtain rfl : i = arena.length := by omega
      exact mergedAt_append_length hla hlb hba.symm (by omega)
  case owned =>
    intro i
    rw [ownerCount_append, hI.owned, names_mergeNode (by omega) (by omega)]
    simp only [List.mem_append, List.mem_singleton, hmem, List.length_append, List.length_singleton]
    by_cases hia : a = i
    · subst hia
      simp [hma, hba.symm, hba, hla.ne, hla.le]
    · by_cases hib : b = i
      · subst hib
        simp [hmb', hba, hia, hlb.ne, hlb.le]
      · by_cases hih : i ∈ h
        · simp [hih, Ne.symm hia, Ne.symm hib, hia, hib]
        · have hnew : arena.length ≤ i ↔ i = arena.length ∨ arena.length < i := by omega
          simp [hih, hia, hib, hnew]

/-- BUILD's arena at the end of the loop: the set holds the last node alone (R99). -/
theorem mergeInv_buildArena {s : State} (hs : FreqInv s) (hn : s.ndist ≠ 0) :
    MergeInv (leaves s).length (buildArena s) [2 * (leaves s).length - 2] := by
  obtain ⟨h, hI, hl⟩ := mergeLoop_induction (P := MergeInv (leaves s).length)
    (fun _ _ _ _ => mergeInv_merge (leaves_length_le s)) (leaves s).length (mergeInv_leaves hs hn) (by simp)
  have hlen := buildArena_length s
  have hnew := hI.newest
  change (buildArena s).length - 1 ∈ h at hnew
  obtain ⟨x, rfl⟩ : ∃ x, h = [x] := List.length_eq_one_iff.mp (by have := List.length_pos_of_mem hnew; omega)
  rw [List.mem_singleton, hlen] at hnew
  obtain rfl : 2 * (leaves s).length - 2 = x := by omega
  exact hI

end Sys2Proof.Machine

end

/-! 10_state.md R41, R45, R46: BUILD commits a held tree, the decoder stays on it, and every other step leaves it alone or
drops it. -/
section

namespace Sys2Proof.Machine

theorem nodeAt_eq_nodeNo (s : State) (x : NodeId) : s.nodeAt x = s.nodeNo x.toNat := rfl

/-! What BUILD leaves (42_tree_builder.md R95), read through the arena. -/

theorem toNat_commitTree_treeN (s : State) : (commitTree s).treeN.toNat = (leaves s).length := by
  have hle : (leaves s).length ≤ 256 := leaves_length_le s
  rw [commitTree_treeN, BitVec.toNat_ofNat, Nat.mod_eq_of_lt (by omega)]

theorem toNat_commitTree_root (s : State) : (commitTree s).root.toNat = 2 * (leaves s).length - 2 := by
  have hle : (leaves s).length ≤ 256 := leaves_length_le s
  rw [commitTree_root, buildArena_length, BitVec.toNat_ofNat, Nat.mod_eq_of_lt (by omega)]
  omega

theorem nodeNo_commitTree {s : State} {i : Nat} (hi : i < (buildArena s).length) :
    (commitTree s).nodeNo i = (buildArena s)[i] := by
  unfold State.nodeNo
  rw [nodeRead_commitTree, if_pos hi, List.getD_eq_getElem _ _ hi]

theorem arenaFreq_eq_nodeNo {s : State} {i : Nat} (hi : i < (buildArena s).length) :
    arenaFreq (buildArena s) i = ((commitTree s).nodeNo i).freq := by
  rw [nodeNo_commitTree hi, arenaFreq, List.getD_eq_getElem _ _ hi]

/-- The nodes below n are the leaves, in their order (R96). -/
theorem nodeNo_commitTree_leaf {s : State} {i : Nat} (hi : i < (leaves s).length) :
    (commitTree s).nodeNo i = (leaves s)[i] := by
  have hp := leaves_prefix_buildArena s
  rw [nodeNo_commitTree (hi.trans_le hp.length_le), hp.getElem hi]

section Commit

variable {s : State} (hs : FreqInv s) (hn : s.ndist ≠ 0)
include hs hn

/-- The nodes from n on are merges (R98, R101). -/
theorem mergedAt_buildArena {i : Nat} (hni : (leaves s).length ≤ i) (hi : i < (buildArena s).length) :
    ∃ a b, a < i ∧ b < i ∧ a ≠ b ∧ (commitTree s).nodeNo i = mergeNode (buildArena s) a b ∧
      (arenaFreq (buildArena s) a).toNat + (arenaFreq (buildArena s) b).toNat < 2 ^ 32 := by
  obtain ⟨a, b, ha, hb, hab, hx, hsum⟩ := (mergeInv_buildArena hs hn).merged i hni hi
  refine ⟨a, b, ha, hb, hab, ?_, hsum⟩
  rw [nodeNo_commitTree hi]
  exact Option.some.inj ((List.getElem?_eq_getElem hi).symm.trans hx)

/-- The children fields over the committed nodes are those of the arena. -/
theorem parentCount_commitTree (i : Nat) : parentCount (commitTree s) i = ownerCount (buildArena s) i := by
  have hlen : (commitTree s).root.toNat + 1 = (buildArena s).length := by
    have := leaves_length_pos hs hn
    rw [toNat_commitTree_root, buildArena_length]
    omega
  unfold parentCount ownerCount
  rw [hlen]
  congr 1
  refine List.ext_getElem (by simp) fun k hk _ => ?_
  have hk : k < (buildArena s).length := by simpa using hk
  simp only [List.getElem_map, List.getElem_range, nodeNo_commitTree hk]
  rfl

theorem internal_commitTree {i : Nat} (hni : (leaves s).length ≤ i) (hi : i < (buildArena s).length) :
    ((commitTree s).nodeNo i).isLeaf = false ∧ (((commitTree s).nodeNo i).child false).toNat < i ∧
      (((commitTree s).nodeNo i).child true).toNat < i ∧
      ((commitTree s).nodeNo i).child false ≠ ((commitTree s).nodeNo i).child true ∧
      ((commitTree s).nodeNo i).freq.toNat =
        ((commitTree s).nodeAt (((commitTree s).nodeNo i).child false)).freq.toNat +
          ((commitTree s).nodeAt (((commitTree s).nodeNo i).child true)).freq.toNat := by
  obtain ⟨a, b, ha, hb, hab, hx, hsum⟩ := mergedAt_buildArena hs hn hni hi
  have hlen : (buildArena s).length ≤ 511 := buildArena_length_le s
  have hat : (BitVec.ofNat 9 a).toNat = a := by rw [BitVec.toNat_ofNat, Nat.mod_eq_of_lt (by omega)]
  have hbt : (BitVec.ofNat 9 b).toNat = b := by rw [BitVec.toNat_ofNat, Nat.mod_eq_of_lt (by omega)]
  have hfa : (commitTree s).nodeAt (BitVec.ofNat 9 a) = (commitTree s).nodeNo a := by rw [nodeAt_eq_nodeNo, hat]
  have hfb : (commitTree s).nodeAt (BitVec.ofNat 9 b) = (commitTree s).nodeNo b := by rw [nodeAt_eq_nodeNo, hbt]
  rw [hx]
  simp only [mergeNode, Node.isLeaf, Node.child, Node.freq.eq_2, hat, hbt, hfa, hfb]
  refine ⟨trivial, ha, hb, fun h => hab ?_, ?_⟩
  · rw [← hat, ← hbt, h]
  · rw [← arenaFreq_eq_nodeNo (ha.trans hi), ← arenaFreq_eq_nodeNo (hb.trans hi), BitVec.toNat_add, Nat.mod_eq_of_lt hsum]

/-- BUILD leaves a strict binary tree in the arena (R96 to R101). -/
theorem heldTree_commitTree : HeldTree (commitTree s) := by
  have hpos := leaves_length_pos hs hn
  have hlen := buildArena_length s
  refine { size := ?size, root := ?root, leaf := ?leaf, order := ?order, internal := ?internal, parent := ?parent }
  case size => rw [toNat_commitTree_treeN]; exact ⟨hpos, leaves_length_le s⟩
  case root => rw [toNat_commitTree_treeN, toNat_commitTree_root]
  case leaf =>
    rw [toNat_commitTree_treeN]
    intro i hi
    rw [nodeNo_commitTree_leaf hi]
    exact leaf_of_mem_leaves (List.getElem_mem hi)
  case order =>
    rw [toNat_commitTree_treeN]
    intro j hj i hij
    rw [nodeNo_commitTree_leaf hj, nodeNo_commitTree_leaf (hij.trans hj)]
    exact List.pairwise_iff_getElem.mp (leaves_pairwise s) i j (hij.trans hj) hj hij
  case internal =>
    rw [toNat_commitTree_treeN, ← hlen]
    exact fun i hi hni => internal_commitTree hs hn hni hi
  case parent =>
    rw [toNat_commitTree_root]
    intro i hi
    rw [parentCount_commitTree hs hn, (mergeInv_buildArena hs hn).owned, if_neg]
    rw [List.mem_singleton]
    omega

end Commit

/-! The held tree, read node by node. -/

/-- The node is an internal node of the held tree. -/
def IsInternal (s : State) (x : NodeId) : Prop := s.treeN.toNat ≤ x.toNat ∧ x.toNat ≤ s.root.toNat

section Held

variable {s : State} (hT : HeldTree s)
include hT

/-- The two kinds of node of a held tree, by number (42_tree_builder.md R96, R99). -/
theorem HeldTree.isLeaf_iff {x : NodeId} (hx : x.toNat ≤ s.root.toNat) :
    (s.nodeAt x).isLeaf = true ↔ x.toNat < s.treeN.toNat := by
  have hsize := hT.size
  have hroot := hT.root
  constructor
  · intro hleaf
    by_contra hlt
    have hint := (hT.internal x.toNat (by omega) (by omega)).1
    exact absurd (hleaf.symm.trans hint) (by decide)
  · exact fun hlt => (hT.leaf x.toNat hlt).1

theorem HeldTree.isInternal_iff {x : NodeId} (hx : x.toNat ≤ s.root.toNat) :
    IsInternal s x ↔ (s.nodeAt x).isLeaf = false := by
  rw [← Bool.not_eq_true, hT.isLeaf_iff hx, IsInternal]
  omega

/-- With two leaves or more the root is an internal node. -/
theorem HeldTree.isInternal_root (h1 : s.treeN ≠ 1) : IsInternal s s.root := by
  have hsize := hT.size
  have hroot := hT.root
  have : s.treeN.toNat ≠ 1 := fun h => h1 (BitVec.eq_of_toNat_eq h)
  exact ⟨by omega, le_rfl⟩

/-- A child has a smaller number than its node (42_tree_builder.md R101). -/
theorem HeldTree.child_lt {x : NodeId} (hx : IsInternal s x) (b : Bool) : ((s.nodeAt x).child b).toNat < x.toNat := by
  obtain ⟨hlo, hhi⟩ := hx
  have hroot := hT.root
  have hsize := hT.size
  obtain ⟨-, hl, hr, -⟩ := hT.internal x.toNat (by omega) hlo
  cases b
  · exact hl
  · exact hr

/-- A step of the walk that emits nothing goes from an internal node to an internal node (44_decoder.md R116). -/
theorem HeldTree.isInternal_decStep {c cur : NodeId} {b : Bool} (hc : s.treeN ≠ 1 → IsInternal s c)
    (h : decStep s c b = .ok (cur, none)) : IsInternal s cur := by
  unfold decStep at h
  split at h
  · split at h
    · cases h
    · cases h
  · rename_i h1
    have hlt := hT.child_lt (hc h1) b
    have hle := (hc h1).2
    split at h
    · cases h
    · rename_i f l r hnode
      obtain rfl : (s.nodeAt c).child b = cur := by simpa using h
      rw [hT.isInternal_iff (by omega), hnode]
      rfl

end Held

/-! The invariant. -/

theorem CursorInTree.isInternal {s : State} (hc : CursorInTree s) (hT : HeldTree s) (h1 : s.treeN ≠ 1) :
    IsInternal s s.cursor := by
  obtain hc | hc := hc
  · exact hc ▸ hT.isInternal_root h1
  · exact hc

theorem nodeNo_congr {s t : State} (h : t.node = s.node) (i : Nat) : t.nodeNo i = s.nodeNo i := by
  unfold State.nodeNo
  rw [h]

theorem HeldTree.congr {s t : State} (hT : HeldTree s) (h : SameTree s t) : HeldTree t := by
  have hno := nodeNo_congr h.node
  have hat := State.nodeAt_congr h.node
  refine ⟨?_, ?_, ?_, ?_, ?_, ?_⟩
  · rw [h.treeN]; exact hT.size
  · rw [h.treeN, h.root]; exact hT.root
  · simp only [hno, h.treeN]; exact hT.leaf
  · simp only [hno, h.treeN]; exact hT.order
  · simp only [hno, hat, h.treeN]; exact hT.internal
  · simp only [parentCount, hno, h.root]; exact hT.parent

/-- The tree's invariant with the cursor moved, and CODES_VALID as it was or a tree held. -/
theorem TreeInv.congr {s t : State} (hs : TreeInv s) (h : SameTree s t)
    (hcodes : s.treeValid = false → s.codesValid = false → t.codesValid = false)
    (hnone : s.treeValid = false → t.cursor = s.cursor) (hheld : s.treeValid = true → CursorInTree t) : TreeInv t where
  none hv := by
    rw [h.treeValid] at hv
    obtain ⟨hn, hr, hc, hcv⟩ := hs.none hv
    exact ⟨h.treeN.trans hn, h.root.trans hr, (hnone hv).trans hc, hcodes hv hcv⟩
  held hv := (hs.held (h.treeValid.symm.trans hv)).congr h
  cursor hv := hheld (h.treeValid.symm.trans hv)

theorem CursorInTree.congr {s t : State} (hs : CursorInTree s) (h : SameTree s t) (hc : t.cursor = s.cursor) :
    CursorInTree t := by
  unfold CursorInTree
  rw [h.treeN, h.root, hc]
  exact hs

theorem TreeInv.congr_block {s t : State} (hs : TreeInv s) (h : SameBlock s t) : TreeInv t :=
  hs.congr h.tree (fun _ hcv => h.codes.codesValid.trans hcv) (fun _ => h.cursor)
    (fun hv => (hs.cursor hv).congr h.tree h.cursor)

theorem treeInv_of_noTree {s : State} (hv : s.treeValid = false) (h : NoTreeForm s) : TreeInv s where
  none _ := h
  held hv' := by rw [hv] at hv'; cases hv'
  cursor hv' := by rw [hv] at hv'; cases hv'

theorem treeInv_homeDecoder {s : State} (hs : TreeInv s) : TreeInv (homeDecoder s) := by
  refine hs.congr ⟨rfl, rfl, rfl, rfl⟩ (fun _ hcv => hcv) (fun hv => ?_) (fun _ => .inl rfl)
  obtain ⟨-, hr, hc, -⟩ := hs.none hv
  exact hr.trans hc.symm

theorem treeInv_clrRule {s : State} (mask : BitVec 6) (hs : TreeInv s) : TreeInv (clrRule mask s) := by
  refine clrRule_keeps (P := TreeInv) (fun _ u hu => ?_) (fun u _ => ?_) (fun u hu => ?_) (fun u hu => ?_) (fun u hu => ?_)
    (fun u hu => treeInv_homeDecoder hu) hs
  · exact hu.congr ⟨rfl, rfl, rfl, rfl⟩ (fun _ hcv => hcv) (fun _ => rfl) hu.cursor
  · exact treeInv_of_noTree rfl ⟨rfl, rfl, rfl, rfl⟩
  · exact hu.congr ⟨rfl, rfl, rfl, rfl⟩ (fun _ _ => rfl) (fun _ => rfl) hu.cursor
  · exact hu.congr ⟨rfl, rfl, rfl, rfl⟩ (fun _ hcv => hcv) (fun _ => rfl) hu.cursor
  · exact hu.congr ⟨rfl, rfl, rfl, rfl⟩ (fun _ hcv => hcv) (fun _ => rfl) hu.cursor

theorem treeInv_commitTree {s : State} (hf : FreqInv s) (hn : s.ndist ≠ 0) : TreeInv (commitTree s) where
  none hv := by cases hv
  held _ := heldTree_commitTree hf hn
  cursor _ := .inl rfl

theorem treeInv_effect {s u : State} {i : Instr} (hf : FreqInv s) (hs : TreeInv s) (h : Effect s i u) : TreeInv u := by
  cases h with
  | none => exact hs
  | clear mask => exact treeInv_clrRule mask hs
  | build hn => exact treeInv_commitTree hf hn
  | derive hv =>
    exact hs.congr ⟨rfl, rfl, rfl, rfl⟩ (fun hv' => absurd (hv.symm.trans hv') (by decide)) (fun _ => rfl) hs.cursor
  | decode _ hv hcur _ =>
    have hT := hs.held hv
    refine hs.congr ⟨rfl, rfl, rfl, rfl⟩ (fun _ hcv => hcv) (fun hv' => absurd (hv.symm.trans hv') (by decide)) (fun _ => ?_)
    obtain rfl | ⟨b, hstep⟩ := hcur
    · exact .inl rfl
    · exact .inr (hT.isInternal_decStep ((hs.cursor hv).isInternal hT) hstep)
  | count | write | encode | readback =>
    exact hs.congr ⟨rfl, rfl, rfl, rfl⟩ (fun _ hcv => hcv) (fun _ => rfl) hs.cursor

theorem treeInv_resetWith (p : Params) : TreeInv (State.resetWith p) := treeInv_of_noTree rfl ⟨rfl, rfl, rfl, rfl⟩

/-- Settles O56: BUILD commits the merge loop's arena, DECBIT moves along it, CLR T drops it, and nothing else touches it. -/
theorem stepKeepsTree : Obligations.StepKeepsTree := by
  intro s t hf hs h
  exact step_keeps (P := TreeInv) (fun _ _ huv _ hu => hu.congr_block huv) treeInv_resetWith
    (fun _ _ => treeInv_effect hf hs) hs h

end Sys2Proof.Machine

end

/-! 10_state.md R42: DERIVE writes exactly the codes of the held tree's leaves (43_encoder.md R105 to R107). -/
section

namespace Sys2Proof.Machine

/-! Paths in the held tree. -/

theorem followBits_append_singleton (s : State) (x : NodeId) (bs : List Bool) (b : Bool) :
    followBits s x (bs ++ [b]) =
      (followBits s x bs).bind fun y => if (s.nodeAt y).isLeaf then none else some ((s.nodeAt y).child b) := by
  induction bs generalizing x with
  | nil => rfl
  | cons c rest ih =>
    rw [List.cons_append, followBits, followBits]
    split
    · rfl
    · exact ih _

/-- A path ends where its last step goes. -/
theorem followBits_snoc {s : State} {x y : NodeId} {bs : List Bool} (h : followBits s x bs = some y)
    (hy : (s.nodeAt y).isLeaf = false) (b : Bool) : followBits s x (bs ++ [b]) = some ((s.nodeAt y).child b) := by
  rw [followBits_append_singleton, h, Option.bind_some, if_neg (by simp [hy])]

section Held

variable {s : State} (hT : HeldTree s)
include hT

/-- Every step of a path lowers the node's number. -/
theorem HeldTree.followBits_le {x y : NodeId} {bs : List Bool} (hx : x.toNat ≤ s.root.toNat)
    (h : followBits s x bs = some y) : y.toNat + bs.length ≤ x.toNat := by
  induction bs generalizing x with
  | nil =>
    obtain rfl : x = y := by simpa [followBits] using h
    simp
  | cons b rest ih =>
    rw [followBits] at h
    split at h
    · cases h
    · rename_i hleaf
      have hlt := hT.child_lt ((hT.isInternal_iff hx).mpr (by simpa using hleaf)) b
      have := ih (by omega) h
      rw [List.length_cons]
      omega

/-- An internal node is fewer than 255 steps below the root (42_tree_builder.md R102). -/
theorem HeldTree.inner_path_length {y : NodeId} {bs : List Bool} (h : followBits s s.root bs = some y)
    (hy : (s.nodeAt y).isLeaf = false) : bs.length < Config.lmax := by
  have hle := hT.followBits_le le_rfl h
  have hlo := ((hT.isInternal_iff (by omega)).mpr hy).1
  have hroot := hT.root
  obtain ⟨-, hsize⟩ := hT.size
  have hnsym : Config.nsym = 256 := rfl
  have hlmax : Config.lmax = 255 := rfl
  omega

/-- The path of a leaf, where the tree has two or more, is 1 to 255 steps long (43_encoder.md R106). -/
theorem HeldTree.path_length (h1 : s.treeN ≠ 1) {x : NodeId} {bs : List Bool} (h : followBits s s.root bs = some x)
    (hx : (s.nodeAt x).isLeaf = true) : 1 ≤ bs.length ∧ bs.length ≤ Config.lmax := by
  obtain rfl | ⟨pre, b, rfl⟩ := List.eq_nil_or_concat bs
  · obtain rfl : s.root = x := by simpa [followBits] using h
    have := (hT.isInternal_iff le_rfl).mp (hT.isInternal_root h1)
    rw [hx] at this
    cases this
  · rw [List.concat_eq_append, followBits_append_singleton] at h
    obtain ⟨y, hy, hchild⟩ := Option.bind_eq_some_iff.mp h
    split at hchild
    · cases hchild
    · rename_i hleaf
      have := hT.inner_path_length hy (by simpa using hleaf)
      rw [List.concat_eq_append, List.length_append, List.length_singleton]
      omega

/-- Every node but the root is the child of an internal node of larger number. -/
theorem HeldTree.exists_parent {i : Nat} (hi : i < s.root.toNat) :
    ∃ p : NodeId, ∃ b, IsInternal s p ∧ ((s.nodeAt p).child b).toNat = i := by
  by_contra hno
  push Not at hno
  have hzero : parentCount s i = 0 := by
    unfold parentCount
    refine List.sum_eq_zero fun k hk => ?_
    obtain ⟨p, hp, rfl⟩ := List.mem_map.mp hk
    have hp : p ≤ s.root.toNat := Nat.lt_succ_iff.mp (List.mem_range.mp hp)
    have hpt : (BitVec.ofNat 9 p).toNat = p := by
      have := s.root.isLt
      rw [BitVec.toNat_ofNat, Nat.mod_eq_of_lt (by omega)]
    have hnode : s.nodeAt (BitVec.ofNat 9 p) = s.nodeNo p := by rw [nodeAt_eq_nodeNo, hpt]
    split
    · rfl
    · rename_i hleaf
      have hint := (hT.isInternal_iff (x := BitVec.ofNat 9 p) (by omega)).mpr (by simpa [hnode] using hleaf)
      have hl := hno _ false hint
      have hr := hno _ true hint
      rw [hnode] at hl hr
      rw [if_neg hl, if_neg hr, Nat.add_zero]
  rw [hT.parent i hi] at hzero
  cases hzero

/-- Every node of the held tree is reached from the root. -/
theorem HeldTree.reachable {x : NodeId} (hx : x.toNat ≤ s.root.toNat) : ∃ bs, followBits s s.root bs = some x := by
  induction hk : s.root.toNat - x.toNat using Nat.strong_induction_on generalizing x with
  | _ k ih =>
    by_cases hroot : x.toNat = s.root.toNat
    · exact ⟨[], by rw [followBits, BitVec.eq_of_toNat_eq hroot]⟩
    · obtain ⟨p, b, hp, hchild⟩ := hT.exists_parent (i := x.toNat) (by omega)
      have hlt := hT.child_lt hp b
      have hle := hp.2
      obtain ⟨bs, hbs⟩ := ih (s.root.toNat - p.toNat) (by omega) hle rfl
      refine ⟨bs ++ [b], ?_⟩
      rw [followBits_snoc hbs ((hT.isInternal_iff hle).mp hp), BitVec.eq_of_toNat_eq hchild]

end Held

/-! Codes as bit strings. -/

/-- The stored bits are the bit string, with every higher bit 0. -/
def SpellsPath (path : CodeBits) (bs : List Bool) : Prop := ∀ j, path.getLsbD j = bs.getD j false

theorem spellsPath_zero : SpellsPath 0 [] := fun j => by simp

theorem SpellsPath.left {path : CodeBits} {bs : List Bool} (h : SpellsPath path bs) : SpellsPath path (bs ++ [false]) := by
  intro j
  rw [h j]
  obtain hj | rfl | hj := Nat.lt_trichotomy j bs.length
  · simp [List.getElem?_append_left hj]
  · simp
  · simp [List.getElem?_eq_none hj.le, List.getElem?_eq_none (show (bs ++ [false]).length ≤ j by simpa using hj)]

theorem SpellsPath.right {path : CodeBits} {bs : List Bool} (h : SpellsPath path bs) (hlen : bs.length < 256) :
    SpellsPath (path ||| 1#256 <<< bs.length) (bs ++ [true]) := by
  intro j
  rw [BitVec.getLsbD_or, h j, BitVec.getLsbD_shiftLeft]
  obtain hj | rfl | hj := Nat.lt_trichotomy j bs.length
  · simp [List.getElem?_append_left hj, hj]
  · simp [hlen]
  · have : j - bs.length ≠ 0 := by omega
    simp [List.getElem?_eq_none hj.le, List.getElem?_eq_none (show (bs ++ [true]).length ≤ j by simpa using hj), this]

theorem SpellsPath.toBits {path : CodeBits} {bs : List Bool} (h : SpellsPath path bs) (hlen : bs.length < 512) :
    Code.toBits { valid := true, len := BitVec.ofNat 9 bs.length, bits := path } = bs := by
  have hl : (BitVec.ofNat 9 bs.length).toNat = bs.length := by rw [BitVec.toNat_ofNat, Nat.mod_eq_of_lt hlen]
  refine List.ext_getElem (by simp [hl]) fun j hj hj' => ?_
  simp [Code.toBits, h j, hj']

/-! What DERIVE's walk writes. -/

/-- The entry is the code of a leaf of the held tree for symbol `x` (10_state.md R42; 43_encoder.md R106, R107). -/
structure LeafCode (s : State) (x : Sym) (c : Code) : Prop where
  leaf : HasLeaf s x
  path : IsCodeOf s x c.toBits
  length : 1 ≤ c.len.toNat ∧ c.len.toNat ≤ Config.lmax
  above : ∀ j, c.len.toNat ≤ j → c.bits.getLsbD j = false

/-- Every valid entry of the table is the code of a leaf. -/
def LeafCodes (s : State) (table : Memory Code) : Prop :=
  ∀ x : Sym, (table.read codeDefault x.toNat).valid = true → LeafCode s x (table.read codeDefault x.toNat)

theorem leafCodes_nil (s : State) : LeafCodes s [] := fun _ h => by cases h

theorem LeafCodes.write {s : State} {table : Memory Code} {x : Sym} {c : Code} (h : LeafCodes s table)
    (hc : LeafCode s x c) : LeafCodes s (table.write codeDefault x.toNat c) := by
  intro y
  by_cases hy : y = x
  · subst hy
    rw [Memory.read_write_same]
    exact fun _ => hc
  · rw [Memory.read_write_ne _ _ _ fun e => hy (BitVec.eq_of_toNat_eq e)]
    exact h y

/-- The entry the walk writes at a leaf it reaches is that leaf's code. -/
theorem HeldTree.leafCode {s : State} (hT : HeldTree s) (h1 : s.treeN ≠ 1) {x : NodeId} {bs : List Bool} {path : CodeBits}
    {sym : Sym} {f : Count} (hx : followBits s s.root bs = some x) (hnode : s.nodeAt x = .leaf sym f)
    (hpath : SpellsPath path bs) : LeafCode s sym { valid := true, len := BitVec.ofNat 9 bs.length, bits := path } := by
  have hleaf : (s.nodeAt x).isLeaf = true := by rw [hnode]; rfl
  have hle := hT.followBits_le le_rfl hx
  have hlen := hT.path_length h1 hx hleaf
  have hlmax : Config.lmax = 255 := rfl
  have hl : (BitVec.ofNat 9 bs.length).toNat = bs.length := by rw [BitVec.toNat_ofNat, Nat.mod_eq_of_lt (by omega)]
  refine ⟨⟨x.toNat, (hT.isLeaf_iff (by omega)).mp hleaf, ?_⟩, ?_, by rw [hl]; exact hlen, fun j hj => ?_⟩
  · rw [← nodeAt_eq_nodeNo, hnode]
    rfl
  · rw [hpath.toBits (by omega), IsCodeOf, if_neg h1, hx]
    simp [hnode, Node.isLeaf, Node.sym]
  · rw [hl] at hj
    rw [hpath j, List.getD_eq_default _ _ hj]

theorem HeldTree.leafCodes_walkCodes {s : State} (hT : HeldTree s) (h1 : s.treeN ≠ 1) (fuel : Nat) {x : NodeId}
    {bs : List Bool} {path : CodeBits} {table : Memory Code} (hx : followBits s s.root bs = some x)
    (hpath : SpellsPath path bs) (htable : LeafCodes s table) :
    LeafCodes s (walkCodes s fuel x bs.length path table) := by
  induction fuel generalizing x bs path table with
  | zero => exact htable
  | succ fuel ih =>
    unfold walkCodes
    split
    · rename_i sym f hnode
      exact htable.write (hT.leafCode h1 hx hnode hpath)
    · rename_i f l r hnode
      have hleaf : (s.nodeAt x).isLeaf = false := by rw [hnode]; rfl
      have hl := followBits_snoc hx hleaf false
      have hr := followBits_snoc hx hleaf true
      rw [hnode] at hl hr
      have hlen : bs.length < 256 := (hT.inner_path_length hx hleaf).trans (by decide)
      have ihl := ih hl hpath.left htable
      have ihr := ih hr (hpath.right hlen) (by rw [List.length_append, List.length_singleton] at ihl; exact ihl)
      rwa [List.length_append, List.length_singleton] at ihr

/-- The walk makes no entry invalid. -/
theorem walkCodes_valid_of_valid (s : State) (fuel : Nat) (x : NodeId) (depth : Nat) (path : CodeBits) {table : Memory Code}
    {a : Nat} (h : (table.read codeDefault a).valid = true) :
    ((walkCodes s fuel x depth path table).read codeDefault a).valid = true := by
  induction fuel generalizing x depth path table with
  | zero => exact h
  | succ fuel ih =>
    unfold walkCodes
    split
    · rw [Memory.read_write]
      split
      · rfl
      · exact h
    · exact ih _ _ _ (ih _ _ _ h)

/-- The walk writes an entry for every leaf its bound lets it reach. -/
theorem walkCodes_valid_of_reached (s : State) (fuel : Nat) {x y : NodeId} {bs : List Bool} (depth : Nat) (path : CodeBits)
    (table : Memory Code) (hy : followBits s x bs = some y) (hleaf : (s.nodeAt y).isLeaf = true) (hfuel : bs.length < fuel) :
    ((walkCodes s fuel x depth path table).read codeDefault (s.nodeAt y).sym.toNat).valid = true := by
  induction fuel generalizing x bs depth path table with
  | zero => omega
  | succ fuel ih =>
    unfold walkCodes
    cases bs with
    | nil =>
      obtain rfl : x = y := by simpa [followBits] using hy
      split
      · rename_i sym f hnode
        rw [hnode, Node.sym, Memory.read_write_same]
      · rename_i f l r hnode
        rw [hnode] at hleaf
        cases hleaf
    | cons b rest =>
      rw [List.length_cons] at hfuel
      rw [followBits] at hy
      split
      · rename_i sym f hnode
        rw [hnode] at hy
        cases hy
      · rename_i f l r hnode
        rw [hnode] at hy
        cases b with
        | false => exact walkCodes_valid_of_valid s fuel r _ _ (ih _ _ _ hy (by omega))
        | true => exact ih _ _ _ hy (by omega)

/-- Every leaf's symbol has an entry in the table DERIVE writes, and every entry is a leaf's code. -/
theorem HeldTree.derivedTable_codes {s : State} (hT : HeldTree s) :
    LeafCodes s (derivedTable s) ∧
      ∀ x, HasLeaf s x → ((derivedTable s).read codeDefault x.toNat).valid = true := by
  have hroot := hT.root
  unfold derivedTable
  split
  · rename_i h1
    have hzero : s.nodeAt 0 = s.nodeNo 0 := rfl
    refine ⟨(leafCodes_nil s).write ⟨⟨0, by rw [h1]; decide, rfl⟩, ?_, by decide, fun j _ => by simp⟩, ?_⟩
    · rw [IsCodeOf, if_pos h1]
      exact ⟨rfl, by decide⟩
    · rintro x ⟨i, hi, rfl⟩
      rw [h1] at hi
      obtain rfl : i = 0 := by simpa using hi
      rw [hzero, Memory.read_write_same]
  · rename_i h1
    refine ⟨hT.leafCodes_walkCodes h1 _ (bs := []) rfl spellsPath_zero (leafCodes_nil s), ?_⟩
    rintro x ⟨i, hi, rfl⟩
    have hit : (BitVec.ofNat 9 i).toNat = i := by
      have := s.treeN.isLt
      rw [BitVec.toNat_ofNat, Nat.mod_eq_of_lt (by omega)]
    have hnode : s.nodeAt (BitVec.ofNat 9 i) = s.nodeNo i := by rw [nodeAt_eq_nodeNo, hit]
    have hleaf : (s.nodeAt (BitVec.ofNat 9 i)).isLeaf = true := by rw [hnode]; exact (hT.leaf i hi).1
    obtain ⟨bs, hbs⟩ := hT.reachable (x := BitVec.ofNat 9 i) (by omega)
    have hlen := (hT.path_length h1 hbs hleaf).2
    rw [← hnode]
    exact walkCodes_valid_of_reached s _ _ _ _ hbs hleaf (hlen.trans_lt (by decide))

/-! The invariant. -/

theorem followBits_congr {s t : State} (h : t.node = s.node) (x : NodeId) (bs : List Bool) :
    followBits t x bs = followBits s x bs := by
  induction bs generalizing x with
  | nil => rfl
  | cons b rest ih => simp only [followBits, State.nodeAt_congr h, ih]

theorem isCodeOf_congr {s t : State} (h : SameTree s t) (x : Sym) (bs : List Bool) : IsCodeOf t x bs ↔ IsCodeOf s x bs := by
  have hat : t.nodeAt = s.nodeAt := funext (State.nodeAt_congr h.node)
  simp only [IsCodeOf, hat, h.treeN, h.root, followBits_congr h.node]

theorem hasLeaf_congr {s t : State} (h : SameTree s t) (x : Sym) : HasLeaf t x ↔ HasLeaf s x := by
  simp only [HasLeaf, h.treeN, nodeNo_congr h.node]

theorem CodeInv.congr {s t : State} (hs : CodeInv s) (hT : SameTree s t) (hC : SameCodes s t) : CodeInv t := by
  have hat := State.codeAt_congr hC.code
  refine ⟨?_, ?_, ?_, ?_, ?_⟩
  · rw [hC.codesValid, hT.treeValid]; exact hs.tree
  · simp only [hC.codesValid, hat, hasLeaf_congr hT]; exact hs.exactly
  · simp only [hC.codesValid, hat, isCodeOf_congr hT]; exact hs.path
  · simp only [hC.codesValid, hat]; exact hs.length
  · simp only [hC.codesValid, hat]; exact hs.above

theorem codeInv_of_not_valid {s : State} (h : s.codesValid = false) : CodeInv s := by
  have hno : s.codesValid ≠ true := by simp [h]
  exact ⟨fun hv => absurd hv hno, fun hv => absurd hv hno, fun hv => absurd hv hno, fun hv => absurd hv hno,
    fun hv => absurd hv hno⟩

theorem codeInv_derive {s : State} (hT : HeldTree s) (hv : s.treeValid = true) :
    CodeInv { s with code := derivedTable s, codesValid := true } := by
  obtain ⟨hgood, hall⟩ := hT.derivedTable_codes
  have hsame : SameTree s { s with code := derivedTable s, codesValid := true } := ⟨rfl, rfl, rfl, rfl⟩
  exact
    { tree := fun _ => hv
      exactly := fun _ x => ⟨fun h => (hasLeaf_congr hsame x).mpr (hgood x h).leaf,
        fun h => hall x ((hasLeaf_congr hsame x).mp h)⟩
      path := fun _ x h => (isCodeOf_congr hsame x _).mpr (hgood x h).path
      length := fun _ x h => (hgood x h).length
      above := fun _ x h => (hgood x h).above }

theorem codeInv_clrRule {s : State} (mask : BitVec 6) (hs : CodeInv s) : CodeInv (clrRule mask s) :=
  clrRule_keeps (P := CodeInv) (fun _ _ hu => hu.congr ⟨rfl, rfl, rfl, rfl⟩ ⟨rfl, rfl⟩)
    (fun _ _ => codeInv_of_not_valid rfl) (fun _ _ => codeInv_of_not_valid rfl)
    (fun _ hu => hu.congr ⟨rfl, rfl, rfl, rfl⟩ ⟨rfl, rfl⟩) (fun _ hu => hu.congr ⟨rfl, rfl, rfl, rfl⟩ ⟨rfl, rfl⟩)
    (fun _ hu => hu.congr ⟨rfl, rfl, rfl, rfl⟩ ⟨rfl, rfl⟩) hs

theorem codeInv_effect {s u : State} {i : Instr} (hT : TreeInv s) (hs : CodeInv s) (h : Effect s i u) : CodeInv u := by
  cases h with
  | none => exact hs
  | clear mask => exact codeInv_clrRule mask hs
  | build => exact codeInv_of_not_valid rfl
  | derive hv => exact codeInv_derive (hT.held hv) hv
  | count | write | encode | decode | readback => exact hs.congr ⟨rfl, rfl, rfl, rfl⟩ ⟨rfl, rfl⟩

/-- Settles O57: DERIVE's walk reaches each leaf by its path, BUILD and CLR drop the table, and nothing else touches it. -/
theorem stepKeepsCodes : Obligations.StepKeepsCodes := by
  intro s t hT hs h
  exact step_keeps (P := CodeInv) (fun _ _ huv _ hu => hu.congr huv.tree huv.codes) (fun _ => codeInv_of_not_valid rfl)
    (fun _ _ => codeInv_effect hT hs) hs h

end Sys2Proof.Machine

end

/-! 10_state.md R51: what no command has written is not observable. Two states that look alike differ in the contents of four
stores alone; every operation either leaves those contents and shows no more of them, or writes the same over both. -/
section

namespace Sys2Proof.Machine

/-! States that differ in the contents of the four stores alone. -/

/-- The state with the contents of NODE, CODE, BITBUF and SYMBUF replaced. -/
def State.withStores (s : State) (n : Memory Node) (c : Memory Code) (b : Memory Bool) (y : Memory Sym) : State :=
  { s with node := n, code := c, bitbuf := b, symbuf := y }

theorem ObsEq.eq_withStores {s t : State} (h : ObsEq s t) : t = s.withStores t.node t.code t.bitbuf t.symbuf := by
  obtain ⟨hp, ⟨hf, ht, hn⟩, htv, htn, hr, -, hcv, -, hbl, -, hsl, -, hc, ⟨h0, h1⟩, hpe, hd, he, hl, hh⟩ := h
  obtain ⟨-, hov, hdi, hei, hir, hq, hhd, hdr, hde⟩ := hh
  cases s
  cases t
  simp only at *
  subst_vars
  rfl

theorem obsEq_withStores {s : State} {n : Memory Node} {c : Memory Code} {b : Memory Bool} {y : Memory Sym}
    (hn : s.treeValid = true → ∀ i : NodeId, i ≤ s.root → Memory.read nodeDefault n i.toNat = s.nodeAt i)
    (hc : s.codesValid = true → ∀ x : Sym, Memory.read codeDefault c x.toNat = s.codeAt x)
    (hb : ∀ p < s.bitlen, Memory.read bitDefault b p = s.bitAt p)
    (hy : ∀ i < s.symlen, Memory.read symDefault y i = s.symAt i) : ObsEq s (s.withStores n c b y) where
  params := rfl
  freq := ⟨rfl, rfl, rfl⟩
  treeValid := rfl
  treeN := rfl
  root := rfl
  node := hn
  codesValid := rfl
  code := hc
  bitlen := rfl
  bits := hb
  symlen := rfl
  syms := hy
  cursor := rfl
  results := ⟨rfl, rfl⟩
  pend := rfl
  done := rfl
  err := rfl
  lastErr := rfl
  host := ⟨rfl, rfl, rfl, rfl, rfl, rfl, rfl, rfl, rfl⟩

theorem ObsEq.refl (s : State) : ObsEq s s :=
  obsEq_withStores (n := s.node) (c := s.code) (b := s.bitbuf) (y := s.symbuf) (fun _ _ _ => rfl) (fun _ _ => rfl)
    (fun _ _ => rfl) (fun _ _ => rfl)

/-- `u` holds the contents of the four stores of `s` and shows no more of them. -/
structure ShowsNoMore (s u : State) : Prop where
  node : u.node = s.node
  code : u.code = s.code
  bitbuf : u.bitbuf = s.bitbuf
  symbuf : u.symbuf = s.symbuf
  tree : u.treeValid = true → s.treeValid = true ∧ u.root = s.root
  codes : u.codesValid = true → s.codesValid = true
  bits : u.bitlen ≤ s.bitlen
  syms : u.symlen ≤ s.symlen

theorem ShowsNoMore.of_sameBlock {s u : State} (h : SameBlock s u) : ShowsNoMore s u where
  node := h.tree.node
  code := h.codes.code
  bitbuf := h.bits.bitbuf
  symbuf := h.syms.symbuf
  tree hv := ⟨h.tree.treeValid.symm.trans hv, h.tree.root⟩
  codes hv := h.codes.codesValid.symm.trans hv
  bits := h.bits.bitlen.le
  syms := h.syms.symlen.le

/-- An operation that neither reads nor writes the four stores, and shows no more of them, keeps two states alike. -/
theorem ObsEq.map {s t : State} (h : ObsEq s t) (f : State → State)
    (hf : ∀ n c b y, f (s.withStores n c b y) = (f s).withStores n c b y) (hs : ShowsNoMore s (f s)) :
    ObsEq (f s) (f t) := by
  rw [h.eq_withStores, hf]
  refine obsEq_withStores (fun hv i hi => ?_) (fun hv x => ?_) (fun p hp => ?_) (fun i hi => ?_)
  · obtain ⟨hv, hr⟩ := hs.tree hv
    rw [State.nodeAt_congr hs.node]
    exact h.node hv i (hr ▸ hi)
  · rw [State.codeAt_congr hs.code]
    exact h.code (hs.codes hv) x
  · rw [State.bitAt_congr hs.bitbuf]
    exact h.bits p (hp.trans_le hs.bits)
  · rw [State.symAt_congr hs.symbuf]
    exact h.syms i (hi.trans_le hs.syms)

/-! The operations of the bus and of completion. -/

theorem ObsEq.retire {s t : State} (h : ObsEq s t) (e : ErrCode) : ObsEq (retire e s) (retire e t) :=
  h.map (Machine.retire e) (fun _ _ _ _ => rfl) (.of_sameBlock (sameBlock_retire e s))

theorem ObsEq.takeEvent {s t : State} (h : ObsEq s t) (rest : List HostEvent) :
    ObsEq (takeEvent rest s) (takeEvent rest t) :=
  h.map (Machine.takeEvent rest) (fun _ _ _ _ => rfl) (.of_sameBlock (sameBlock_takeEvent rest s))

theorem ObsEq.returnDraw {s t : State} (h : ObsEq s t) : ObsEq (returnDraw s) (returnDraw t) :=
  h.map Machine.returnDraw (fun _ _ _ _ => rfl) (.of_sameBlock (sameBlock_returnDraw s))

theorem ObsEq.releaseReset {s t : State} (h : ObsEq s t) : ObsEq (releaseReset s) (releaseReset t) :=
  h.map Machine.releaseReset (fun _ _ _ _ => rfl) (.of_sameBlock (sameBlock_releaseReset s))

theorem regValue_withStores (r : Reg) (s : State) (n : Memory Node) (c : Memory Code) (b : Memory Bool) (y : Memory Sym) :
    (s.withStores n c b y).regValue r = s.regValue r := by cases r <;> rfl

theorem readReg_withStores (r : Reg) (s : State) (n : Memory Node) (c : Memory Code) (b : Memory Bool) (y : Memory Sym) :
    readReg r (s.withStores n c b y) = (readReg r s).withStores n c b y := by
  unfold readReg
  rw [regValue_withStores]
  cases s.regValue r <;> rfl

theorem submit_withStores (w : Word) (s : State) (n : Memory Node) (c : Memory Code) (b : Memory Bool) (y : Memory Sym) :
    submit w (s.withStores n c b y) = (submit w s).withStores n c b y := by
  have hp : (s.withStores n c b y).pend = s.pend := rfl
  unfold submit
  rw [hp]
  cases s.pend <;> rfl

theorem writeReg_withStores (r : Reg) (v : Word) (s : State) (n : Memory Node) (c : Memory Code) (b : Memory Bool)
    (y : Memory Sym) : writeReg r v (s.withStores n c b y) = (writeReg r v s).withStores n c b y := by
  cases r with
  | cmd => exact submit_withStores v s n c b y
  | _ => rfl

theorem ObsEq.perform {s t : State} (h : ObsEq s t) (e : HostEvent) :
    ObsEqOutcome (perform e s) (perform e t) := by
  cases e with
  | read addr width =>
    simp only [Machine.perform, hostRead, h.params, h.host.inReset]
    split
    · rfl
    · rfl
    · rename_i r _
      split
      · exact h.returnDraw
      · exact h.map (readReg r) (readReg_withStores r s) (.of_sameBlock (sameBlock_readReg r s))
  | write addr width data =>
    simp only [Machine.perform, hostWrite, h.params, h.host.inReset]
    split
    · rfl
    · rfl
    · rename_i r _
      split
      · exact h
      · exact h.map (writeReg r data) (writeReg_withStores r data s) (.of_sameBlock (sameBlock_writeReg r data s))
  | assertReset =>
    have heq : Machine.assertReset t = Machine.assertReset s := by rw [h.eq_withStores]; rfl
    show ObsEq (Machine.assertReset s) (Machine.assertReset t)
    rw [heq]
    exact .refl _
  | releaseReset => exact h.releaseReset

/-! What the rules of the commands read of the four stores. -/

theorem ObsEq.setResults {s t : State} (h : ObsEq s t) (r0 r1 : Word) : ObsEq (s.setResults r0 r1) (t.setResults r0 r1) :=
  h.map (fun u => u.setResults r0 r1) (fun _ _ _ _ => rfl)
    ⟨rfl, rfl, rfl, rfl, fun hv => ⟨hv, rfl⟩, id, le_rfl, le_rfl⟩

theorem ObsEq.setCursor {s t : State} (h : ObsEq s t) (c : NodeId) : ObsEq { s with cursor := c } { t with cursor := c } :=
  h.map (fun u => { u with cursor := c }) (fun _ _ _ _ => rfl)
    ⟨rfl, rfl, rfl, rfl, fun hv => ⟨hv, rfl⟩, id, le_rfl, le_rfl⟩

/-- Lists written over two stores read the same wherever they do or the stores did. -/
theorem Memory.read_writeList_congr {α : Type} [DecidableEq α] {d : α} {m m' : Memory α} {a i : Nat} {xs : List α}
    (h : ¬(a ≤ i ∧ i < a + xs.length) → Memory.read d m i = Memory.read d m' i) :
    Memory.read d (m.writeList d a xs) i = Memory.read d (m'.writeList d a xs) i := by
  rw [Memory.read_writeList, Memory.read_writeList]
  split
  · rfl
  · exact h ‹_›

/-- Bits appended to both are the same bits. -/
theorem ObsEq.appendBits {s t : State} (h : ObsEq s t) (bs : List Bool) : ObsEq (s.appendBits bs) (t.appendBits bs) := by
  rw [h.eq_withStores]
  refine obsEq_withStores (s := s.appendBits bs) h.node h.code (fun p hp => ?_) h.syms
  rw [State.appendBits_bitlen] at hp
  exact Memory.read_writeList_congr (a := s.bitlen) fun hout => h.bits p (by omega)

/-- Symbols appended to both are the same symbols. -/
theorem ObsEq.appendSyms {s t : State} (h : ObsEq s t) (ss : List Sym) : ObsEq (s.appendSyms ss) (t.appendSyms ss) := by
  rw [h.eq_withStores]
  refine obsEq_withStores (s := s.appendSyms ss) h.node h.code h.bits (fun i hi => ?_)
  rw [State.appendSyms_symlen] at hi
  exact Memory.read_writeList_congr (a := s.symlen) fun hout => h.syms i (by omega)

theorem ObsEq.heldBits {s t : State} (h : ObsEq s t) : t.heldBits = s.heldBits := by
  unfold State.heldBits
  rw [h.bitlen]
  exact List.map_congr_left fun p hp => h.bits p (List.mem_range.mp hp)

theorem ObsEq.bitWord {s t : State} (h : ObsEq s t) (k : Nat) : bitWord t k = bitWord s k := by
  unfold Machine.bitWord
  congr 1
  funext j
  rw [h.bitlen]
  by_cases hj : 32 * k + j < s.bitlen
  · rw [h.bits _ hj]
  · simp [hj]

theorem ObsEq.validCode {s t : State} (h : ObsEq s t) (x : Sym) : t.validCode x = s.validCode x := by
  unfold State.validCode
  rw [h.codesValid]
  cases hv : s.codesValid
  · rfl
  · rw [h.code hv x]

/-- BUILD writes the same arena into both, and every node up to ROOT is of the arena. -/
theorem ObsEq.commitTree {s t : State} (h : ObsEq s t) (hf : FreqInv s) (hn : s.ndist ≠ 0) :
    ObsEq (commitTree s) (commitTree t) := by
  rw [h.eq_withStores]
  refine obsEq_withStores (s := Machine.commitTree s) (fun _ i hi => ?_) nofun h.bits h.syms
  have hi : i.toNat ≤ (Machine.commitTree s).root.toNat := hi
  have hpos := leaves_length_pos hf hn
  have hlen := buildArena_length s
  rw [toNat_commitTree_root] at hi
  exact Memory.read_writeList_congr (xs := buildArena s) fun hout => absurd (by omega) hout

section Held

variable {s t : State} (h : ObsEq s t) (hv : s.treeValid = true) (hT : HeldTree s)
include h hv hT

/-- Down from a node of the held tree the walk reads nodes of the held tree only. -/
theorem ObsEq.walkCodes (fuel : Nat) {x : NodeId} (hx : x ≤ s.root) (depth : Nat) (path : CodeBits) (table : Memory Code) :
    walkCodes t fuel x depth path table = walkCodes s fuel x depth path table := by
  induction fuel generalizing x depth path table with
  | zero => rfl
  | succ fuel ih =>
    unfold Machine.walkCodes
    rw [h.node hv x hx]
    split
    · rfl
    · rename_i f l r hnode
      have hint := (hT.isInternal_iff hx).mpr (by rw [hnode]; rfl)
      have hl : l.toNat < x.toNat := by simpa [hnode, Node.child] using hT.child_lt hint false
      have hr : r.toNat < x.toNat := by simpa [hnode, Node.child] using hT.child_lt hint true
      rw [ih (hl.le.trans hx), ih (hr.le.trans hx)]

theorem ObsEq.derivedTable : derivedTable t = derivedTable s := by
  unfold Machine.derivedTable
  rw [h.treeN, h.root, h.node hv 0 (Nat.zero_le _), h.walkCodes hv hT _ (Nat.le_refl _)]

/-- A step of the decoder from the root or an internal node reads nodes of the held tree only. -/
theorem ObsEq.decStep {c : NodeId} (hc : s.treeN ≠ 1 → IsInternal s c) (b : Bool) : decStep t c b = decStep s c b := by
  unfold Machine.decStep
  rw [h.treeN, h.root, h.node hv 0 (Nat.zero_le _)]
  by_cases h1 : s.treeN = 1
  · rw [if_pos h1, if_pos h1]
  · have hle : c ≤ s.root := (hc h1).2
    rw [if_neg h1, if_neg h1, h.node hv c hle, h.node hv _ ((hT.child_lt (hc h1) b).le.trans hle)]

theorem ObsEq.decLoop (bits : List Bool) {c : NodeId} (hc : s.treeN ≠ 1 → IsInternal s c) (out : List Sym) :
    decLoop t bits c out = decLoop s bits c out := by
  induction bits generalizing c out with
  | nil => rfl
  | cons b rest ih =>
    unfold Machine.decLoop
    rw [h.decStep hv hT hc, h.symlen, h.params]
    split
    · rfl
    · rename_i cur hd
      exact ih (fun _ => hT.isInternal_decStep hc hd) _
    · rename_i cur x hd
      rw [ih (fun h1 => decStep_some hd ▸ hT.isInternal_root h1)]

end Held

/-! The rules. -/

/-- Two rules' results that look the same from outside. -/
def ObsEqResult : Except ErrCode State → Except ErrCode State → Prop
  | .ok u, .ok v => ObsEq u v
  | .error a, .error b => a = b
  | _, _ => False

theorem ObsEqResult.cases {r r' : Except ErrCode State} (h : ObsEqResult r r') :
    (∃ e, r = .error e ∧ r' = .error e) ∨ ∃ u v, r = .ok u ∧ r' = .ok v ∧ ObsEq u v := by
  cases r with
  | error e =>
    cases r' with
    | error e' => exact .inl ⟨e, rfl, congrArg Except.error (Eq.symm h)⟩
    | ok v => exact h.elim
  | ok u =>
    cases r' with
    | error e' => exact h.elim
    | ok v => exact .inr ⟨u, v, rfl, rfl, h⟩

theorem ObsEq.runRule {s t : State} (h : ObsEq s t) {r r' : Except ErrCode State} (hr : ObsEqResult r r') :
    ObsEqOutcome (runRule s r) (runRule t r') := by
  obtain ⟨e, rfl, rfl⟩ | ⟨u, v, rfl, rfl, huv⟩ := hr.cases
  · exact h.retire e
  · exact huv.retire .ok

theorem ObsEq.appendOrFull {s t : State} (h : ObsEq s t) (bs : List Bool) :
    ObsEqResult (appendOrFull bs s) (appendOrFull bs t) := by
  unfold Machine.appendOrFull
  rw [h.bitlen, h.params]
  split
  · rfl
  · exact h.appendBits bs

/-- A step of CLR taken on both or on neither. -/
theorem ObsEq.onBit {s t : State} (h : ObsEq s t) (b : Bool) {f : State → State} (hf : ObsEq s t → ObsEq (f s) (f t)) :
    ObsEq (onBit b f s) (onBit b f t) := by
  cases b
  · exact h
  · exact hf h

theorem ObsEq.clrRule {s t : State} (h : ObsEq s t) (mask : BitVec 6) : ObsEq (clrRule mask s) (clrRule mask t) := by
  unfold Machine.clrRule
  refine ((((((h.onBit _ ?_).onBit _ ?_).onBit _ ?_).onBit _ ?_).onBit _ ?_).onBit _ ?_)
  · exact fun h => h.map clearFreq (fun _ _ _ _ => rfl) ⟨rfl, rfl, rfl, rfl, fun hv => ⟨hv, rfl⟩, id, le_rfl, le_rfl⟩
  · exact fun h => h.map clearTree (fun _ _ _ _ => rfl) ⟨rfl, rfl, rfl, rfl, nofun, nofun, le_rfl, le_rfl⟩
  · exact fun h => h.map clearCodes (fun _ _ _ _ => rfl) ⟨rfl, rfl, rfl, rfl, fun hv => ⟨hv, rfl⟩, nofun, le_rfl, le_rfl⟩
  · exact fun h => h.map clearBits (fun _ _ _ _ => rfl)
      ⟨rfl, rfl, rfl, rfl, fun hv => ⟨hv, rfl⟩, id, Nat.zero_le _, le_rfl⟩
  · exact fun h => h.map clearSyms (fun _ _ _ _ => rfl)
      ⟨rfl, rfl, rfl, rfl, fun hv => ⟨hv, rfl⟩, id, le_rfl, Nat.zero_le _⟩
  · exact fun h => h.map homeDecoder (fun _ _ _ _ => rfl) ⟨rfl, rfl, rfl, rfl, fun hv => ⟨hv, rfl⟩, id, le_rfl, le_rfl⟩

theorem ObsEq.addCount {s t : State} (h : ObsEq s t) (x : Sym) (n : Count) : ObsEq (addCount x n s) (addCount x n t) :=
  h.map (Machine.addCount x n) (fun _ _ _ _ => rfl) ⟨rfl, rfl, rfl, rfl, fun hv => ⟨hv, rfl⟩, id, le_rfl, le_rfl⟩

theorem ObsEq.countnRule {s t : State} (h : ObsEq s t) (x : Sym) (n : BitVec 16) :
    ObsEqResult (countnRule x n s) (countnRule x n t) := by
  unfold Machine.countnRule
  rw [h.freq.total]
  split
  · rfl
  · split
    · rfl
    · exact h.addCount x _

theorem ObsEq.countRule {s t : State} (h : ObsEq s t) (x : Sym) : ObsEqResult (countRule x s) (countRule x t) := by
  unfold Machine.countRule
  rw [h.freq.total]
  split
  · rfl
  · exact h.addCount x 1

theorem ObsEq.buildRule {s t : State} (h : ObsEq s t) (hf : FreqInv s) : ObsEqResult (buildRule s) (buildRule t) := by
  unfold Machine.buildRule
  rw [h.freq.ndist]
  split
  · rfl
  · rename_i hn
    exact h.commitTree hf hn

theorem ObsEq.deriveRule {s t : State} (h : ObsEq s t) (hs : TreeInv s) : ObsEqResult (deriveRule s) (deriveRule t) := by
  unfold Machine.deriveRule
  rw [h.treeValid]
  split
  · rfl
  · rename_i hv
    have hv : s.treeValid = true := by simpa using hv
    have htable := h.derivedTable hv (hs.held hv)
    rw [htable, h.eq_withStores]
    exact obsEq_withStores (s := { s with code := Machine.derivedTable s, codesValid := true }) h.node (fun _ _ => rfl)
      h.bits h.syms

theorem ObsEq.encRule {s t : State} (h : ObsEq s t) (x : Sym) : ObsEqResult (encRule x s) (encRule x t) := by
  unfold Machine.encRule
  rw [h.validCode]
  cases s.validCode x with
  | none => rfl
  | some c =>
    obtain ⟨e, hs, ht⟩ | ⟨u, v, hs, ht, huv⟩ := (h.appendOrFull c.toBits).cases
    · simp only [hs, ht]
      rfl
    · simp only [hs, ht, huv.bitlen]
      exact huv.setResults _ _

theorem ObsEq.wrbitsRule {s t : State} (h : ObsEq s t) (n : BitVec 5) (v : BitVec 16) :
    ObsEqResult (wrbitsRule n v s) (wrbitsRule n v t) := by
  unfold Machine.wrbitsRule
  split
  · rfl
  · exact h.appendOrFull _

theorem ObsEq.decbitRule {s t : State} (h : ObsEq s t) (hs : TreeInv s) (b : Bool) :
    ObsEqResult (decbitRule b s) (decbitRule b t) := by
  unfold Machine.decbitRule
  rw [h.treeValid]
  split
  · rfl
  · rename_i hv
    have hv : s.treeValid = true := by simpa using hv
    have hT := hs.held hv
    rw [h.cursor, h.decStep hv hT ((hs.cursor hv).isInternal hT), h.symlen, h.params]
    split
    · rfl
    · split
      · rfl
      · exact ((h.appendSyms _).setResults _ _).setCursor _
    · exact (h.setResults _ _).setCursor _

theorem ObsEq.decendRule {s t : State} (h : ObsEq s t) : ObsEqResult (decendRule s) (decendRule t) := by
  unfold Machine.decendRule
  rw [h.treeValid, h.cursor, h.root]
  split
  · rfl
  · split
    · rfl
    · exact h

theorem ObsEq.decbufRule {s t : State} (h : ObsEq s t) (hs : TreeInv s) : ObsEqResult (decbufRule s) (decbufRule t) := by
  unfold Machine.decbufRule
  rw [h.treeValid]
  split
  · rfl
  · rename_i hv
    have hv : s.treeValid = true := by simpa using hv
    have hT := hs.held hv
    rw [h.heldBits, h.root, h.decLoop hv hT _ hT.isInternal_root, h.symlen]
    split
    · rfl
    · split
      · rfl
      · exact ((h.appendSyms _).setResults _ _).setCursor _

theorem ObsEq.rdnodeRule {s t : State} (h : ObsEq s t) (id : NodeId) : ObsEqResult (rdnodeRule id s) (rdnodeRule id t) := by
  unfold Machine.rdnodeRule
  rw [h.treeValid, h.root]
  split
  · rfl
  · split
    · rfl
    · rename_i hv hid
      rw [h.node (by simpa using hv) id (by simpa using hid)]
      exact h.setResults _ _

theorem ObsEq.rdcodeRule {s t : State} (h : ObsEq s t) (x : Sym) (w : BitVec 3) :
    ObsEq (rdcodeRule x w s) (rdcodeRule x w t) := by
  unfold Machine.rdcodeRule
  rw [h.validCode]
  split
  · exact h.setResults _ _
  · exact h.setResults _ _

theorem ObsEq.rdbitsRule {s t : State} (h : ObsEq s t) (k : BitVec 11) : ObsEqResult (rdbitsRule k s) (rdbitsRule k t) := by
  unfold Machine.rdbitsRule
  rw [h.params, h.bitlen, h.bitWord]
  split
  · rfl
  · exact h.setResults _ _

theorem ObsEq.rdsymRule {s t : State} (h : ObsEq s t) (idx : BitVec 16) :
    ObsEqResult (rdsymRule idx s) (rdsymRule idx t) := by
  unfold Machine.rdsymRule
  rw [h.symlen]
  split
  · rfl
  · rename_i hidx
    rw [h.syms _ (by omega)]
    exact h.setResults _ _

/-- Every command's rule answers alike in two states that look alike. -/
theorem ObsEq.ruleOf {s t : State} (h : ObsEq s t) (hf : FreqInv s) (hs : TreeInv s) (i : Instr) :
    ObsEqResult (ruleOf i s) (ruleOf i t) := by
  cases i with
  | nop => exact h
  | clr mask => exact h.clrRule mask
  | count x => exact h.countRule x
  | countn x n => exact h.countnRule x n
  | build => exact h.buildRule hf
  | derive => exact h.deriveRule hs
  | enc x => exact h.encRule x
  | wrbits n v => exact h.wrbitsRule n v
  | decbit b => exact h.decbitRule hs b
  | decend => exact h.decendRule
  | decbuf => exact h.decbufRule hs
  | rdfreq x =>
    show ObsEq _ (t.setResults (t.freqAt x) 0)
    rw [State.freqAt_congr h.freq.freq]
    exact h.setResults _ _
  | rdnode id => exact h.rdnodeRule id
  | rdcode x w => exact h.rdcodeRule x w
  | rdbits k => exact h.rdbitsRule k
  | rdsym idx => exact h.rdsymRule idx

/-! The step. -/

theorem ObsEq.engineStep {s t : State} (h : ObsEq s t) (hf : FreqInv s) (hs : TreeInv s) :
    ObsEqOutcome (engineStep s) (engineStep t) := by
  unfold Machine.engineStep fetchWord
  rw [h.pend]
  split
  · exact h
  · split
    · rename_i i _
      rw [exec_eq_runRule, exec_eq_runRule]
      exact h.runRule (h.ruleOf hf hs i)
    · exact h.retire .illegalCmd

theorem ObsEq.hostStep {s t : State} (h : ObsEq s t) : ObsEqOutcome (hostStep s) (hostStep t) := by
  unfold Machine.hostStep
  rw [h.host.hostQueue]
  split
  · exact h
  · exact (h.takeEvent _).perform _

theorem ObsEq.engineDue {s t : State} (h : ObsEq s t) : engineDue t = engineDue s := by
  rw [h.eq_withStores]
  rfl

/-- Settles O60: every operation on the stores reads what both states show, or writes the same into both. -/
theorem unwrittenContentsUnobservable : Obligations.UnwrittenContentsUnobservable := by
  intro s t hf hs h
  unfold step
  rw [h.engineDue]
  split
  · exact h.engineStep hf hs
  · exact h.hostStep

end Sys2Proof.Machine

end

/-! 10_state.md R40 to R44, R47: which commands write which store and the result registers. -/
section

namespace Sys2Proof.Machine

/-! CLR by store: only the counts are emptied, and only by mask bit 0; the other stores keep their contents. -/

theorem clrRule_freq_of_not {mask : BitVec 6} (hm : clearsFreq mask = false) (s : State) :
    (clrRule mask s).freq = s.freq :=
  clrRule_keeps (P := fun u => u.freq = s.freq) (fun h => absurd (hm.symm.trans h) (by decide)) (fun _ h => h)
    (fun _ h => h) (fun _ h => h) (fun _ h => h) (fun _ h => h) rfl

theorem clrRule_contents (mask : BitVec 6) (s : State) :
    (clrRule mask s).node = s.node ∧ (clrRule mask s).code = s.code ∧ (clrRule mask s).bitbuf = s.bitbuf ∧
      (clrRule mask s).symbuf = s.symbuf ∧ SameResults s (clrRule mask s) :=
  clrRule_keeps (P := fun u => u.node = s.node ∧ u.code = s.code ∧ u.bitbuf = s.bitbuf ∧ u.symbuf = s.symbuf ∧
      SameResults s u)
    (fun _ _ ⟨hn, hc, hb, hy, hr⟩ => ⟨hn, hc, hb, hy, hr.result0, hr.result1⟩)
    (fun _ ⟨hn, hc, hb, hy, hr⟩ => ⟨hn, hc, hb, hy, hr.result0, hr.result1⟩)
    (fun _ ⟨hn, hc, hb, hy, hr⟩ => ⟨hn, hc, hb, hy, hr.result0, hr.result1⟩)
    (fun _ ⟨hn, hc, hb, hy, hr⟩ => ⟨hn, hc, hb, hy, hr.result0, hr.result1⟩)
    (fun _ ⟨hn, hc, hb, hy, hr⟩ => ⟨hn, hc, hb, hy, hr.result0, hr.result1⟩)
    (fun _ ⟨hn, hc, hb, hy, hr⟩ => ⟨hn, hc, hb, hy, hr.result0, hr.result1⟩)
    ⟨rfl, rfl, rfl, rfl, rfl, rfl⟩

/-! The writers of each store among the effects. -/

theorem writesResults_of_isReadback {i : Instr} (h : isReadback i = true) : writesResults i = true := by
  unfold writesResults
  split
  · rfl
  · rfl
  · rfl
  · exact h

section Writers

variable {s u : State} {i : Instr} (h : Effect s i u)
include h

theorem effect_freq (hne : u.freq ≠ s.freq) :
    (∃ mask, i = .clr mask ∧ mask.getLsbD 0 = true) ∨ (∃ x, i = .count x) ∨ ∃ x n, i = .countn x n := by
  cases h with
  | clear mask =>
    refine .inl ⟨mask, rfl, ?_⟩
    by_contra hm
    exact hne (clrRule_freq_of_not (by simpa [clearsFreq] using hm) s)
  | count hi =>
    obtain rfl | ⟨m, rfl⟩ := hi
    · exact .inr (.inl ⟨_, rfl⟩)
    · exact .inr (.inr ⟨_, m, rfl⟩)
  | none | build | derive | write | encode | decode | readback => exact absurd rfl hne

theorem effect_node (hne : u.node ≠ s.node) : i = .build := by
  cases h with
  | clear mask => exact absurd (clrRule_contents mask s).1 hne
  | build => rfl
  | none | count | derive | write | encode | decode | readback => exact absurd rfl hne

theorem effect_code (hne : u.code ≠ s.code) : i = .derive := by
  cases h with
  | clear mask => exact absurd (clrRule_contents mask s).2.1 hne
  | derive => rfl
  | none | count | build | write | encode | decode | readback => exact absurd rfl hne

theorem effect_bitbuf (hne : u.bitbuf ≠ s.bitbuf) : (∃ x, i = .enc x) ∨ ∃ n v, i = .wrbits n v := by
  cases h with
  | clear mask =>
    obtain ⟨-, -, hb, -⟩ := clrRule_contents mask s
    exact absurd hb hne
  | write => exact .inr ⟨_, _, rfl⟩
  | encode => exact .inl ⟨_, rfl⟩
  | none | count | build | derive | decode | readback => exact absurd rfl hne

theorem effect_symbuf (hne : u.symbuf ≠ s.symbuf) : (∃ b, i = .decbit b) ∨ i = .decbuf := by
  cases h with
  | clear mask =>
    obtain ⟨-, -, -, hy, -⟩ := clrRule_contents mask s
    exact absurd hy hne
  | decode hi => exact hi
  | none | count | build | derive | write | encode | readback => exact absurd rfl hne

theorem effect_results (hne : ¬SameResults s u) : writesResults i = true := by
  cases h with
  | clear mask =>
    obtain ⟨-, -, -, -, hr⟩ := clrRule_contents mask s
    exact absurd hr hne
  | encode => rfl
  | decode hi => obtain ⟨b, rfl⟩ | rfl := hi <;> rfl
  | readback hi => exact writesResults_of_isReadback hi
  | none | count | build | derive | write => exact absurd ⟨rfl, rfl⟩ hne

end Writers

/-- Settles O52: among the effects only those of ENC, DECBIT, DECBUF and the read-back commands reach the result registers. -/
theorem resultRegistersHaveEightWriters : Obligations.ResultRegistersHaveEightWriters := by
  intro s t h hne
  obtain ⟨i, u, hrun, hu, rfl⟩ | ⟨hb, -⟩ | ⟨rest, hnext, -⟩ := step_block h
  · exact .inl ⟨i, hrun, effect_results hu fun hs => hne ⟨hs.result0, hs.result1⟩, rfl⟩
  · exact absurd hb.results hne
  · exact .inr ⟨rest, hnext⟩

/-- Settles O53: each effect writes the store of its own commands, and no step but the engine's or a reset writes any. -/
theorem storesHaveTheirWriters : Obligations.StoresHaveTheirWriters := by
  intro s t h hreset
  obtain ⟨i, u, hrun, hu, rfl⟩ | ⟨hb, -⟩ | ⟨rest, hnext, -⟩ := step_block h
  · refine ⟨fun hne => ?_, fun hne => effect_node hu hne ▸ hrun, fun hne => effect_code hu hne ▸ hrun, fun hne => ?_,
      fun hne => ?_⟩
    · obtain ⟨mask, rfl, hm⟩ | ⟨x, rfl⟩ | ⟨x, n, rfl⟩ := effect_freq hu hne
      · exact .inl ⟨mask, hrun, hm⟩
      · exact .inr (.inl ⟨x, hrun⟩)
      · exact .inr (.inr ⟨x, n, hrun⟩)
    · obtain ⟨x, rfl⟩ | ⟨n, v, rfl⟩ := effect_bitbuf hu hne
      · exact .inl ⟨x, hrun⟩
      · exact .inr ⟨n, v, hrun⟩
    · obtain ⟨b, rfl⟩ | rfl := effect_symbuf hu hne
      · exact .inl ⟨b, hrun⟩
      · exact .inr hrun
  · exact ⟨fun hne => absurd hb.freq.freq hne, fun hne => absurd hb.tree.node hne, fun hne => absurd hb.codes.code hne,
      fun hne => absurd hb.bits.bitbuf hne, fun hne => absurd hb.syms.symbuf hne⟩
  · exact absurd hnext (hreset rest)

end Sys2Proof.Machine

end

/-! 10_state.md R32 to R39, R50: the registers of the window as the host reads and writes them, and the state after reset. -/
section

namespace Sys2Proof.Machine

/-! A register access of the window that is the next event (20_memory.md R63, R64). -/

theorem step_of_nextEvent {s : State} {e : HostEvent} {rest : List HostEvent} (h : NextEvent s e rest) :
    step s = perform e (takeEvent rest s) := by
  obtain ⟨hd, hq⟩ := h
  simp [step, hd, hostStep, hq]

theorem lt_windowBytes_of_ofOffset {off : Nat} {r : Reg} (h : Reg.ofOffset off = some r) : off < Config.windowBytes := by
  unfold Reg.ofOffset at h
  split at h <;> cases h <;> decide

/-- A 32-bit access at a register's offset goes to the register. -/
theorem targetOf_base_add {off : Nat} {r : Reg} (p : Params) (h : Reg.ofOffset off = some r) :
    targetOf p (p.base + off) .w32 = .reg r := by
  have hlt := lt_windowBytes_of_ofOffset h
  unfold targetOf
  rw [if_pos ⟨by omega, by omega⟩, Nat.add_sub_cancel_left, h]
  rfl

section Access

variable {s : State} {rest : List HostEvent} {off : Nat} {r : Reg}

theorem step_read (hr : s.inReset = false) (h : NextEvent s (.read (s.params.base + off) .w32) rest)
    (hoff : Reg.ofOffset off = some r) : step s = .next (readReg r (takeEvent rest s)) := by
  rw [step_of_nextEvent h, perform, hostRead, takeEvent_params, targetOf_base_add s.params hoff]
  simp [hr]

theorem step_write {v : Word} (h : NextEvent s (.write (s.params.base + off) .w32 v) rest)
    (hoff : Reg.ofOffset off = some r) :
    step s = .next (if s.inReset then takeEvent rest s else writeReg r v (takeEvent rest s)) := by
  rw [step_of_nextEvent h, perform, hostWrite, takeEvent_params, targetOf_base_add s.params hoff]
  rfl

theorem regValue_takeEvent (rest : List HostEvent) (s : State) (r : Reg) : (takeEvent rest s).regValue r = s.regValue r := by
  cases r <;> rfl

theorem sameStatus_takeEvent (rest : List HostEvent) (s : State) : SameStatus s (takeEvent rest s) :=
  ⟨rfl, rfl, rfl, rfl, rfl, rfl, rfl⟩

/-- A read of a register whose value the spec gives returns that value and changes nothing in the block. -/
theorem step_read_value {v : Word} (hr : s.inReset = false) (h : NextEvent s (.read (s.params.base + off) .w32) rest)
    (hoff : Reg.ofOffset off = some r) (hv : s.regValue r = some v) :
    ∃ t, step s = .next t ∧ t.hostData = v :: s.hostData ∧ SameBlock s t ∧ SameStatus s t ∧ t.draws = s.draws := by
  refine ⟨returnData v (takeEvent rest s), ?_, rfl, ?_, ⟨rfl, rfl, rfl, rfl, rfl, rfl, rfl⟩, rfl⟩
  · rw [step_read hr h hoff, readReg, regValue_takeEvent, hv]
  · exact (sameBlock_takeEvent rest s).trans (sameBlock_returnData v _)

/-- A read of a register whose value the spec calls unspecified returns a free word and changes nothing in the block. -/
theorem step_read_unspecified (hr : s.inReset = false) (h : NextEvent s (.read (s.params.base + off) .w32) rest)
    (hoff : Reg.ofOffset off = some r) (hv : s.regValue r = none) :
    ∃ t, step s = .next t ∧ t.hostData = Config.drawWord s.draws :: s.hostData ∧ t.draws = s.draws + 1 ∧
      SameBlock s t ∧ SameStatus s t := by
  refine ⟨returnDraw (takeEvent rest s), ?_, rfl, rfl, ?_, ⟨rfl, rfl, rfl, rfl, rfl, rfl, rfl⟩⟩
  · rw [step_read hr h hoff, readReg, regValue_takeEvent, hv]
  · exact (sameBlock_takeEvent rest s).trans (sameBlock_returnDraw _)

end Access

theorem whenIdle_of_pend_none {s : State} (h : s.pend = none) (v : Word) : s.whenIdle v = some v := by
  simp [State.whenIdle, State.busy, h]

theorem whenIdle_of_pend_some {s : State} {w : Word} (h : s.pend = some w) (v : Word) : s.whenIdle v = none := by
  simp [State.whenIdle, State.busy, h]

/-- The nine registers whose value the spec gives only while the block is idle (R39, R47), each with that value. -/
def idleRegisters (s : State) : List (Nat × Word) :=
  [(0x14, s.ndist.setWidth 32), (0x18, s.total), (0x1C, s.root.setWidth 32), (0x20, s.cursor.setWidth 32),
    (0x24, s.treeN.setWidth 32), (0x28, BitVec.ofNat 32 s.bitlen), (0x2C, BitVec.ofNat 32 s.symlen), (0x30, s.result0),
    (0x34, s.result1)]

theorem regValue_idleRegisters (s : State) :
    ∀ p ∈ idleRegisters s, ∃ r, Reg.ofOffset p.1 = some r ∧ s.regValue r = s.whenIdle p.2 := by
  simp only [idleRegisters, List.forall_mem_cons]
  exact ⟨⟨.ndist, rfl, rfl⟩, ⟨.total, rfl, rfl⟩, ⟨.root, rfl, rfl⟩, ⟨.cursor, rfl, rfl⟩, ⟨.treeN, rfl, rfl⟩,
    ⟨.bitlen, rfl, rfl⟩, ⟨.symlen, rfl, rfl⟩, ⟨.result0, rfl, rfl⟩, ⟨.result1, rfl, rfl⟩, nofun⟩

/-- CMD and the two reserved offsets read 0 (R32, R36). -/
theorem regValue_zero (s : State) : ∀ off ∈ [0x08, 0x38, 0x3C], ∃ r, Reg.ofOffset off = some r ∧ s.regValue r = some 0 := by
  simp only [List.forall_mem_cons]
  exact ⟨⟨.cmd, rfl, rfl⟩, ⟨.reserved38, rfl, rfl⟩, ⟨.reserved3C, rfl, rfl⟩, nofun⟩

/-- A write at a read-only or reserved offset does nothing (R32, R39). -/
theorem writeReg_readOnly : ∀ off ∈ [0x00, 0x04, 0x14, 0x18, 0x1C, 0x20, 0x24, 0x28, 0x2C, 0x30, 0x34, 0x38, 0x3C],
    ∃ r, Reg.ofOffset off = some r ∧ ∀ v s, writeReg r v s = s := by
  simp only [List.forall_mem_cons]
  exact ⟨⟨.id, rfl, fun _ _ => rfl⟩, ⟨.param, rfl, fun _ _ => rfl⟩, ⟨.ndist, rfl, fun _ _ => rfl⟩,
    ⟨.total, rfl, fun _ _ => rfl⟩, ⟨.root, rfl, fun _ _ => rfl⟩, ⟨.cursor, rfl, fun _ _ => rfl⟩,
    ⟨.treeN, rfl, fun _ _ => rfl⟩, ⟨.bitlen, rfl, fun _ _ => rfl⟩, ⟨.symlen, rfl, fun _ _ => rfl⟩,
    ⟨.result0, rfl, fun _ _ => rfl⟩, ⟨.result1, rfl, fun _ _ => rfl⟩, ⟨.reserved38, rfl, fun _ _ => rfl⟩,
    ⟨.reserved3C, rfl, fun _ _ => rfl⟩, nofun⟩

/-! The register words bit by bit (R35, R37, R38). The widths of the fields are named, so that they add up to the word's. -/

theorem getLsbD_statusWord (s : State) (j : Nat) : s.statusWord.getLsbD j =
    match j with
    | 0 => s.busy
    | 1 => s.done
    | 2 => s.err
    | 3 => s.ovr
    | 4 => s.treeValid
    | 5 => s.codesValid
    | 6 => s.inTraversal
    | 7 => false
    | k + 8 => s.lastErr.code.getLsbD k := by
  change BitVec.getLsbD (w := 20 + 4 + 1 + 1 + 1 + 1 + 1 + 1 + 1 + 1) _ j = _
  unfold State.statusWord
  simp only [BitVec.getLsbD_append]
  match j with
  | 0 | 1 | 2 | 3 | 4 | 5 | 6 | 7 => simp
  | k + 8 => simpa using BitVec.lt_of_getLsbD

theorem statusWord_lastErr (s : State) : s.statusWord.extractLsb' 8 4 = s.lastErr.code := by
  refine BitVec.eq_of_getLsbD_eq fun j hj => ?_
  rw [BitVec.getLsbD_extractLsb', Nat.add_comm, getLsbD_statusWord, decide_eq_true hj, Bool.true_and]

theorem statusWord_above (s : State) {j : Nat} (hj : 12 ≤ j) : s.statusWord.getLsbD j = false := by
  obtain ⟨k, rfl⟩ := Nat.exists_eq_add_of_le' hj
  rw [show k + 12 = k + 4 + 8 from rfl, getLsbD_statusWord]
  exact BitVec.getLsbD_of_ge _ _ (Nat.le_add_left 4 k)

theorem getLsbD_ieWord (s : State) (j : Nat) : s.ieWord.getLsbD j =
    match j with
    | 1 => s.doneIE
    | 2 => s.errIE
    | _ => false := by
  change BitVec.getLsbD (w := 29 + 1 + 1 + 1) _ j = _
  unfold State.ieWord
  simp only [BitVec.getLsbD_append]
  match j with
  | 0 | 1 | 2 => simp
  | k + 3 => simp

theorem ieWord_other (s : State) {j : Nat} (h1 : j ≠ 1) (h2 : j ≠ 2) : s.ieWord.getLsbD j = false := by
  rw [getLsbD_ieWord]
  split
  · exact absurd rfl h1
  · exact absurd rfl h2
  · rfl

theorem log2Bitcap_lt (p : Params) : p.log2Bitcap < 2 ^ 5 := by
  have := p.bitcapExp.isLt
  unfold Params.log2Bitcap
  omega

theorem log2Symcap_lt (p : Params) : p.log2Symcap < 2 ^ 5 := by
  have := p.symcapExp.isLt
  unfold Params.log2Symcap
  omega

/-- The fields of PARAM: SYM_W, log2 BITCAP, log2 SYMCAP and the version (R35). -/
structure ParamFields (p : Params) (v : Word) : Prop where
  symWidth : v.extractLsb' 0 8 = 8
  bitcap : 2 ^ (v.extractLsb' 8 5).toNat = p.bitcap
  zero13 : v.extractLsb' 13 3 = 0
  symcap : 2 ^ (v.extractLsb' 16 5).toNat = p.symcap
  zero21 : v.extractLsb' 21 3 = 0
  version : v.extractLsb' 24 8 = 1

theorem paramWord_fields (p : Params) : ParamFields p (paramWord p) := by
  have hskip {v w : Nat} {hi : BitVec v} {lo : BitVec w} {start len : Nat} (h : w ≤ start) :
      (hi ++ lo).extractLsb' start len = hi.extractLsb' (start - w) len := BitVec.extractLsb'_append_eq_of_le h
  have htake {v w : Nat} {hi : BitVec v} {lo : BitVec w} {start len : Nat} (h : start + len ≤ w) :
      (hi ++ lo).extractLsb' start len = lo.extractLsb' start len := BitVec.extractLsb'_append_eq_of_add_le h
  change ParamFields p (show BitVec (8 + 3 + 5 + 3 + 5 + 8) from _)
  unfold paramWord
  constructor
  · rw [htake (by decide)]; rfl
  · rw [hskip (by decide), htake (by decide)]
    simpa [Params.bitcap] using log2Bitcap_lt p
  · rw [hskip (by decide), hskip (by decide), htake (by decide)]; rfl
  · rw [hskip (by decide), hskip (by decide), hskip (by decide), htake (by decide)]
    simpa [Params.symcap] using log2Symcap_lt p
  · rw [hskip (by decide), hskip (by decide), hskip (by decide), hskip (by decide), htake (by decide)]; rfl
  · rw [hskip (by decide), hskip (by decide), hskip (by decide), hskip (by decide), hskip (by decide)]; rfl

theorem paramWord_full {p : Params} (hb : p.bitcap = 65536) (hs : p.symcap = 65536) : paramWord p = 0x01101008 := by
  have hb : p.log2Bitcap = 16 := Nat.pow_right_injective (le_refl 2) (hb.trans (by decide : 65536 = 2 ^ 16))
  have hs : p.log2Symcap = 16 := Nat.pow_right_injective (le_refl 2) (hs.trans (by decide : 65536 = 2 ^ 16))
  rw [paramWord, hb, hs]
  rfl

/-! The obligations. -/

/-- Settles O8: STATUS is the concatenation of its fields, read whole and cleared bit by bit. -/
theorem statusRegister : Obligations.StatusRegister := by
  refine ⟨fun s => ?_, fun s rest hr h => ?_, fun s rest v hr h => ?_⟩
  · exact ⟨getLsbD_statusWord s 0, getLsbD_statusWord s 1, getLsbD_statusWord s 2, getLsbD_statusWord s 3,
      getLsbD_statusWord s 4, getLsbD_statusWord s 5, getLsbD_statusWord s 6, getLsbD_statusWord s 7,
      statusWord_lastErr s, fun j hj => statusWord_above s hj⟩
  · obtain ⟨t, ht, hdata, hblock, hstatus, -⟩ := step_read_value hr h (r := .status) rfl rfl
    exact ⟨t, ht, hdata, hblock, hstatus⟩
  · refine ⟨(takeEvent rest s).clearStatus v, ?_, ?_, rfl, rfl, rfl, rfl, rfl, rfl, rfl⟩
    · rw [step_write h (r := .status) rfl, hr]
      rfl
    · exact (sameBlock_takeEvent rest s).trans (sameBlock_clearStatus _ v)

/-- Settles O9: IE holds the two enables at bits 1 and 2. -/
theorem interruptEnableRegister : Obligations.InterruptEnableRegister := by
  refine ⟨fun s rest v hr h => ?_, fun s rest hr h => ?_⟩
  · refine ⟨(takeEvent rest s).setEnables v, ?_, ?_, rfl, rfl, rfl, rfl, rfl, rfl, rfl⟩
    · rw [step_write h (r := .ie) rfl, hr]
      rfl
    · exact (sameBlock_takeEvent rest s).trans (sameBlock_setEnables _ v)
  · obtain ⟨t, ht, hdata, hblock, hstatus, -⟩ := step_read_value hr h (r := .ie) rfl rfl
    exact ⟨t, s.ieWord, ht, hdata, hblock, hstatus, getLsbD_ieWord s 1, getLsbD_ieWord s 2, fun j => ieWord_other s⟩

/-- Settles O10: ID is a constant and PARAM the fields of the parameters. -/
theorem identificationRegisters : Obligations.IdentificationRegisters := by
  refine ⟨fun s rest hr h => ?_, fun s rest hr h => ?_⟩
  · obtain ⟨t, ht, hdata, hblock, hstatus, -⟩ := step_read_value (off := 0) hr h (r := .id) rfl rfl
    exact ⟨t, ht, hdata, hblock, hstatus⟩
  · obtain ⟨t, ht, hdata, hblock, hstatus, -⟩ := step_read_value hr h (r := .param) rfl rfl
    obtain ⟨hw, hb, h13, hs, h21, hv⟩ := paramWord_fields s.params
    exact ⟨t, paramWord s.params, ht, hdata, hblock, hstatus, hw, hb, h13, hs, h21, hv, paramWord_full⟩

/-- Settles O11: CMD and the reserved offsets read 0, the nine registers of an idle block their values. -/
theorem windowReadsWhenIdle : Obligations.WindowReadsWhenIdle := by
  refine ⟨fun s rest hr off hoff h => ?_, fun s rest hp hr p hmem h => ?_⟩
  · obtain ⟨r, hreg, hv⟩ := regValue_zero s off hoff
    exact step_read_value hr h hreg hv
  · obtain ⟨r, hreg, hv⟩ := regValue_idleRegisters s p hmem
    exact step_read_value hr h hreg (hv.trans (whenIdle_of_pend_none hp _))

/-- Settles O12: with a command pending the nine registers have no value, and the read draws one. -/
theorem busyReadsReturnFreeValues : Obligations.BusyReadsReturnFreeValues := by
  intro s rest w hp hr off hoff h
  obtain ⟨p, hmem, rfl⟩ := List.mem_map.mp (show off ∈ (idleRegisters s).map Prod.fst from hoff)
  obtain ⟨r, hreg, hv⟩ := regValue_idleRegisters s p hmem
  exact step_read_unspecified hr h hreg (hv.trans (whenIdle_of_pend_some hp _))

/-- Settles O13: a write at a read-only or reserved offset only takes the event from the queue. -/
theorem writesToReadOnlyIgnored : Obligations.WritesToReadOnlyIgnored := by
  intro s rest v off hoff h
  obtain ⟨r, hreg, hw⟩ := writeReg_readOnly off hoff
  refine ⟨takeEvent rest s, ?_, sameBlock_takeEvent rest s, sameStatus_takeEvent rest s, rfl, rfl, rfl, rfl⟩
  rw [step_write h hreg, hw, ite_self]

theorem resetForm_resetWith (p : Params) : ResetForm (State.resetWith p) :=
  ⟨fun _ => rfl, ⟨rfl, rfl⟩, ⟨rfl, rfl, rfl⟩, rfl, ⟨rfl, rfl⟩, rfl, ⟨rfl, rfl⟩, rfl, ⟨rfl, rfl, rfl, rfl⟩, ⟨rfl, rfl⟩, rfl⟩

/-- Settles O17: the state after reset is built from the values of R50. -/
theorem resetValues : Obligations.ResetValues := ⟨resetForm_resetWith _, resetForm_resetWith⟩

theorem inv_resetWith (p : Params) : Inv (State.resetWith p) where
  freq := freqInv_of_freq_empty rfl rfl rfl
  tree := treeInv_resetWith p
  code := codeInv_of_not_valid rfl
  store := storeInv_resetWith p
  reset := resetHeld_of_not_inReset rfl

/-- Settles O59: after reset there are no counts, no tree and no codes, and the stores are empty. -/
theorem resetMeetsInvariants : Obligations.ResetMeetsInvariants := ⟨inv_resetWith _, inv_resetWith⟩

end Sys2Proof.Machine

end

/-! 20_memory.md R63, R65: which accesses the window accepts, and what any other access answers. -/
section

namespace Sys2Proof.Machine

/-! The offsets that hold a register (R32). -/

theorem mod_four_of_ofOffset {off : Nat} {r : Reg} (h : Reg.ofOffset off = some r) : off % 4 = 0 := by
  unfold Reg.ofOffset at h
  split at h <;> cases h <;> rfl

theorem exists_ofOffset {off : Nat} (hlt : off < 64) (hmod : off % 4 = 0) : ∃ r, Reg.ofOffset off = some r := by
  obtain ⟨k, rfl⟩ := Nat.dvd_of_mod_eq_zero hmod
  have hall : ∀ k < 16, (Reg.ofOffset (4 * k)).isSome = true := by decide
  exact Option.isSome_iff_exists.mp (hall k (by omega))

/-! Where an access that is not accepted goes. -/

theorem targetOf_badAccess {off : Nat} {width : Width} (p : Params) (hlt : off < 64) (hbad : width ≠ .w32 ∨ off % 4 ≠ 0) :
    targetOf p (p.base + off) width = .badAccess := by
  unfold targetOf
  rw [if_pos ⟨Nat.le_add_right _ _, Nat.add_lt_add_left hlt _⟩, Nat.add_sub_cancel_left]
  cases hreg : Reg.ofOffset off with
  | none => rfl
  | some r =>
    have hwidth : width ≠ .w32 := hbad.resolve_right (not_not_intro (mod_four_of_ofOffset hreg))
    exact if_neg hwidth

theorem targetOf_outside {p : Params} {addr : Nat} (width : Width) (h : addr < p.base ∨ p.base + 64 ≤ addr) :
    targetOf p addr width = .outside := by
  unfold targetOf Config.windowBytes
  exact if_neg (by omega)

section Access

variable {s : State} {addr : Nat} {width : Width}

theorem step_badAccess (ht : targetOf s.params addr width = .badAccess) (rest : List HostEvent) :
    (NextEvent s (.read addr width) rest → step s = .fault .busError) ∧
      ∀ v, NextEvent s (.write addr width v) rest → step s = .fault .busError := by
  refine ⟨fun h => ?_, fun v h => ?_⟩
  · rw [step_of_nextEvent h, perform, hostRead, takeEvent_params, ht]
  · rw [step_of_nextEvent h, perform, hostWrite, takeEvent_params, ht]

theorem step_outside (ht : targetOf s.params addr width = .outside) (rest : List HostEvent) :
    (NextEvent s (.read addr width) rest → step s = .refused .outsideWindow) ∧
      ∀ v, NextEvent s (.write addr width v) rest → step s = .refused .outsideWindow := by
  refine ⟨fun h => ?_, fun v h => ?_⟩
  · rw [step_of_nextEvent h, perform, hostRead, takeEvent_params, ht]
  · rw [step_of_nextEvent h, perform, hostWrite, takeEvent_params, ht]

end Access

/-! The obligations. -/

/-- Settles O14: the offsets that hold a register are the aligned ones, and only a 32-bit access reaches a register. -/
theorem windowAcceptsOnlyAlignedWords : Obligations.WindowAcceptsOnlyAlignedWords := by
  refine ⟨fun s rest off width _ hlt hbad => ?_, fun s rest off hr hlt hmod => ?_⟩
  · exact step_badAccess (targetOf_badAccess s.params hlt hbad) rest
  · obtain ⟨r, hreg⟩ := exists_ofOffset hlt hmod
    exact ⟨fun h => ⟨_, step_read hr h hreg⟩, fun v h => ⟨_, step_write h hreg⟩⟩

/-- Settles O15: address decoding finds the address outside the window, whatever the width. -/
theorem accessOutsideWindowIsRefused : Obligations.AccessOutsideWindowIsRefused :=
  fun _ rest _ width haddr => step_outside (targetOf_outside width haddr) rest

end Sys2Proof.Machine

end

/-! 30_encoding.md R70 to R78: the decoder and the encoder agree row by row, and the words that match no row, or match one with
an operand value of R76, are the illegal ones. -/
section

namespace Sys2Proof.Laws

open Sys2Proof.Machine

variable {w : Word} {op : Op} {i : Instr}

/-! From a word to a command and back: the operand bits are the bits outside the row's mask (R71, R72). -/

/-- The field in the bits below `k` is what a mask of every bit from `k` up leaves out. -/
theorem setWidth_lowField {n : Nat} (x : BitVec n) (k : Nat) :
    (x.extractLsb' 0 k).setWidth n = x &&& ~~~(BitVec.allOnes n <<< k) := by
  apply BitVec.eq_of_getLsbD_eq
  intro j hj
  by_cases hk : j < k <;> simp [hj, hk]

/-- Two adjacent fields, each in its place, are one field. -/
theorem setWidth_adjacentFields {n m k : Nat} (x : BitVec n) :
    (x.extractLsb' k m).setWidth n <<< k ||| (x.extractLsb' 0 k).setWidth n = (x.extractLsb' 0 (m + k)).setWidth n := by
  rw [← BitVec.setWidth_append_eq_shiftLeft_setWidth_or,
    BitVec.extractLsb'_append_extractLsb'_eq_extractLsb' (Nat.zero_add k).symm]

theorem operandWord_fields (op : Op) (w : Word) : (op.fields w).operandWord = w &&& ~~~op.maskWord := by
  rw [mask_eq, ← setWidth_lowField]
  cases op with
  | nop | build | derive | decend | decbuf => simp [Op.fields, Instr.operandWord, operandBits]
  | clr | count | enc | rdfreq | rdnode | rdbits | rdsym => rfl
  | decbit =>
    rw [Op.fields, Instr.operandWord, operandBits, ← BitVec.setWidth_one, BitVec.setWidth_eq_extractLsb' (x := w) (by decide)]
  | countn | wrbits | rdcode => exact setWidth_adjacentFields w

@[simp] theorem op_fields (op : Op) (w : Word) : (op.fields w).op = op := by cases op <;> rfl

theorem encode_fields (h : w &&& op.maskWord = op.matchWord) : encode (op.fields w) = w := by
  rw [encode, op_fields, operandWord_fields, ← h, ← BitVec.and_or_distrib_left, BitVec.or_not_self, BitVec.and_allOnes]

/-! From a command to a word and back: the row's fields read the operand bits alone (R71 to R73). -/

theorem extractLsb'_matchWord {p k : Nat} (h : p + k ≤ operandBits op) : op.matchWord.extractLsb' p k = 0#k := by
  rw [← match_and_mask, mask_eq]
  apply BitVec.eq_of_getLsbD_eq
  intro j hj
  have hlow : p + j < operandBits op := by omega
  simp [hlow]

theorem extractLsb'_encode {p k : Nat} (h : p + k ≤ operandBits i.op) :
    (encode i).extractLsb' p k = i.operandWord.extractLsb' p k := by
  rw [encode, BitVec.extractLsb'_or, extractLsb'_matchWord h, BitVec.zero_or]

/-- Of two fields, each in its place, the low one is read back. -/
theorem extractLsb'_lowField {n m k : Nat} (a : BitVec m) (b : BitVec k) (h : k ≤ n) :
    (a.setWidth n <<< k ||| b.setWidth n).extractLsb' 0 k = b := by
  rw [← BitVec.setWidth_append_eq_shiftLeft_setWidth_or, BitVec.extractLsb'_setWidth_of_le (by omega),
    BitVec.extractLsb'_append_eq_right]

/-- Of two fields, each in its place, the high one is read back. -/
theorem extractLsb'_highField {n m k : Nat} (a : BitVec m) (b : BitVec k) (h : k + m ≤ n) :
    (a.setWidth n <<< k ||| b.setWidth n).extractLsb' k m = a := by
  rw [← BitVec.setWidth_append_eq_shiftLeft_setWidth_or, BitVec.extractLsb'_setWidth_of_le h, BitVec.extractLsb'_append_eq_left]

theorem fields_encode (i : Instr) : i.op.fields (encode i) = i := by
  cases i with
  | nop | build | derive | decend | decbuf => rfl
  | decbit b => cases b <;> rfl
  | clr x | count x | enc x | rdfreq x | rdnode x | rdbits x | rdsym x =>
    rw [Instr.op, Op.fields, extractLsb'_encode (by simp [Instr.op, operandBits]), Instr.operandWord,
      BitVec.extractLsb'_setWidth_of_le (by decide), BitVec.extractLsb'_eq_self]
  | countn b a | wrbits a b | rdcode b a =>
    rw [Instr.op, Op.fields, extractLsb'_encode (by simp [Instr.op, operandBits]),
      extractLsb'_encode (by simp [Instr.op, operandBits]), Instr.operandWord, extractLsb'_lowField a b (by decide),
      extractLsb'_highField a b (by decide)]

theorem rowMatch : ∀ i : Instr, RowMatch.Statement i
  | .nop => RowMatch.nop
  | .clr mask => RowMatch.clr mask
  | .count sym => RowMatch.count sym
  | .countn sym n => RowMatch.countn sym n
  | .build => RowMatch.build
  | .derive => RowMatch.derive
  | .enc sym => RowMatch.enc sym
  | .wrbits n v => RowMatch.wrbits n v
  | .decbit b => RowMatch.decbit b
  | .decend => RowMatch.decend
  | .decbuf => RowMatch.decbuf
  | .rdfreq sym => RowMatch.rdfreq sym
  | .rdnode id => RowMatch.rdnode id
  | .rdcode sym w => RowMatch.rdcode sym w
  | .rdbits k => RowMatch.rdbits k
  | .rdsym idx => RowMatch.rdsym idx

/-! The decoder, return by return (R78). -/

theorem ofOpcode_of_mask (h : w &&& op.maskWord = op.matchWord) : Op.ofOpcode (opcodeOf w) = some op := by
  rw [opcodeOf_of_mask h, opcodeOf_match]

/-- The row a word matches is the row of its opcode, so there is at most one. -/
theorem row_unique {a b : Op} (ha : w &&& a.maskWord = a.matchWord) (hb : w &&& b.maskWord = b.matchWord) : a = b :=
  Option.some.inj ((ofOpcode_of_mask ha).symm.trans (ofOpcode_of_mask hb))

theorem decode_reservedOpcode (h : Op.ofOpcode (opcodeOf w) = none) : decode w = .error .reservedOpcode := by
  rw [decode, h]

theorem decode_nonzeroMustBeZero (h : Op.ofOpcode (opcodeOf w) = some op) (hm : w &&& op.maskWord ≠ op.matchWord) :
    decode w = .error .nonzeroMustBeZero := by
  rw [decode, h]
  exact if_pos hm

theorem decode_row (h : w &&& op.maskWord = op.matchWord) :
    decode w = if (op.fields w).wf then .ok (op.fields w) else .error .illegalField := by
  rw [decode, ofOpcode_of_mask h]
  exact if_neg (not_not_intro h)

theorem decode_noRow (h : ∀ op : Op, w &&& op.maskWord ≠ op.matchWord) : ∃ r, decode w = .error r := by
  cases ho : Op.ofOpcode (opcodeOf w) with
  | none => exact ⟨_, decode_reservedOpcode ho⟩
  | some op => exact ⟨_, decode_nonzeroMustBeZero ho (h op)⟩

/-- A word decodes to a command exactly where it matches the command's row and the row's fields are that command. -/
theorem decode_ok_iff : decode w = .ok i ↔ w &&& i.op.maskWord = i.op.matchWord ∧ i.op.fields w = i ∧ i.wf = true := by
  constructor
  · intro h
    by_cases hrow : ∃ op : Op, w &&& op.maskWord = op.matchWord
    · obtain ⟨op, hop⟩ := hrow
      rw [decode_row hop] at h
      split at h
      next hwf =>
        obtain rfl := Except.ok.inj h
        rw [op_fields]
        exact ⟨hop, rfl, hwf⟩
      next => cases h
    · obtain ⟨r, hr⟩ := decode_noRow (not_exists.mp hrow)
      cases hr.symm.trans h
  · rintro ⟨hop, hf, hwf⟩
    rw [decode_row hop, hf, if_pos hwf]

/-! The illegal words (R74 to R76). -/

theorem ofOpcode_eq_none_iff (o : BitVec 5) :
    Op.ofOpcode o = none ↔ (0x0B ≤ o.toNat ∧ o.toNat ≤ 0x0F) ∨ 0x15 ≤ o.toNat := by
  revert o; decide

theorem opcodeOf_matchWord_of_ofOpcode {o : BitVec 5} (h : Op.ofOpcode o = some op) : o = opcodeOf op.matchWord := by
  revert o; cases op <;> decide

/-- The operands a row refuses are those of R76. -/
theorem wf_fields_eq_false_iff (ho : opcodeOf w = opcodeOf op.matchWord) : (op.fields w).wf = false ↔
    (opcodeOf w = 0x03 ∧ w.extractLsb' 8 16 = 0) ∨
      (opcodeOf w = 0x07 ∧ (w.extractLsb' 16 5 = 0 ∨ (w.extractLsb' 16 5).toNat > 16)) := by
  rw [ho]
  cases op with
  | wrbits => simp [Op.fields, Instr.wf, opcodeOf, Op.matchWord, imp_iff_not_or]
  | _ => simp [Op.fields, Instr.wf, opcodeOf, Op.matchWord]

theorem decode_error_of_opcode (ho : opcodeOf w = opcodeOf op.matchWord)
    (h : w &&& op.maskWord ≠ op.matchWord ∨ (op.fields w).wf = false) : ∃ r, decode w = .error r := by
  by_cases hm : w &&& op.maskWord = op.matchWord
  · have hwf : (op.fields w).wf = false := h.resolve_left (not_not_intro hm)
    exact ⟨_, by rw [decode_row hm, if_neg (Bool.eq_false_iff.mp hwf)]⟩
  · exact ⟨_, decode_nonzeroMustBeZero (by rw [ho, opcodeOf_match]) hm⟩

theorem decode_of_illegalWord (h : IllegalWord w) : ∃ r, decode w = .error r := by
  obtain h | h | ⟨op, ho, hm⟩ | h | h := h
  · exact ⟨_, decode_reservedOpcode ((ofOpcode_eq_none_iff _).mpr (.inl h))⟩
  · exact ⟨_, decode_reservedOpcode ((ofOpcode_eq_none_iff _).mpr (.inr h))⟩
  · exact decode_error_of_opcode ho (.inl hm)
  · exact decode_error_of_opcode (op := .countn) h.1 (.inr ((wf_fields_eq_false_iff h.1).mpr (.inl h)))
  · exact decode_error_of_opcode (op := .wrbits) h.1 (.inr ((wf_fields_eq_false_iff h.1).mpr (.inr h)))

theorem decode_of_not_illegalWord (h : ¬IllegalWord w) : ∃ i, decode w = .ok i := by
  simp only [IllegalWord, not_or] at h
  obtain ⟨hlow, hhigh, hmask, hcountn, hwrbits⟩ := h
  cases hop : Op.ofOpcode (opcodeOf w) with
  | none => exact absurd ((ofOpcode_eq_none_iff _).mp hop) (not_or.mpr ⟨hlow, hhigh⟩)
  | some op =>
    have ho := opcodeOf_matchWord_of_ofOpcode hop
    have hm : w &&& op.maskWord = op.matchWord := by_contra fun hne => hmask ⟨op, ho, hne⟩
    have hwf : (op.fields w).wf = true := by
      rw [← Bool.not_eq_false, wf_fields_eq_false_iff ho]
      exact not_or.mpr ⟨hcountn, hwrbits⟩
    exact ⟨_, by rw [decode_row hm, if_pos hwf]⟩

/-! The engine decodes the pending word first (R78, 60_exceptions.md R141). -/

theorem failsWith_raiseError (e : ErrCode) (s : State) : FailsWith e s (raiseError e s) :=
  ⟨⟨rfl, rfl, rfl, rfl⟩, sameBlock_raiseError e s, ⟨rfl, rfl, rfl, rfl, rfl, rfl, rfl, rfl, rfl⟩⟩

section Due

variable {s : State} (hd : engineDue s = true) (hp : s.pend = some w)
include hd hp

theorem step_of_decode_ok (h : decode w = .ok i) : step s = exec i s := by
  rw [step, if_pos hd, engineStep, fetchWord, hp]
  simp only [h]

theorem step_of_decode_error {r : DecodeReject} (h : decode w = .error r) :
    ∃ t, step s = .next t ∧ FailsWith .illegalCmd s t := by
  refine ⟨raiseError .illegalCmd s, ?_, failsWith_raiseError .illegalCmd s⟩
  rw [step, if_pos hd, engineStep, fetchWord, hp]
  simp only [h, execIllegal]

end Due

end Sys2Proof.Laws

namespace Sys2Proof.Machine

open Sys2Proof.Laws

/-! The obligations. -/

/-- Settles O1: the word of a command matches the command's row, and the row's fields read every operand back. -/
theorem decodeInvertsEncode : Obligations.DecodeInvertsEncode :=
  fun i hwf => decode_ok_iff.mpr ⟨(rowMatch i).2, fields_encode i, hwf⟩

/-- Settles O2: a word that matches a row is the row's match with the operand bits its fields are read from. -/
theorem encodeInvertsDecode : Obligations.EncodeInvertsDecode := by
  intro w i h
  obtain ⟨hm, hf, hwf⟩ := decode_ok_iff.mp h
  exact ⟨hf ▸ encode_fields hm, hwf⟩

/-- Settles O3: a row's mask covers the opcode, so the opcode of a word that matches a row names that row. -/
theorem decodingIsTotalAndUnambiguous : Obligations.DecodingIsTotalAndUnambiguous :=
  ⟨fun _ _ => decode_row, fun _ => decode_noRow, fun _ _ _ => row_unique,
    fun _ _ hd hp => ⟨fun _ => step_of_decode_ok hd hp, fun _ => step_of_decode_error hd hp⟩⟩

/-- Settles O5: the illegal words are those the decoder rejects. -/
theorem illegalWordsOnlyReport : Obligations.IllegalWordsOnlyReport := by
  refine ⟨fun s w hd hp hw => ?_, fun w => decode_of_not_illegalWord⟩
  obtain ⟨r, hr⟩ := decode_of_illegalWord hw
  exact step_of_decode_error hd hp hr

/-- Settles O4: the decoder evaluated on each word. -/
theorem sampleWordsDecode : Obligations.SampleWordsDecode := by
  unfold Obligations.SampleWordsDecode
  decide

end Sys2Proof.Machine

end

/-! 40_control.md R85, R86: the control commands. NOP changes the completion fields only, and CLR what its six steps change,
written as one record. -/
section

namespace Sys2Proof.Machine

/-! What the statement of a command that ends with code 0 asks for: its word, its answer, its completion, the host's fields. -/

/-- The word of a well-formed command is its row's match with the operand bits (30_encoding.md R71 to R73). -/
theorem encodedAs_row {i : Instr} (hwf : i.wf = true) : EncodedAs i i.op.matchWord i.op.maskWord i.operandWord :=
  ⟨decodeInvertsEncode i hwf, (Laws.rowMatch i).2⟩

theorem exec_of_ruleOf_ok {i : Instr} {s u : State} (h : ruleOf i s = .ok u) : exec i s = .next (retire .ok u) := by
  rw [exec_eq_runRule, h, runRule_ok]

theorem completes_retire {s u : State} (e : ErrCode) (herr : u.err = s.err) : Completes e s (retire e u) :=
  ⟨rfl, rfl, by rw [retire_err, herr], rfl⟩

theorem SameHost.refl (s : State) : SameHost s s := ⟨rfl, rfl, rfl, rfl, rfl, rfl, rfl, rfl, rfl⟩

theorem sameHost_retire {s u : State} (h : SameHost s u) (e : ErrCode) : SameHost s (retire e u) :=
  ⟨h.params, h.ovr, h.doneIE, h.errIE, h.inReset, h.hostQueue, h.hostData, h.draws, h.delay⟩

/-! CLR step by step, the mask bit moved into the fields the step writes. -/

theorem onBit_clearFreq (b : Bool) (s : State) :
    onBit b clearFreq s =
      { s with freq := if b then [] else s.freq, total := if b then 0 else s.total, ndist := if b then 0 else s.ndist } := by
  cases b <;> rfl

theorem onBit_clearTree (b : Bool) (s : State) :
    onBit b clearTree s =
      { s with treeValid := s.treeValid && !b, treeN := if b then 0 else s.treeN, root := if b then 0 else s.root,
               cursor := if b then 0 else s.cursor, codesValid := s.codesValid && !b } := by
  cases b <;> simp [onBit, clearTree]

theorem onBit_clearCodes (b : Bool) (s : State) :
    onBit b clearCodes s = { s with codesValid := s.codesValid && !b } := by
  cases b <;> simp [onBit, clearCodes]

theorem onBit_clearBits (b : Bool) (s : State) : onBit b clearBits s = { s with bitlen := if b then 0 else s.bitlen } := by
  cases b <;> rfl

theorem onBit_clearSyms (b : Bool) (s : State) : onBit b clearSyms s = { s with symlen := if b then 0 else s.symlen } := by
  cases b <;> rfl

theorem onBit_homeDecoder (b : Bool) (s : State) :
    onBit b homeDecoder s = { s with cursor := if b then s.root else s.cursor } := by
  cases b <;> rfl

/-- What CLR leaves, field by field: the D step moves the cursor to the ROOT the T step left. -/
theorem clrRule_eq (mask : BitVec 6) (s : State) :
    clrRule mask s =
      { s with
        freq := if clearsFreq mask then [] else s.freq
        total := if clearsFreq mask then 0 else s.total
        ndist := if clearsFreq mask then 0 else s.ndist
        treeValid := s.treeValid && !clearsTree mask
        treeN := if clearsTree mask then 0 else s.treeN
        root := if clearsTree mask then 0 else s.root
        codesValid := s.codesValid && !clearsTree mask && !clearsCodes mask
        bitlen := if clearsBits mask then 0 else s.bitlen
        symlen := if clearsSyms mask then 0 else s.symlen
        cursor :=
          if clearsDecoder mask then if clearsTree mask then 0 else s.root
          else if clearsTree mask then 0 else s.cursor } := by
  simp only [clrRule, onBit_clearFreq, onBit_clearTree, onBit_clearCodes, onBit_clearBits, onBit_clearSyms,
    onBit_homeDecoder]

/-! CLR by mask bit. -/

section ClrBits

variable {mask : BitVec 6} (s : State)

theorem clrRule_freq_cleared (h : clearsFreq mask = true) :
    (∀ x, (clrRule mask s).freqAt x = 0) ∧ (clrRule mask s).total = 0 ∧ (clrRule mask s).ndist = 0 := by
  simp [clrRule_eq, h, State.freqAt, freqDefault]

theorem clrRule_sameFreq (h : clearsFreq mask = false) : SameFreq s (clrRule mask s) := by
  constructor <;> simp [clrRule_eq, h]

theorem clrRule_tree_cleared (h : clearsTree mask = true) :
    (clrRule mask s).treeValid = false ∧ (clrRule mask s).treeN = 0 ∧ (clrRule mask s).root = 0 ∧
      (clrRule mask s).cursor = 0 ∧ (clrRule mask s).codesValid = false := by
  simp [clrRule_eq, h]

theorem clrRule_sameTree (h : clearsTree mask = false) : SameTree s (clrRule mask s) := by
  constructor <;> simp [clrRule_eq, h]

/-- Where the T step is not taken, bit 2 alone decides CODES_VALID and bit 5 alone the cursor. -/
theorem clrRule_codesValid_cursor (h : clearsTree mask = false) :
    (clrRule mask s).codesValid = (s.codesValid && !clearsCodes mask) ∧
      (clrRule mask s).cursor = if clearsDecoder mask then s.root else s.cursor := by
  simp [clrRule_eq, h]

theorem clrRule_lengths : (clrRule mask s).bitlen = (if clearsBits mask then 0 else s.bitlen) ∧
    (clrRule mask s).symlen = if clearsSyms mask then 0 else s.symlen := by
  simp [clrRule_eq]

theorem clrRule_err : (clrRule mask s).err = s.err := by rw [clrRule_eq]

theorem clrRule_sameHost : SameHost s (clrRule mask s) := by
  rw [clrRule_eq]
  exact ⟨rfl, rfl, rfl, rfl, rfl, rfl, rfl, rfl, rfl⟩

end ClrBits

/-! The obligations. -/

/-- Settles O21: the completion touches no store, so what CLR's rule leaves is what the command leaves. -/
theorem clrClearsSelectedStores : Obligations.ClrClearsSelectedStores := by
  intro mask s
  obtain ⟨hnode, hcode, hbitbuf, hsymbuf, hres⟩ := clrRule_contents mask s
  obtain ⟨hbitlen, hsymlen⟩ := clrRule_lengths (mask := mask) s
  refine ⟨encodedAs_row (i := .clr mask) rfl, retire .ok (clrRule mask s), exec_of_ruleOf_ok rfl,
    completes_retire .ok (clrRule_err s), clrRule_freq_cleared s, fun h => ?_, clrRule_tree_cleared s, fun h => ?_,
    hbitlen, hsymlen, hnode, hcode, hbitbuf, hsymbuf, ⟨hres.result0, hres.result1⟩, sameHost_retire (clrRule_sameHost s) .ok⟩
  · have hf := clrRule_sameFreq s h
    exact ⟨hf.freq, hf.total, hf.ndist⟩
  · have ht := clrRule_sameTree s h
    exact ⟨⟨ht.treeValid, ht.treeN, ht.root, ht.node⟩, clrRule_codesValid_cursor s h⟩

/-- Settles O20: NOP's rule is the state before it, so only the completion is left. -/
theorem nopOnlyCompletes : Obligations.NopOnlyCompletes :=
  ⟨encodedAs_row (i := .nop) rfl, fun s => ⟨retire .ok s, exec_of_ruleOf_ok rfl, completes_retire .ok rfl,
    sameBlock_retire .ok s, sameHost_retire (.refl s) .ok⟩⟩

end Sys2Proof.Machine

end

/-! 41_frequency.md R90, R91, R93: the frequency counter. COUNT and COUNTN are one addition to the table behind an overflow
check; n additions of 1 are one of n, and the additions of a sequence are its tally. -/
section

namespace Sys2Proof.Machine

/-! What the statement of a command asks for that ends in an error, and of a word whose operands its row refuses. -/

theorem exec_of_ruleOf_error {i : Instr} {s : State} {e : ErrCode} (h : ruleOf i s = .error e) :
    exec i s = .next (raiseError e s) := by
  rw [exec_eq_runRule, h, runRule_error]

theorem execAll_cons {i : Instr} {is : List Instr} {s t : State} (h : exec i s = .next t) :
    execAll (i :: is) s = execAll is t := by
  rw [execAll, h]

/-- A command that is not well formed matches its row and is refused for its operands (30_encoding.md R76). -/
theorem decode_encode_of_not_wf {i : Instr} (h : i.wf = false) : decode (encode i) = .error .illegalField := by
  rw [Laws.decode_row (Laws.rowMatch i).2, Laws.fields_encode, h]
  rfl

/-! COUNT and COUNTN answer in every state (41_frequency.md R90, R91). -/

theorem countRule_of_total_ne {s : State} (x : Sym) (h : s.total ≠ 0xFFFFFFFF) : countRule x s = .ok (addCount x 1 s) :=
  if_neg h

theorem countRule_of_total_eq {s : State} (x : Sym) (h : s.total = 0xFFFFFFFF) : countRule x s = .error .overflow :=
  if_pos h

theorem countnRule_of_fits {s : State} {n : BitVec 16} (x : Sym) (hn : n ≠ 0)
    (h : s.total.toNat + n.toNat ≤ 0xFFFFFFFF) : countnRule x n s = .ok (addCount x (zext32 n) s) := by
  rw [countnRule, if_neg hn, if_neg (Nat.not_lt.mpr h)]

theorem countnRule_of_overflows {s : State} {n : BitVec 16} (x : Sym) (hn : n ≠ 0)
    (h : s.total.toNat + n.toNat > 0xFFFFFFFF) : countnRule x n s = .error .overflow := by
  rw [countnRule, if_neg hn, if_pos h]

theorem exec_count_of_total_lt {s : State} (x : Sym) (h : s.total.toNat + 1 < 2 ^ 32) :
    exec (.count x) s = .next (retire .ok (addCount x 1 s)) :=
  exec_of_ruleOf_ok (countRule_of_total_ne x fun h0 => by rw [h0] at h; exact absurd h (by decide))

/-! What a completed COUNT or COUNTN leaves of the state before it. -/

/-- Everything but the frequency table and the completion fields unchanged. -/
structure SameButFreq (s t : State) : Prop where
  tree : SameTree s t
  codes : SameCodes s t
  cursor : t.cursor = s.cursor
  bits : SameBits s t
  syms : SameSyms s t
  results : SameResults s t
  host : SameHost s t

theorem sameButFreq_retire_addCount (e : ErrCode) (x : Sym) (n : Count) (s : State) :
    SameButFreq s (retire e (addCount x n s)) where
  tree := ⟨rfl, rfl, rfl, rfl⟩
  codes := ⟨rfl, rfl⟩
  cursor := rfl
  bits := ⟨rfl, rfl⟩
  syms := ⟨rfl, rfl⟩
  results := ⟨rfl, rfl⟩
  host := ⟨rfl, rfl, rfl, rfl, rfl, rfl, rfl, rfl, rfl⟩

theorem freqAt_addCount_same (x : Sym) (n : Count) (s : State) : (addCount x n s).freqAt x = s.freqAt x + n := by
  rw [freqAt_addCount, if_pos rfl]

theorem freqAt_addCount_of_ne {x y : Sym} (h : y ≠ x) (n : Count) (s : State) :
    (addCount x n s).freqAt y = s.freqAt y := by
  rw [freqAt_addCount, if_neg h]

theorem total_addCount_toNat {s : State} {n : Count} (x : Sym) (hfit : s.total.toNat + n.toNat < 2 ^ 32) :
    (addCount x n s).total.toNat = s.total.toNat + n.toNat := by
  rw [addCount_total, BitVec.toNat_add, Nat.mod_eq_of_lt hfit]

theorem freqInv_retire {s : State} (h : FreqInv s) (e : ErrCode) : FreqInv (retire e s) :=
  h.congr (sameBlock_retire e s).freq

/-- Settles O22: the overflow check decides, and COUNT's rule adds one. -/
theorem countAddsOne : Obligations.CountAddsOne := by
  intro x s
  refine ⟨encodedAs_row (i := .count x) rfl, fun h => ?_, fun h => ?_⟩
  · obtain ⟨tree, codes, cursor, bits, syms, results, host⟩ := sameButFreq_retire_addCount .ok x 1 s
    exact ⟨_, exec_of_ruleOf_ok (countRule_of_total_ne x h), completes_retire .ok rfl, freqAt_addCount_same x 1 s,
      fun y hy => freqAt_addCount_of_ne hy 1 s, rfl, rfl, tree, codes, cursor, bits, syms, results, host⟩
  · exact ⟨_, exec_of_ruleOf_error (countRule_of_total_eq x h), Laws.failsWith_raiseError .overflow s⟩

/-! n COUNT commands are one addition of n (R91). -/

theorem addCount_retire (x : Sym) (n : Count) (e : ErrCode) (s : State) :
    addCount x n (retire e s) = retire e (addCount x n s) := rfl

theorem retire_retire (s : State) : retire .ok (retire .ok s) = retire .ok s := by
  simp [retire, completion]

/-- Two additions to one count are one, unless the first wraps the count to 0 and the symbol is taken for new again. -/
theorem addCount_addCount {x : Sym} {m : Count} (n : Count) {s : State} (h : (addCount x m s).freqAt x ≠ 0) :
    addCount x n (addCount x m s) = addCount x (m + n) s := by
  rw [addCount, if_neg h, freqAt_addCount_same, addCount_freq, Memory.write_write, addCount_total]
  simp only [addCount, BitVec.add_assoc]

theorem execAll_replicate_count {x : Sym} {k : Nat} {s : State} (hs : FreqInv s)
    (hfit : s.total.toNat + (k + 1) < 2 ^ 32) :
    execAll (List.replicate (k + 1) (.count x)) s = .next (retire .ok (addCount x (BitVec.ofNat 32 (k + 1)) s)) := by
  induction k generalizing s with
  | zero =>
    rw [List.replicate_succ, execAll_cons (exec_count_of_total_lt x hfit)]
    rfl
  | succ k ih =>
    have hone : s.total.toNat + 1 < 2 ^ 32 := by omega
    have htotal : (addCount x 1 s).total.toNat = s.total.toNat + 1 := total_addCount_toNat x hone
    have hinv : FreqInv (addCount x 1 s) := freqInv_addCount hs hone (by decide)
    have hcounted : (addCount x 1 s).freqAt x ≠ 0 := freqAt_addCount_ne_zero hs hone (by decide)
    have hsum : (1 : Count) + BitVec.ofNat 32 (k + 1) = BitVec.ofNat 32 (k + 1 + 1) :=
      (BitVec.ofNat_add 1 (k + 1)).symm.trans (congrArg _ (Nat.add_comm 1 (k + 1)))
    rw [List.replicate_succ, execAll_cons (exec_count_of_total_lt x hone),
      ih (freqInv_retire hinv .ok) (by rw [retire_total]; omega), addCount_retire, retire_retire,
      addCount_addCount _ hcounted, hsum]

/-- Settles O23: COUNTN's rule adds n at once, and so do n COUNT commands one by one, none of which overflows. -/
theorem countnAddsN : Obligations.CountnAddsN := by
  intro x n s
  refine ⟨fun hn => encodedAs_row (i := .countn x n) (by simpa [Instr.wf] using hn), ?_, fun hn hfit => ?_, fun hn h => ?_⟩
  · have hw : encode (.countn x 0) = 0x18000000 ||| x.setWidth 32 := by
      simp [encode, Instr.op, Op.matchWord, Instr.operandWord]
    exact hw ▸ decode_encode_of_not_wf rfl
  · have hz : (zext32 n).toNat = n.toNat := by rw [zext32, BitVec.toNat_setWidth_of_le (by decide)]
    obtain ⟨tree, codes, cursor, bits, syms, results, host⟩ := sameButFreq_retire_addCount .ok x (zext32 n) s
    refine ⟨_, exec_of_ruleOf_ok (countnRule_of_fits x hn hfit), completes_retire .ok rfl, freqAt_addCount_same x _ s,
      fun y hy => freqAt_addCount_of_ne hy _ s, ?_, rfl, tree, codes, cursor, bits, syms, results, host, fun hs => ?_⟩
    · exact hz ▸ total_addCount_toNat x (by omega)
    · obtain ⟨k, hk⟩ : ∃ k, n.toNat = k + 1 :=
        Nat.exists_eq_succ_of_ne_zero fun h0 => hn (BitVec.eq_of_toNat_eq h0)
      have hzk : zext32 n = BitVec.ofNat 32 (k + 1) := by rw [← hk, ← hz, BitVec.ofNat_toNat, BitVec.setWidth_eq]
      rw [hk, execAll_replicate_count hs (by omega), hzk]
  · exact ⟨_, exec_of_ruleOf_error (countnRule_of_overflows x hn h), Laws.failsWith_raiseError .overflow s⟩

/-! Counting a sequence (R93). -/

/-- `t` is `s` with each symbol of `ss` counted once, and every command completed with code 0. -/
structure Counted (ss : List Sym) (s t : State) : Prop where
  inv : FreqInv t
  lastErr : t.lastErr = .ok
  err : t.err = s.err
  total : t.total.toNat = s.total.toNat + ss.length
  freqAt : ∀ x, (t.freqAt x).toNat = (s.freqAt x).toNat + ss.count x

theorem counted_nil {s : State} (hs : FreqInv s) (hok : s.lastErr = .ok) : Counted [] s s :=
  ⟨hs, hok, rfl, rfl, fun _ => rfl⟩

theorem counted_addCount {s : State} (x : Sym) (hs : FreqInv s) (hfit : s.total.toNat + 1 < 2 ^ 32) :
    Counted [x] s (retire .ok (addCount x 1 s)) where
  inv := freqInv_retire (freqInv_addCount (n := 1) hs hfit (by decide)) .ok
  lastErr := rfl
  err := by simp
  total := total_addCount_toNat (n := 1) x hfit
  freqAt := by
    intro y
    rw [freqAt_retire]
    by_cases h : y = x
    · rw [h, freqAt_addCount_toNat (n := 1) hs hfit, List.count_singleton_self]; rfl
    · rw [freqAt_addCount_of_ne h, List.count_eq_zero_of_not_mem (by simpa using h), Nat.add_zero]

theorem Counted.append {as bs : List Sym} {s t u : State} (h : Counted as s t) (k : Counted bs t u) :
    Counted (as ++ bs) s u where
  inv := k.inv
  lastErr := k.lastErr
  err := k.err.trans h.err
  total := by rw [k.total, h.total, List.length_append, Nat.add_assoc]
  freqAt x := by rw [k.freqAt, h.freqAt, List.count_append, Nat.add_assoc]

theorem execAll_map_count {ss : List Sym} {s : State} (hs : FreqInv s) (hok : s.lastErr = .ok)
    (hfit : s.total.toNat + ss.length < 2 ^ 32) : ∃ t, execAll (ss.map .count) s = .next t ∧ Counted ss s t := by
  induction ss generalizing s with
  | nil => exact ⟨s, rfl, counted_nil hs hok⟩
  | cons x xs ih =>
    rw [List.length_cons] at hfit
    have hone : s.total.toNat + 1 < 2 ^ 32 := by omega
    have hx := counted_addCount x hs hone
    obtain ⟨t, hrun, hxs⟩ := ih hx.inv rfl (by rw [hx.total, List.length_singleton]; omega)
    exact ⟨t, (execAll_cons (exec_count_of_total_lt x hone)).trans hrun, hx.append hxs⟩

/-- A table whose nonzero counts are those of the symbols of `ss` has one entry for each distinct symbol of `ss`. -/
theorem freqEntries_eq_dedup_length {s : State} {ss : List Sym} (h : ∀ x, s.freqAt x ≠ 0 ↔ x ∈ ss) :
    freqEntries s = ss.dedup.length := by
  have hperm : (countedSyms s).Perm (ss.dedup.map BitVec.toNat) := by
    refine (List.perm_ext_iff_of_nodup (countedSyms_pairwise s).nodup
      ((List.nodup_dedup ss).map BitVec.toNat_injective)).mpr fun k => ?_
    rw [mem_countedSyms, h, List.mem_map]
    constructor
    · rintro ⟨hk, hmem⟩
      exact ⟨_, List.mem_dedup.mpr hmem, (BitVec.toNat_ofNat k 8).trans (Nat.mod_eq_of_lt hk)⟩
    · rintro ⟨x, hmem, rfl⟩
      exact ⟨x.isLt, by simpa using hmem⟩
  exact hperm.length_eq.trans (List.length_map _)

/-- From an empty table, NDIST is the number of distinct symbols counted. -/
theorem Counted.ndist {ss : List Sym} {s t : State} (h : Counted ss s t) (h0 : ∀ x, s.freqAt x = 0) :
    t.ndist.toNat = ss.dedup.length := by
  rw [h.inv.ndist]
  refine freqEntries_eq_dedup_length fun x => ?_
  rw [← BitVec.toNat_ne_iff_ne, h.freqAt, h0]
  simp [List.count_eq_zero]

/-- The mask of CLR F takes the first step of CLR alone (40_control.md R86). -/
theorem clrRule_F (s : State) : clrRule 1 s = clearFreq s := rfl

/-- Settles O24: CLR F leaves the empty table, and each COUNT counts its symbol. -/
theorem countingConservesFrequency : Obligations.CountingConservesFrequency := by
  intro ss s hlen
  have hclr : exec (.clr 1) s = .next (retire .ok (clearFreq s)) := exec_of_ruleOf_ok (congrArg Except.ok (clrRule_F s))
  have hinv : FreqInv (retire .ok (clearFreq s)) := freqInv_of_freq_empty rfl rfl rfl
  have hzero : ∀ x, (retire .ok (clearFreq s)).freqAt x = 0 := fun _ => rfl
  obtain ⟨t, hrun, ht⟩ := execAll_map_count (ss := ss) hinv rfl (by simp; omega)
  exact ⟨t, (execAll_cons hclr).trans hrun, ht.lastErr, ht.err.trans (Bool.or_false _), by simpa using ht.total,
    fun x => by simpa [hzero] using ht.freqAt x, ht.ndist hzero⟩

end Sys2Proof.Machine

end

/-! 42_tree_builder.md R95 to R100, 60_exceptions.md R144: where BUILD puts the leaves and the root, the order of its merges, and
the commands that answer an error for want of a table or a tree. -/
section

namespace Sys2Proof.Machine

/-! The error cases of R144. -/

theorem exec_failsWith {i : Instr} {s : State} {e : ErrCode} (h : ruleOf i s = .error e) :
    ∃ t, exec i s = .next t ∧ FailsWith e s t :=
  ⟨_, exec_of_ruleOf_error h, Laws.failsWith_raiseError e s⟩

/-- Settles O29: each of the six rules checks the table or the tree first. -/
theorem missingTableOrTreeIsReported : Obligations.MissingTableOrTreeIsReported :=
  ⟨fun _ h => exec_failsWith (if_pos h), fun _ h =>
    ⟨exec_failsWith (if_pos h), fun _ => exec_failsWith (if_pos h), exec_failsWith (if_pos h), exec_failsWith (if_pos h),
      fun _ => exec_failsWith (if_pos h)⟩⟩

/-! The answer of BUILD (R95). -/

theorem exec_build {s : State} (hn : s.ndist ≠ 0) : exec .build s = .next (retire .ok (commitTree s)) :=
  exec_of_ruleOf_ok (if_neg hn)

theorem eq_of_exec_build {s t : State} (hn : s.ndist ≠ 0) (h : exec .build s = .next t) : t = retire .ok (commitTree s) := by
  simpa using h.symm.trans (exec_build hn)

theorem sameHost_commitTree (s : State) : SameHost s (commitTree s) := ⟨rfl, rfl, rfl, rfl, rfl, rfl, rfl, rfl, rfl⟩

/-- A leaf for each symbol with a count, and no other node (R96). -/
theorem mem_leaves {s : State} {x : Node} : x ∈ leaves s ↔ ∃ y : Sym, x = .leaf y (s.freqAt y) ∧ s.freqAt y ≠ 0 := by
  rw [leaves_eq_map, List.mem_map]
  constructor
  · rintro ⟨k, hk, rfl⟩
    exact ⟨BitVec.ofNat 8 k, rfl, (mem_countedSyms.mp hk).2⟩
  · rintro ⟨y, rfl, hy⟩
    have hofNat : BitVec.ofNat 8 y.toNat = y := BitVec.ofNat_toNat 8 y |>.trans (BitVec.setWidth_eq y)
    exact ⟨y.toNat, mem_countedSyms.mpr ⟨y.isLt, by rwa [hofNat]⟩, by rw [leafOf, hofNat]⟩

/-- Settles O25: the leaves stand first in the arena, in their order, and the commit writes the arena and nothing beyond it. -/
theorem buildPlacesLeavesAndRoot : Obligations.BuildPlacesLeavesAndRoot := by
  refine ⟨encodedAs_row (i := .build) rfl, fun s hn => ⟨_, exec_build hn, completes_retire .ok rfl, rfl, rfl, ?treeN, ?root, rfl,
    ?leaf, ?order, ?symbol, ?beyond, ⟨rfl, rfl, rfl⟩, rfl, ⟨rfl, rfl⟩, ⟨rfl, rfl⟩, ⟨rfl, rfl⟩,
    sameHost_retire (sameHost_commitTree s) .ok⟩⟩ <;> rw [← leaves_length]
  case treeN => exact toNat_commitTree_treeN s
  case root => exact toNat_commitTree_root s
  case leaf =>
    intro k hk
    obtain ⟨x, hx, hne⟩ := mem_leaves.mp (List.getElem_mem hk)
    exact ⟨x, (nodeNo_commitTree_leaf hk).trans hx, hne⟩
  case order =>
    intro j hj k hkj
    change ((commitTree s).nodeNo k).sym < ((commitTree s).nodeNo j).sym
    rw [nodeNo_commitTree_leaf hj, nodeNo_commitTree_leaf (hkj.trans hj)]
    exact List.pairwise_iff_getElem.mp (leaves_pairwise s) k j _ _ hkj
  case symbol =>
    intro x hx
    obtain ⟨k, hk, hget⟩ := List.getElem_of_mem (mem_leaves.mpr ⟨x, rfl, hx⟩)
    exact ⟨k, hk, (nodeNo_commitTree_leaf hk).trans hget⟩
  case beyond =>
    intro i hi
    exact (nodeRead_commitTree s i).trans (if_neg (by rw [buildArena_length]; omega))

/-! The order of the merges (R97, R98), in the arena as it grows. -/

/-- `InSetAt` in an arena over `n` leaves: node `i` is made before `k`, and no node made before `k` owns it. -/
def InArenaSet (n : Nat) (arena : List Node) (k i : Nat) : Prop :=
  i < k ∧ ∀ p < k, n ≤ p →
    ((arena.getD p nodeDefault).child false).toNat ≠ i ∧ ((arena.getD p nodeDefault).child true).toNat ≠ i

/-- Node `k` is the merge of the two least nodes of the set it was made from (R97, R98). -/
def LeastMerge (n : Nat) (arena : List Node) (k : Nat) : Prop :=
  ∃ a b, arena.getD k nodeDefault = mergeNode arena a b ∧ a ≠ b ∧ InArenaSet n arena k a ∧ InArenaSet n arena k b ∧
    (∀ i, InArenaSet n arena k i → i ≠ a → keyBefore arena a i = true) ∧
    (∀ i, InArenaSet n arena k i → i ≠ a → i ≠ b → keyBefore arena b i = true)

section Append

variable {n k a b : Nat} {arena : List Node} (x : Node)

theorem inArenaSet_append (hk : k ≤ arena.length) (i : Nat) :
    InArenaSet n (arena ++ [x]) k i ↔ InArenaSet n arena k i := by
  refine and_congr_right fun _ => forall₂_congr fun p hp => ?_
  rw [List.getD_append _ _ _ _ (hp.trans_le hk)]

theorem mergeNode_append (ha : a < arena.length) (hb : b < arena.length) :
    mergeNode (arena ++ [x]) a b = mergeNode arena a b := by
  rw [mergeNode, arenaFreq_append ha, arenaFreq_append hb, mergeNode]

theorem keyBefore_append (ha : a < arena.length) (hb : b < arena.length) :
    keyBefore (arena ++ [x]) a b = keyBefore arena a b := by
  rw [keyBefore, arenaFreq_append ha, arenaFreq_append hb, keyBefore]

theorem LeastMerge.append (h : LeastMerge n arena k) (hk : k < arena.length) : LeastMerge n (arena ++ [x]) k := by
  obtain ⟨a, b, hnode, hab, ha, hb, hleast, hnext⟩ := h
  have hla := ha.1.trans hk
  have hlb := hb.1.trans hk
  refine ⟨a, b, ?_, hab, ?_, ?_, fun i hi => ?_, fun i hi => ?_⟩
  · rw [List.getD_append _ _ _ _ hk, hnode, mergeNode_append x hla hlb]
  · rwa [inArenaSet_append x hk.le]
  · rwa [inArenaSet_append x hk.le]
  · rw [inArenaSet_append x hk.le] at hi
    rw [keyBefore_append x hla (hi.1.trans hk)]
    exact hleast i hi
  · rw [inArenaSet_append x hk.le] at hi
    rw [keyBefore_append x hlb (hi.1.trans hk)]
    exact hnext i hi

/-- What the set becomes when the arena grows by a node: the new node's children leave it. -/
theorem inArenaSet_append_succ (hn : n ≤ arena.length) (i : Nat) :
    InArenaSet n (arena ++ [x]) (arena.length + 1) i ↔
      i < arena.length + 1 ∧
        (∀ p < arena.length, n ≤ p →
          ((arena.getD p nodeDefault).child false).toNat ≠ i ∧ ((arena.getD p nodeDefault).child true).toNat ≠ i) ∧
        (x.child false).toNat ≠ i ∧ (x.child true).toNat ≠ i := by
  refine and_congr_right fun _ => ?_
  rw [Nat.forall_lt_succ_right]
  refine and_congr (forall₂_congr fun p hp => ?_) ?_
  · rw [List.getD_append _ _ _ _ hp]
  · simp [hn]

end Append

/-- The invariant of the merge loop for the order of extraction: the set is the nodes no node owns, and every node from `n` on
was made of the two least. -/
structure LeastInv (n : Nat) (arena : List Node) (h : List Nat) : Prop where
  nodup : h.Nodup
  size : arena.length + h.length = 2 * n
  leafCount : n ≤ arena.length
  inSet : ∀ i, i ∈ h ↔ InArenaSet n arena arena.length i
  least : ∀ k, n ≤ k → k < arena.length → LeastMerge n arena k

theorem leastInv_leaves (arena : List Node) : LeastInv arena.length arena (List.range arena.length) where
  nodup := List.nodup_range
  size := by rw [List.length_range]; omega
  leafCount := le_rfl
  inSet i := by
    rw [List.mem_range]
    exact (and_iff_left fun p hp hle => absurd hp (by omega)).symm
  least k hk hlt := absurd hlt (by omega)

theorem LeastMerge.children_lt {n k : Nat} {arena : List Node} (h : LeastMerge n arena k) :
    ((arena.getD k nodeDefault).child false).toNat < k ∧ ((arena.getD k nodeDefault).child true).toNat < k := by
  obtain ⟨a, b, hnode, -, ⟨ha, -⟩, ⟨hb, -⟩, -⟩ := h
  rw [hnode]
  simp only [mergeNode, Node.child, BitVec.toNat_ofNat]
  exact ⟨(Nat.mod_le a _).trans_lt ha, (Nat.mod_le b _).trans_lt hb⟩

theorem leastInv_merge {n : Nat} (hn : n ≤ 256) {arena : List Node} {h : List Nat} {a b : Nat}
    (ha : minKey arena h = some a) (hb : minKey arena (h.erase a) = some b) (hI : LeastInv n arena h) :
    LeastInv n (arena ++ [mergeNode arena a b]) ((h.erase a).erase b ++ [arena.length]) := by
  obtain ⟨hma, hleast⟩ := minKey_spec ha
  obtain ⟨hmb, hnext⟩ := minKey_spec hb
  obtain ⟨hba, hmb'⟩ := hI.nodup.mem_erase_iff.mp hmb
  have hlt : ∀ x ∈ h, x < arena.length := fun x hx => ((hI.inSet x).mp hx).1
  have hlen := length_erase_erase hI.nodup hma hmb' hba.symm
  have hpos := List.length_pos_of_mem hmb
  rw [List.length_erase_of_mem hma] at hpos
  have hsize := hI.size
  have hleaf := hI.leafCount
  have hla := hlt a hma
  have hlb := hlt b hmb'
  have hmem : ∀ i, i ∈ (h.erase a).erase b ↔ i ≠ b ∧ i ≠ a ∧ i ∈ h := fun i => by
    rw [(hI.nodup.erase a).mem_erase_iff, hI.nodup.mem_erase_iff]
  refine { nodup := (mergeSet_next (n := mergeNode arena a b) hI.nodup hlt).1, size := ?size, leafCount := ?leafCount
           inSet := ?inSet, least := ?least }
  case size => simp only [List.length_append, List.length_singleton, hlen]; omega
  case leafCount => rw [List.length_append]; omega
  case inSet =>
    intro i
    have hca : ((mergeNode arena a b).child false).toNat = a := Nat.mod_eq_of_lt (by omega)
    have hcb : ((mergeNode arena a b).child true).toNat = b := Nat.mod_eq_of_lt (by omega)
    rw [List.length_append, List.length_singleton, inArenaSet_append_succ _ hleaf, hca, hcb, List.mem_append, hmem,
      List.mem_singleton, hI.inSet]
    obtain hi | rfl | hi := lt_trichotomy i arena.length
    · simp only [InArenaSet, hi, hi.ne, Nat.lt_succ_of_lt hi, true_and, or_false]
      tauto
    · have hnew : ∀ p < arena.length, n ≤ p → ((arena.getD p nodeDefault).child false).toNat ≠ arena.length ∧
          ((arena.getD p nodeDefault).child true).toNat ≠ arena.length := fun p hp hnp => by
        obtain ⟨hl, hr⟩ := (hI.least p hnp hp).children_lt
        omega
      exact iff_of_true (.inr rfl) ⟨by omega, hnew, hla.ne, hlb.ne⟩
    · exact iff_of_false (by rintro (⟨-, -, hlt', -⟩ | rfl) <;> omega) fun hlt' => by omega
  case least =>
    intro k hnk hk
    rw [List.length_append, List.length_singleton] at hk
    by_cases hklt : k < arena.length
    · exact (hI.least k hnk hklt).append _ hklt
    · obtain rfl : k = arena.length := by omega
      have hset := fun i => (inArenaSet_append (n := n) (mergeNode arena a b) le_rfl i).trans (hI.inSet i).symm
      refine ⟨a, b, ?_, hba.symm, (hset a).mpr hma, (hset b).mpr hmb', fun i hi hia => ?_, fun i hi hia hib => ?_⟩
      · rw [mergeNode_append _ hla hlb]
        simp
      · rw [hset] at hi
        rw [keyBefore_append _ hla (hlt i hi)]
        exact hleast i hi hia
      · rw [hset] at hi
        rw [keyBefore_append _ hlb (hlt i hi)]
        exact hnext i (hI.nodup.mem_erase_iff.mpr ⟨hia, hi⟩) hib

theorem leastMerge_buildArena {s : State} {k : Nat} (hn : (leaves s).length ≤ k) (hk : k < (buildArena s).length) :
    LeastMerge (leaves s).length (buildArena s) k := by
  obtain ⟨h, hI, -⟩ := mergeLoop_induction (P := LeastInv (leaves s).length)
    (fun _ _ _ _ => leastInv_merge (leaves_length_le s)) (leaves s).length (leastInv_leaves (leaves s)) (by simp)
  exact hI.least k hn hk

/-! The same order read from the committed nodes. -/

theorem inSetAt_commitTree {s : State} {k : Nat} (hk : k ≤ (buildArena s).length) (i : Nat) :
    InSetAt (commitTree s) k i ↔ InArenaSet (leaves s).length (buildArena s) k i := by
  unfold InSetAt
  rw [toNat_commitTree_treeN]
  refine and_congr_right fun _ => forall₂_congr fun p hp => ?_
  rw [nodeNo_commitTree (hp.trans_le hk), List.getD_eq_getElem _ _ (hp.trans_le hk)]

theorem keyLess_commitTree {s : State} {x y : Nat} (hx : x < (buildArena s).length) (hy : y < (buildArena s).length) :
    KeyLess (commitTree s) x y ↔ keyBefore (buildArena s) x y = true := by
  rw [keyBefore_iff, arenaFreq_eq_nodeNo hx, arenaFreq_eq_nodeNo hy, KeyLess]

/-- Settles O26: the merge loop keeps the set of unowned nodes and takes its two least, and the arena it leaves is committed. -/
theorem buildMergesTwoLeast : Obligations.BuildMergesTwoLeast := by
  intro s t hn h
  obtain rfl := eq_of_exec_build hn h
  change ∀ k, (commitTree s).treeN.toNat ≤ k → k < 2 * (commitTree s).treeN.toNat - 1 → _
  intro k hnk hk
  rw [toNat_commitTree_treeN] at hnk hk
  rw [← buildArena_length] at hk
  obtain ⟨a, b, hnode, hab, ha, hb, hleast, hnext⟩ := leastMerge_buildArena hnk hk
  have hset : ∀ i, InSetAt (retire .ok (commitTree s)) k i ↔ InArenaSet (leaves s).length (buildArena s) k i :=
    inSetAt_commitTree hk.le
  have hmax : (buildArena s).length ≤ 511 := buildArena_length_le s
  have hla := ha.1.trans hk
  have hlb := hb.1.trans hk
  have hat : (BitVec.ofNat 9 a).toNat = a := Nat.mod_eq_of_lt (by omega)
  have hbt : (BitVec.ofNat 9 b).toNat = b := Nat.mod_eq_of_lt (by omega)
  refine ⟨BitVec.ofNat 9 a, BitVec.ofNat 9 b, ?_, fun he => hab ?_, ?_⟩
  · change (commitTree s).nodeNo k =
      .internal (((commitTree s).nodeNo (BitVec.ofNat 9 a).toNat).freq + ((commitTree s).nodeNo (BitVec.ofNat 9 b).toNat).freq) _ _
    rw [nodeNo_commitTree hk, ← List.getD_eq_getElem _ nodeDefault hk, hnode, mergeNode, hat, hbt,
      arenaFreq_eq_nodeNo hla, arenaFreq_eq_nodeNo hlb]
  · rw [← hat, ← hbt, he]
  · simp only [hat, hbt, hset]
    exact ⟨ha, hb, fun i hi hia => (keyLess_commitTree hla (hi.1.trans hk)).mpr (hleast i hi hia),
      fun i hi hia hib => (keyLess_commitTree hlb (hi.1.trans hk)).mpr (hnext i hi hia hib)⟩

end Sys2Proof.Machine

end

/-! 42_tree_builder.md R101: sums over a held tree. Every node but the root is one child of one internal node, so a sum over the
children of all internal nodes is a sum over all nodes but the root. -/
section

namespace Sys2Proof.Machine

/-- The number of a child. -/
def State.childNo (s : State) (k : Nat) (b : Bool) : Nat := ((s.nodeNo k).child b).toNat

/-- The weighted depth of the leaves below node number `k`, counted from `k`. -/
def depthCost (s : State) (k : Nat) : Nat := weightedDepth s (k + 1) (BitVec.ofNat 9 k) 0

theorem nodeAt_ofNat {s : State} {k : Nat} (hk : k ≤ s.root.toNat) : s.nodeAt (BitVec.ofNat 9 k) = s.nodeNo k := by
  rw [nodeAt_eq_nodeNo, BitVec.toNat_ofNat, Nat.mod_eq_of_lt (hk.trans_lt s.root.isLt)]

/-- A sum over the leaves by number is their sum as a list. -/
theorem map_getD_range_leaves (s : State) (F : Node → Nat) :
    ((List.range (leaves s).length).map fun i => F ((leaves s).getD i nodeDefault)) = (leaves s).map F :=
  List.ext_getElem (by simp) fun i hi _ => by
    rw [List.length_map, List.length_range] at hi
    simp [hi]

section Held

variable {s : State} (hT : HeldTree s)
include hT

theorem HeldTree.treeN_le_root_succ : s.treeN.toNat ≤ s.root.toNat + 1 := by
  have hsize := hT.size
  have hroot := hT.root
  omega

theorem HeldTree.root_lt_nnode : s.root.toNat < Config.nnode := by
  have hroot := hT.root
  obtain ⟨-, hsize⟩ := hT.size
  have hnsym : Config.nsym = 256 := rfl
  have hnnode : Config.nnode = 511 := rfl
  omega

theorem HeldTree.isLeaf_internal {k : Nat} (hn : s.treeN.toNat ≤ k) (hk : k ≤ s.root.toNat) :
    (s.nodeNo k).isLeaf = false := by
  have hsize := hT.size
  have hroot := hT.root
  exact (hT.internal k (by omega) hn).1

theorem HeldTree.childNo_lt {k : Nat} (hn : s.treeN.toNat ≤ k) (hk : k ≤ s.root.toNat) (b : Bool) : s.childNo k b < k := by
  have hsize := hT.size
  have hroot := hT.root
  obtain ⟨-, hl, hr, -⟩ := hT.internal k (by omega) hn
  cases b
  · exact hl
  · exact hr

theorem HeldTree.freq_eq_children {k : Nat} (hn : s.treeN.toNat ≤ k) (hk : k ≤ s.root.toNat) :
    (s.nodeNo k).freq.toNat =
      (s.nodeNo (s.childNo k false)).freq.toNat + (s.nodeNo (s.childNo k true)).freq.toNat := by
  have hsize := hT.size
  have hroot := hT.root
  obtain ⟨-, -, -, -, hfreq⟩ := hT.internal k (by omega) hn
  exact hfreq

/-- An internal node read as one: its children have smaller numbers, and its frequency is their exact sum. -/
theorem HeldTree.children_of_internal {x l r : NodeId} {f : Count} (hx : x.toNat ≤ s.root.toNat)
    (h : s.nodeAt x = .internal f l r) :
    l.toNat < x.toNat ∧ r.toNat < x.toNat ∧ f.toNat = (s.nodeAt l).freq.toNat + (s.nodeAt r).freq.toNat := by
  obtain ⟨hn, -⟩ := (hT.isInternal_iff hx).mpr (by rw [h]; rfl)
  have hl := hT.childNo_lt hn hx false
  have hr := hT.childNo_lt hn hx true
  have hfreq := hT.freq_eq_children hn hx
  rw [State.childNo, State.childNo, ← nodeAt_eq_nodeNo, h] at *
  exact ⟨hl, hr, hfreq⟩

/-- The children an internal node names, weighted by `f`. -/
theorem HeldTree.sum_names (f : Nat → Nat) {k : Nat} (hn : s.treeN.toNat ≤ k) (hk : k ≤ s.root.toNat) :
    ∑ i ∈ Finset.range s.root.toNat, f i * (s.nodeNo k).names i = f (s.childNo k false) + f (s.childNo k true) := by
  have hmem : ∀ b, s.childNo k b ∈ Finset.range s.root.toNat := fun b =>
    Finset.mem_range.mpr ((hT.childNo_lt hn hk b).trans_le hk)
  have hnames : ∀ i, f i * (s.nodeNo k).names i =
      (if s.childNo k false = i then f i else 0) + if s.childNo k true = i then f i else 0 := fun i => by
    rw [Node.names, hT.isLeaf_internal hn hk, if_neg Bool.false_ne_true, Nat.mul_add, mul_ite, mul_ite, mul_one, mul_zero]
    rfl
  simp only [hnames, Finset.sum_add_distrib, Finset.sum_ite_eq, hmem, if_true]

/-- Each node but the root is counted once among the children of the internal nodes. -/
theorem HeldTree.sum_children (f : Nat → Nat) :
    ∑ k ∈ Finset.Ico s.treeN.toNat (s.root.toNat + 1), (f (s.childNo k false) + f (s.childNo k true)) =
      ∑ i ∈ Finset.range s.root.toNat, f i := by
  have hleaves : ∀ k ∈ Finset.range s.treeN.toNat, ∑ i ∈ Finset.range s.root.toNat, f i * (s.nodeNo k).names i = 0 :=
    fun k hk => Finset.sum_eq_zero fun i _ => by
      rw [Node.names, (hT.leaf k (Finset.mem_range.mp hk)).1, if_pos rfl, mul_zero]
  have hinner : ∀ k ∈ Finset.Ico s.treeN.toNat (s.root.toNat + 1),
      ∑ i ∈ Finset.range s.root.toNat, f i * (s.nodeNo k).names i = f (s.childNo k false) + f (s.childNo k true) :=
    fun k hk => hT.sum_names f (Finset.mem_Ico.mp hk).1 (Nat.lt_succ_iff.mp (Finset.mem_Ico.mp hk).2)
  have hparent : ∀ i ∈ Finset.range s.root.toNat,
      f i = ∑ k ∈ Finset.range (s.root.toNat + 1), f i * (s.nodeNo k).names i := fun i hi => by
    rw [← Finset.mul_sum]
    exact (Nat.mul_one _).symm.trans (congrArg (f i * ·) (hT.parent i (Finset.mem_range.mp hi)).symm)
  rw [Finset.sum_congr rfl hparent, Finset.sum_comm, ← Finset.sum_range_add_sum_Ico _ hT.treeN_le_root_succ,
    Finset.sum_eq_zero hleaves, Nat.zero_add, Finset.sum_congr rfl hinner]

/-- A quantity that grows by `g` from the children of an internal node to the node is, at the root, its sum over the leaves and
the sum of `g` over the internal nodes. -/
theorem HeldTree.root_eq_sum {f g : Nat → Nat}
    (h : ∀ k, s.treeN.toNat ≤ k → k ≤ s.root.toNat → f k = f (s.childNo k false) + f (s.childNo k true) + g k) :
    f s.root.toNat =
      ∑ i ∈ Finset.range s.treeN.toNat, f i + ∑ k ∈ Finset.Ico s.treeN.toNat (s.root.toNat + 1), g k := by
  have hsplit := Finset.sum_range_add_sum_Ico f hT.treeN_le_root_succ
  have hinner : ∑ k ∈ Finset.Ico s.treeN.toNat (s.root.toNat + 1), f k =
      ∑ k ∈ Finset.Ico s.treeN.toNat (s.root.toNat + 1), (f (s.childNo k false) + f (s.childNo k true) + g k) :=
    Finset.sum_congr rfl fun k hk => by
      obtain ⟨hn, hlt⟩ := Finset.mem_Ico.mp hk
      exact h k hn (Nat.lt_succ_iff.mp hlt)
  rw [Finset.sum_add_distrib, hT.sum_children] at hinner
  rw [Finset.sum_range_succ] at hsplit
  omega

/-- The frequency of a node is the sum of the frequencies of the leaves below it (R101). -/
theorem HeldTree.leafFreqSum_eq {fuel : Nat} {x : NodeId} (hx : x.toNat ≤ s.root.toNat) (hfuel : x.toNat < fuel) :
    leafFreqSum s fuel x = (s.nodeAt x).freq.toNat := by
  induction fuel generalizing x with
  | zero => omega
  | succ fuel ih =>
    rw [leafFreqSum]
    cases hnode : s.nodeAt x with
    | leaf y f => rfl
    | internal f l r =>
      obtain ⟨hl, hr, hf⟩ := hT.children_of_internal hx hnode
      exact (congrArg₂ (· + ·) (ih (by omega) (by omega)) (ih (by omega) (by omega))).trans hf.symm

/-- Seen from `depth` levels above, every leaf below a node is `depth` deeper. -/
theorem HeldTree.weightedDepth_eq {fuel depth : Nat} {x : NodeId} (hx : x.toNat ≤ s.root.toNat) (hfuel : x.toNat < fuel) :
    weightedDepth s fuel x depth = depthCost s x.toNat + (s.nodeAt x).freq.toNat * depth := by
  induction hk : x.toNat using Nat.strong_induction_on generalizing x fuel depth with
  | _ k ih =>
    subst hk
    obtain ⟨fuel, rfl⟩ := Nat.exists_eq_succ_of_ne_zero (Nat.ne_zero_of_lt hfuel)
    rw [depthCost, BitVec.ofNat_toNat, BitVec.setWidth_eq, weightedDepth, weightedDepth]
    cases hnode : s.nodeAt x with
    | leaf y f => exact (Nat.zero_add _).symm
    | internal f l r =>
      obtain ⟨hl, hr, hf⟩ := hT.children_of_internal hx hnode
      simp only [Node.freq]
      rw [ih l.toNat hl (by omega) (by omega) rfl, ih r.toNat hr (by omega) (by omega) rfl,
        ih l.toNat hl (by omega) hl rfl, ih r.toNat hr (by omega) hr rfl, hf]
      ring

theorem HeldTree.depthCost_leaf {k : Nat} (hk : k < s.treeN.toNat) : depthCost s k = 0 := by
  have hle := hT.treeN_le_root_succ
  have hleaf := (hT.leaf k hk).1
  rw [depthCost, weightedDepth, nodeAt_ofNat (by omega)]
  cases hnode : s.nodeNo k with
  | leaf y f => rfl
  | internal f l r => rw [hnode] at hleaf; cases hleaf

/-- At an internal node every leaf is one level deeper than seen from its child. -/
theorem HeldTree.depthCost_internal {k : Nat} (hn : s.treeN.toNat ≤ k) (hk : k ≤ s.root.toNat) :
    depthCost s k = depthCost s (s.childNo k false) + depthCost s (s.childNo k true) + (s.nodeNo k).freq.toNat := by
  have hleaf := hT.isLeaf_internal hn hk
  have hl := hT.childNo_lt hn hk false
  have hr := hT.childNo_lt hn hk true
  have hfreq := hT.freq_eq_children hn hk
  rw [depthCost, weightedDepth, nodeAt_ofNat hk, hfreq]
  unfold State.childNo at *
  cases hnode : s.nodeNo k with
  | leaf y f => rw [hnode] at hleaf; cases hleaf
  | internal f l r =>
    rw [hnode] at hl hr
    have hwl := hT.weightedDepth_eq (depth := 1) (hl.le.trans hk) hl
    have hwr := hT.weightedDepth_eq (depth := 1) (hr.le.trans hk) hr
    simp only [Node.child, nodeAt_eq_nodeNo, mul_one, Nat.zero_add] at hwl hwr ⊢
    omega

/-- The weighted depth of the whole tree is the sum of the frequencies of its internal nodes. -/
theorem HeldTree.weightedDepth_root :
    weightedDepth s Config.nnode s.root 0 =
      ∑ k ∈ Finset.Ico s.treeN.toNat (s.root.toNat + 1), (s.nodeNo k).freq.toNat := by
  have hleaf : ∀ k ∈ Finset.range s.treeN.toNat, depthCost s k = 0 := fun k hk =>
    hT.depthCost_leaf (Finset.mem_range.mp hk)
  rw [hT.weightedDepth_eq le_rfl hT.root_lt_nnode, mul_zero, Nat.add_zero,
    hT.root_eq_sum fun k => hT.depthCost_internal, Finset.sum_eq_zero hleaf, Nat.zero_add]

end Held

/-! The obligation. -/

theorem heldTree_of_build {s t : State} (hs : FreqInv s) (hn : s.ndist ≠ 0) (h : exec .build s = .next t) : HeldTree t :=
  eq_of_exec_build hn h ▸ (heldTree_commitTree hs hn).congr (sameBlock_retire .ok _).tree

/-- The frequencies of the leaves BUILD places sum to TOTAL (R40, R96). -/
theorem sum_leaf_freq_commitTree {s : State} (hs : FreqInv s) :
    ∑ i ∈ Finset.range (commitTree s).treeN.toNat, ((commitTree s).nodeNo i).freq.toNat = s.total.toNat := by
  rw [toNat_commitTree_treeN, hs.total, ← leaves_sum, ← map_getD_range_leaves]
  exact Finset.sum_congr rfl fun i hi => by
    have hlt := Finset.mem_range.mp hi
    rw [nodeNo_commitTree_leaf hlt, List.getD_eq_getElem _ _ hlt]

/-- Settles O27: the root's frequency is the sum over the leaves because no internal node adds anything to its children's. -/
theorem buildFrequenciesAreSums : Obligations.BuildFrequenciesAreSums := by
  intro s t hs hn h
  have hT := heldTree_of_build hs hn h
  have hroot := hT.root_eq_sum (f := fun k => (t.nodeNo k).freq.toNat) (g := fun _ => 0)
    fun k => hT.freq_eq_children
  obtain rfl := eq_of_exec_build hn h
  refine ⟨BitVec.eq_of_toNat_eq ?_, fun x hx => (hT.leafFreqSum_eq hx (hx.trans_lt hT.root_lt_nnode)).symm, fun k hnk hk => ?_⟩
  · exact hroot.trans ((congrArg₂ (· + ·) (sum_leaf_freq_commitTree hs) Finset.sum_const_zero).trans (Nat.add_zero _))
  · exact hT.freq_eq_children hnk (by have := hT.root; omega)

end Sys2Proof.Machine

end

/-! The exchange argument behind 42_tree_builder.md R103. A tree is seen as its leaves' depths, and a set of depths belongs to a tree
only where Kraft's sum fits; from any such depths the two least nodes can be moved to the bottom and merged. -/
section

namespace Sys2Proof.Machine

/-- The sum of weight times depth over the nodes `h`. -/
def weightedSum (w d : Nat → Nat) (h : List Nat) : Nat := (h.map fun i => w i * d i).sum

/-- Kraft's sum of the depths `d` over the nodes `h`, in units of 2^-N. -/
def kraftSum (N : Nat) (d : Nat → Nat) (h : List Nat) : Nat := (h.map fun i => 2 ^ (N - d i)).sum

/-- The depths are at most `N` and meet Kraft's inequality. -/
structure KraftFits (N : Nat) (d : Nat → Nat) (h : List Nat) : Prop where
  bound : ∀ i ∈ h, d i ≤ N
  sum : kraftSum N d h ≤ 2 ^ N

section Exchange

variable {N : Nat} {w d : Nat → Nat} {h : List Nat} {a b : Nat}

theorem kraftSum_erase (ha : a ∈ h) : kraftSum N d h = 2 ^ (N - d a) + kraftSum N d (h.erase a) :=
  (List.sum_map_erase _ ha).symm

theorem weightedSum_erase (ha : a ∈ h) : weightedSum w d h = w a * d a + weightedSum w d (h.erase a) :=
  (List.sum_map_erase _ ha).symm

/-- Sums over a list after two nodes have swapped their depths. -/
theorem sum_map_swap (hnd : h.Nodup) (ha : a ∈ h) (hb : b ∈ h) (F : Nat → Nat → Nat) :
    (h.map fun i => F i (d (Equiv.swap a b i))).sum + (F a (d a) + F b (d b)) =
      (h.map fun i => F i (d i)).sum + (F a (d b) + F b (d a)) := by
  by_cases hab : b = a
  · subst hab
    simp
  · have hb' : b ∈ h.erase a := hnd.mem_erase_iff.mpr ⟨hab, hb⟩
    have hrest : (((h.erase a).erase b).map fun i => F i (d (Equiv.swap a b i))) =
        ((h.erase a).erase b).map fun i => F i (d i) := List.map_congr_left fun i hi => by
      obtain ⟨hib, hi⟩ := (hnd.erase a).mem_erase_iff.mp hi
      rw [Equiv.swap_apply_of_ne_of_ne (hnd.mem_erase_iff.mp hi).1 hib]
    rw [sum_erase_erase ha hb', sum_erase_erase ha hb', hrest, Equiv.swap_apply_left, Equiv.swap_apply_right]
    ring

theorem kraftSum_swap (hnd : h.Nodup) (ha : a ∈ h) (hb : b ∈ h) :
    kraftSum N (d ∘ Equiv.swap a b) h = kraftSum N d h := by
  have hswap := sum_map_swap (d := d) hnd ha hb fun _ n => 2 ^ (N - n)
  simp only [kraftSum, Function.comp_apply] at hswap ⊢
  omega

/-- Giving the lighter of two nodes the greater depth costs nothing. -/
theorem weightedSum_swap_le (hnd : h.Nodup) (ha : a ∈ h) (hb : b ∈ h) (hw : w a ≤ w b) (hd : d a ≤ d b) :
    weightedSum w (d ∘ Equiv.swap a b) h ≤ weightedSum w d h := by
  have hswap := sum_map_swap (d := d) hnd ha hb fun i n => w i * n
  have hcross : w a * d b + w b * d a ≤ w a * d a + w b * d b := mul_add_mul_le_mul_add_mul hw hd
  simp only [weightedSum, Function.comp_apply] at hswap ⊢
  omega

theorem kraftSum_append_singleton (l : List Nat) (c : Nat) : kraftSum N d (l ++ [c]) = 2 ^ (N - d c) + kraftSum N d l := by
  simp [kraftSum, Nat.add_comm]

theorem weightedSum_append_singleton (l : List Nat) (c : Nat) :
    weightedSum w d (l ++ [c]) = w c * d c + weightedSum w d l := by
  simp [weightedSum, Nat.add_comm]

theorem kraftSum_congr {d' : Nat → Nat} (hd : ∀ i ∈ h, d' i = d i) : kraftSum N d' h = kraftSum N d h :=
  congrArg List.sum (List.map_congr_left fun i hi => by rw [hd i hi])

theorem weightedSum_congr {w' d' : Nat → Nat} (hw : ∀ i ∈ h, w' i = w i) (hd : ∀ i ∈ h, d' i = d i) :
    weightedSum w' d' h = weightedSum w d h :=
  congrArg List.sum (List.map_congr_left fun i hi => by rw [hw i hi, hd i hi])

/-- Where every node but `a` is at most as deep as `b`, a node one level above `b` fits in the place of `a` and `b`: the
sum of the others is a multiple of the term of `b`, so what is left is one too. -/
theorem siblings_fit (ha : a ∈ h) (hb : b ∈ h.erase a) (hmax : ∀ i ∈ h.erase a, d i ≤ d b) (hd : KraftFits N d h) :
    ∃ e, d b = e + 1 ∧ 2 ^ (N - e) + kraftSum N d ((h.erase a).erase b) ≤ 2 ^ N := by
  have hdvd : 2 ^ (N - d b) ∣ kraftSum N d (h.erase a) := List.dvd_sum fun k hk => by
    obtain ⟨i, hi, rfl⟩ := List.mem_map.mp hk
    exact Nat.pow_dvd_pow 2 (Nat.sub_le_sub_left (hmax i hi) N)
  have hpos : 0 < 2 ^ (N - d a) := by positivity
  have hsum := hd.sum
  rw [kraftSum_erase ha] at hsum
  have hroom : kraftSum N d (h.erase a) + 2 ^ (N - d b) ≤ 2 ^ N :=
    Nat.le_of_lt_add_of_dvd (n := 2 ^ (N - d b)) (by omega) (hdvd.add (dvd_refl _)) (Nat.pow_dvd_pow 2 (Nat.sub_le N _))
  rw [kraftSum_erase hb] at hroom
  cases hdb : d b with
  | zero =>
    have : 0 < 2 ^ N := by positivity
    rw [hdb, Nat.sub_zero] at hroom
    omega
  | succ e =>
    have hbN := hd.bound b (List.mem_of_mem_erase hb)
    have hpow : 2 ^ (N - e) = 2 * 2 ^ (N - d b) := by rw [← Nat.pow_succ']; congr 1; omega
    exact ⟨e, rfl, by omega⟩

/-- The least node can be given the greatest depth there is. -/
theorem exists_deepest (hnd : h.Nodup) (ha : a ∈ h) (hw : ∀ i ∈ h, w a ≤ w i) :
    ∃ d', (∀ i, i ∉ h → d' i = d i) ∧ (∃ x ∈ h, d' a = d x) ∧ (∀ i ∈ h, d' i ≤ d' a) ∧
      kraftSum N d' h = kraftSum N d h ∧ weightedSum w d' h ≤ weightedSum w d h := by
  obtain ⟨x, hx, hmax⟩ := h.toFinset.exists_max_image d ⟨a, List.mem_toFinset.mpr ha⟩
  simp only [List.mem_toFinset] at hx hmax
  refine ⟨d ∘ Equiv.swap a x, fun i hi => ?_, ⟨x, hx, ?_⟩, fun i hi => ?_, kraftSum_swap hnd ha hx,
    weightedSum_swap_le hnd ha hx (hw x hx) (hmax a ha)⟩
  · rw [Function.comp_apply, Equiv.swap_apply_of_ne_of_ne (ne_of_mem_of_not_mem ha hi).symm
      (ne_of_mem_of_not_mem hx hi).symm]
  · rw [Function.comp_apply, Equiv.swap_apply_left]
  · rw [Function.comp_apply, Function.comp_apply, Equiv.swap_apply_left]
    refine hmax _ ?_
    rw [Equiv.swap_apply_def]
    split_ifs
    · exact hx
    · exact ha
    · exact hi

section TwoLeast

variable (hnd : h.Nodup) (ha : a ∈ h) (hb : b ∈ h.erase a) (hwa : ∀ i ∈ h, w a ≤ w i) (hwb : ∀ i ∈ h.erase a, w b ≤ w i)
include hnd ha hb hwa hwb

/-- The two least nodes can be given the two greatest depths. -/
theorem exists_twoDeepest (hd : KraftFits N d h) :
    ∃ d', KraftFits N d' h ∧ d' b ≤ d' a ∧ (∀ i ∈ h.erase a, d' i ≤ d' b) ∧ weightedSum w d' h ≤ weightedSum w d h := by
  obtain ⟨d₁, -, ⟨x, hx, hax⟩, hmax₁, hkraft₁, hcost₁⟩ := exists_deepest (N := N) (d := d) hnd ha hwa
  obtain ⟨d₂, hsame, ⟨y, hy, hby⟩, hmax₂, hkraft₂, hcost₂⟩ := exists_deepest (N := N) (d := d₁) (hnd.erase a) hb hwb
  have haa : d₂ a = d₁ a := hsame a fun h' => (hnd.mem_erase_iff.mp h').1 rfl
  have hba : d₂ b ≤ d₂ a := by
    rw [hby, haa]
    exact hmax₁ y (List.mem_of_mem_erase hy)
  have haN : d₂ a ≤ N := by
    rw [haa, hax]
    exact hd.bound x hx
  refine ⟨d₂, ⟨fun i hi => ?_, ?_⟩, hba, hmax₂, ?_⟩
  · by_cases hia : i = a
    · rwa [hia]
    · exact (hmax₂ i (hnd.mem_erase_iff.mpr ⟨hia, hi⟩)).trans (hba.trans haN)
  · rw [kraftSum_erase ha, hkraft₂, haa, ← kraftSum_erase ha, hkraft₁]
    exact hd.sum
  · rw [weightedSum_erase ha, haa]
    rw [weightedSum_erase (d := d₁) ha] at hcost₁
    omega

/-- The two least nodes can be merged into one a level above them. -/
theorem exists_mergedDepths {w' : Nat → Nat} {c : Nat} (hc : c ∉ h) (hw' : ∀ i ∈ h, w' i = w i) (hwc : w' c = w a + w b)
    (hd : KraftFits N d h) :
    ∃ d', KraftFits N d' ((h.erase a).erase b ++ [c]) ∧
      weightedSum w' d' ((h.erase a).erase b ++ [c]) + w' c ≤ weightedSum w d h := by
  obtain ⟨d', hd', hba, hmax, hcost⟩ := exists_twoDeepest hnd ha hb hwa hwb hd
  obtain ⟨e, he, hroom⟩ := siblings_fit ha hb hmax hd'
  have hsub : ∀ i ∈ (h.erase a).erase b, i ∈ h := fun i hi => List.mem_of_mem_erase (List.mem_of_mem_erase hi)
  have hrest : ∀ i ∈ (h.erase a).erase b, Function.update d' c e i = d' i := fun i hi =>
    Function.update_of_ne (ne_of_mem_of_not_mem (hsub i hi) hc) _ _
  refine ⟨Function.update d' c e, ⟨fun i hi => ?_, ?_⟩, ?_⟩
  · obtain hi | hi := List.mem_append.mp hi
    · rw [hrest i hi]
      exact hd'.bound i (hsub i hi)
    · rw [List.mem_singleton.mp hi, Function.update_self]
      have := hd'.bound b (List.mem_of_mem_erase hb)
      omega
  · rw [kraftSum_append_singleton, Function.update_self, kraftSum_congr hrest]
    exact hroom
  · rw [weightedSum_append_singleton, Function.update_self,
      weightedSum_congr (w := w) (fun i hi => hw' i (hsub i hi)) hrest, hwc]
    rw [weightedSum_erase ha, weightedSum_erase hb, he] at hcost
    have hda : w a * (e + 1) ≤ w a * d' a := Nat.mul_le_mul_left _ (he ▸ hba)
    linarith

end TwoLeast

end Exchange

end Sys2Proof.Machine

end

/-! 42_tree_builder.md R103: no tree over the table's symbols has a smaller weighted depth than BUILD's. The merge loop keeps a
lower bound for the cost of any other tree, and the bound it ends with is the weighted depth of the one it built. -/
section

namespace Sys2Proof.Machine

/-! The bound along the merge loop. -/

/-- The weight of a node of the arena. -/
def arenaWeight (arena : List Node) (i : Nat) : Nat := (arenaFreq arena i).toNat

/-- The sum of the frequencies of the merged nodes of an arena over `n` leaves. -/
def mergedSum (n : Nat) (arena : List Node) : Nat := ∑ k ∈ Finset.Ico n arena.length, arenaWeight arena k

/-- Depths for the set that meet Kraft's inequality and, with what the merges made so far add, cost `C` or less. -/
def CostBound (n N C : Nat) (arena : List Node) (h : List Nat) : Prop :=
  ∃ d, KraftFits N d h ∧ weightedSum (arenaWeight arena) d h + mergedSum n arena ≤ C

theorem arenaWeight_append {arena : List Node} {i : Nat} (h : i < arena.length) (x : Node) :
    arenaWeight (arena ++ [x]) i = arenaWeight arena i := by
  rw [arenaWeight, arenaFreq_append h, arenaWeight]

theorem mergedSum_append {n : Nat} {arena : List Node} (hn : n ≤ arena.length) (x : Node) :
    mergedSum n (arena ++ [x]) = mergedSum n arena + arenaWeight (arena ++ [x]) arena.length := by
  rw [mergedSum, List.length_append, List.length_singleton, Finset.sum_Ico_succ_top hn]
  exact congrArg (· + _) (Finset.sum_congr rfl fun k hk => arenaWeight_append (Finset.mem_Ico.mp hk).2 x)

theorem arenaWeight_le_of_minKey {arena : List Node} {h : List Nat} {a : Nat} (ha : minKey arena h = some a) :
    ∀ i ∈ h, arenaWeight arena a ≤ arenaWeight arena i := fun i hi => by
  by_cases hia : i = a
  · rw [hia]
  · obtain hlt | ⟨heq, -⟩ := (keyBefore_iff arena a i).mp ((minKey_spec ha).2 i hi hia)
    · exact (BitVec.lt_def.mp hlt).le
    · exact (congrArg BitVec.toNat heq).le

theorem costBound_merge {n N C : Nat} {arena : List Node} {h : List Nat} {a b : Nat} (ha : minKey arena h = some a)
    (hb : minKey arena (h.erase a) = some b) (hI : MergeInv n arena h) (hC : CostBound n N C arena h) :
    CostBound n N C (arena ++ [mergeNode arena a b]) ((h.erase a).erase b ++ [arena.length]) := by
  obtain ⟨d, hd, hcost⟩ := hC
  have hma := (minKey_spec ha).1
  have hmb := (minKey_spec hb).1
  have hnew : arenaWeight (arena ++ [mergeNode arena a b]) arena.length = arenaWeight arena a + arenaWeight arena b := by
    have hsum := sum_erase_erase hma hmb fun x => (arenaFreq arena x).toNat
    have hroom := hI.room
    rw [arenaWeight, arenaFreq_append_length]
    exact (BitVec.toNat_add _ _).trans (Nat.mod_eq_of_lt (by omega))
  obtain ⟨d', hd', hcost'⟩ := exists_mergedDepths (w' := arenaWeight (arena ++ [mergeNode arena a b])) hI.nodup hma hmb
    (arenaWeight_le_of_minKey ha) (arenaWeight_le_of_minKey hb) (fun hc => (hI.inSet _ hc).false)
    (fun i hi => arenaWeight_append (hI.inSet i hi) _) hnew hd
  refine ⟨d', hd', ?_⟩
  rw [mergedSum_append hI.leafCount]
  omega

/-- The merged frequencies of BUILD's arena are at most the weighted depth of the leaves at any depths a tree could give them. -/
theorem mergedSum_buildArena_le {s : State} (hs : FreqInv s) (hn : s.ndist ≠ 0) {N : Nat} {d : Nat → Nat}
    (hd : KraftFits N d (List.range (leaves s).length)) :
    mergedSum (leaves s).length (buildArena s) ≤
      weightedSum (arenaWeight (leaves s)) d (List.range (leaves s).length) := by
  have hstart : CostBound (leaves s).length N (weightedSum (arenaWeight (leaves s)) d (List.range (leaves s).length))
      (leaves s) (List.range (leaves s).length) :=
    ⟨d, hd, by rw [mergedSum, Finset.Ico_self, Finset.sum_empty, Nat.add_zero]⟩
  obtain ⟨h, ⟨-, d', -, hcost⟩, -⟩ := mergeLoop_induction
    (P := fun arena h => MergeInv (leaves s).length arena h ∧ CostBound (leaves s).length N _ arena h)
    (fun _ _ _ _ ha hb ⟨hI, hC⟩ => ⟨mergeInv_merge (leaves_length_le s) ha hb hI, costBound_merge ha hb hI hC⟩)
    (leaves s).length ⟨mergeInv_leaves hs hn, hstart⟩ (by simp)
  exact (Nat.le_add_left _ _).trans hcost

/-- The tree's weighted depth is the sum of its merged frequencies. -/
theorem weightedDepth_of_build {s t : State} (hs : FreqInv s) (hn : s.ndist ≠ 0) (h : exec .build s = .next t) :
    weightedDepth t Config.nnode t.root 0 = mergedSum (leaves s).length (buildArena s) := by
  have hpos := leaves_length_pos hs hn
  have hlen : (commitTree s).root.toNat + 1 = (buildArena s).length := by
    rw [toNat_commitTree_root, buildArena_length]
    omega
  rw [(heldTree_of_build hs hn h).weightedDepth_root]
  obtain rfl := eq_of_exec_build hn h
  rw [retire_treeN, retire_root, hlen, toNat_commitTree_treeN]
  exact Finset.sum_congr rfl fun k hk => congrArg BitVec.toNat (arenaFreq_eq_nodeNo (Finset.mem_Ico.mp hk).2).symm

/-! A `PrefixTree` by its leaves' depths. -/

/-- The depth of the leaf of `x`. -/
def PrefixTree.depthOf : PrefixTree → Sym → Nat
  | .leaf _, _ => 0
  | .fork l r, x => (if x ∈ l.syms then l.depthOf x else r.depthOf x) + 1

/-- The length of the longest path. -/
def PrefixTree.height : PrefixTree → Nat
  | .leaf _ => 0
  | .fork l r => max l.height r.height + 1

theorem PrefixTree.depthOf_le_height (p : PrefixTree) (x : Sym) : p.depthOf x ≤ p.height := by
  induction p with
  | leaf y => exact le_rfl
  | fork l r ihl ihr =>
    rw [depthOf, height]
    split <;> omega

/-- A sum over the leaves of a fork is one over each side, a level up. -/
theorem PrefixTree.sum_syms_fork {l r : PrefixTree} (hnd : (fork l r).syms.Nodup) (F : Sym → Nat → Nat) :
    ((fork l r).syms.map fun x => F x ((fork l r).depthOf x)).sum =
      (l.syms.map fun x => F x (l.depthOf x + 1)).sum + (r.syms.map fun x => F x (r.depthOf x + 1)).sum := by
  obtain ⟨-, -, hdisj⟩ := List.nodup_append'.mp hnd
  rw [syms, List.map_append, List.sum_append]
  refine congrArg₂ (fun a b => List.sum a + List.sum b) (List.map_congr_left fun x hx => ?_)
    (List.map_congr_left fun x hx => ?_)
  · rw [depthOf, if_pos hx]
  · rw [depthOf, if_neg fun hl => hdisj hl hx]

theorem PrefixTree.cost_eq_sum {p : PrefixTree} (hnd : p.syms.Nodup) (freq : Sym → Nat) (depth : Nat) :
    p.cost freq depth = (p.syms.map fun x => freq x * (p.depthOf x + depth)).sum := by
  induction p generalizing depth with
  | leaf y => simp [cost, syms, depthOf]
  | fork l r ihl ihr =>
    obtain ⟨hl, hr, -⟩ := List.nodup_append'.mp hnd
    rw [sum_syms_fork hnd fun x n => freq x * (n + depth), cost, ihl hl, ihr hr]
    simp only [Nat.add_assoc, Nat.add_comm 1]

/-- Kraft's sum over the leaves is exactly 1: every fork has both its children. -/
theorem PrefixTree.kraft {p : PrefixTree} (hnd : p.syms.Nodup) {N : Nat} (hN : p.height ≤ N) :
    (p.syms.map fun x => 2 ^ (N - p.depthOf x)).sum = 2 ^ N := by
  induction p generalizing N with
  | leaf y => simp [syms, depthOf]
  | fork l r ihl ihr =>
    obtain ⟨hl, hr, -⟩ := List.nodup_append'.mp hnd
    rw [height] at hN
    obtain ⟨M, rfl⟩ := Nat.exists_eq_succ_of_ne_zero (by omega : N ≠ 0)
    rw [sum_syms_fork hnd fun _ n => 2 ^ (M + 1 - n)]
    simp only [Nat.add_sub_add_right]
    rw [ihl hl (by omega), ihr hr (by omega), Nat.pow_succ]
    omega

/-! The tree's leaves are the table's symbols. -/

/-- The depth at which the tree `p` has the symbol of leaf `i`. -/
def leafDepth (s : State) (p : PrefixTree) (i : Nat) : Nat := p.depthOf ((leaves s).getD i nodeDefault).sym

section Other

variable {s : State} {other : PrefixTree} (hnd : other.syms.Nodup) (hsyms : ∀ x : Sym, x ∈ other.syms ↔ s.freqAt x ≠ 0)
include hnd hsyms

theorem leaves_perm_syms : (leaves s).Perm (other.syms.map fun x => .leaf x (s.freqAt x)) := by
  refine (List.perm_ext_iff_of_nodup ((leaves_pairwise s).imp fun h he => ?_)
    (hnd.map fun x y h => (Node.leaf.inj h).1)).mpr fun nd => ?_
  · exact absurd h (he ▸ BitVec.lt_irrefl _)
  · rw [mem_leaves, List.mem_map]
    simp only [hsyms]
    exact ⟨fun ⟨y, hy, hne⟩ => ⟨y, hne, hy.symm⟩, fun ⟨y, hne, hy⟩ => ⟨y, hy.symm, hne⟩⟩

/-- A sum over the leaves BUILD places is a sum over the symbols of the other tree. -/
theorem sum_range_leaves (F : Node → Nat) :
    ((List.range (leaves s).length).map fun i => F ((leaves s).getD i nodeDefault)).sum =
      (other.syms.map fun x => F (.leaf x (s.freqAt x))).sum := by
  rw [map_getD_range_leaves, ((leaves_perm_syms hnd hsyms).map F).sum_eq, List.map_map]
  rfl

theorem kraftFits_leafDepth : KraftFits other.height (leafDepth s other) (List.range (leaves s).length) where
  bound _ _ := other.depthOf_le_height _
  sum := ((sum_range_leaves hnd hsyms fun nd => 2 ^ (other.height - other.depthOf nd.sym)).trans (other.kraft hnd le_rfl)).le

theorem weightedSum_leafDepth :
    weightedSum (arenaWeight (leaves s)) (leafDepth s other) (List.range (leaves s).length) =
      other.cost (fun x => (s.freqAt x).toNat) 0 :=
  (sum_range_leaves hnd hsyms fun nd => nd.freq.toNat * other.depthOf nd.sym).trans
    (other.cost_eq_sum hnd (fun x => (s.freqAt x).toNat) 0).symm

end Other

/-- Settles O28: the tree's weighted depth is its merged sum, which is at most what the other tree's depths cost. -/
theorem buildIsOptimal : Obligations.BuildIsOptimal := by
  intro s t hs hn h other hnd hsyms
  calc weightedDepth t Config.nnode t.root 0
      = mergedSum (leaves s).length (buildArena s) := weightedDepth_of_build hs hn h
    _ ≤ weightedSum (arenaWeight (leaves s)) (leafDepth s other) (List.range (leaves s).length) :=
        mergedSum_buildArena_le hs hn (kraftFits_leafDepth hnd hsyms)
    _ = other.cost (fun x => (s.freqAt x).toNat) 0 := weightedSum_leafDepth hnd hsyms

end Sys2Proof.Machine

end

/-! 43_encoder.md R105 to R107, 42_tree_builder.md R102: the table DERIVE writes. -/
section

namespace Sys2Proof.Machine

/-! The last step of a path, and its length (42_tree_builder.md R102). -/

section Held

variable {s : State} (hT : HeldTree s)
include hT

/-- The last step of a path that has one. -/
theorem HeldTree.last_step {y : NodeId} {bs : List Bool} {b : Bool} (h : followBits s s.root (bs ++ [b]) = some y) :
    ∃ p, followBits s s.root bs = some p ∧ IsInternal s p ∧ (s.nodeAt p).child b = y := by
  rw [followBits_append_singleton] at h
  obtain ⟨p, hp, hchild⟩ := Option.bind_eq_some_iff.mp h
  split at hchild
  · cases hchild
  · rename_i hleaf
    have hle := hT.followBits_le le_rfl hp
    exact ⟨p, hp, (hT.isInternal_iff (by omega)).mpr (by simpa using hleaf), Option.some.inj hchild⟩

/-- A path has at most TREE_N - 1 steps: each of its internal nodes has a number of its own, TREE_N or more. -/
theorem HeldTree.path_length_lt_treeN {x : NodeId} {bs : List Bool} (h : followBits s s.root bs = some x) :
    bs.length < s.treeN.toNat := by
  obtain rfl | ⟨pre, b, rfl⟩ := List.eq_nil_or_concat' bs
  · exact hT.size.1
  · obtain ⟨p, hpre, ⟨hlo, -⟩, -⟩ := hT.last_step h
    have hle := hT.followBits_le le_rfl hpre
    have hroot := hT.root
    have hsize := hT.size
    rw [List.length_append, List.length_singleton]
    omega

end Held

/-- A code of a tree of two leaves or more is the path of the symbol's leaf (43_encoder.md R106). -/
theorem isCodeOf_iff_path {s : State} (h1 : s.treeN ≠ 1) {x : Sym} {bs : List Bool} :
    IsCodeOf s x bs ↔ ∃ y, followBits s s.root bs = some y ∧ (s.nodeAt y).isLeaf = true ∧ (s.nodeAt y).sym = x := by
  rw [IsCodeOf, if_neg h1]
  cases followBits s s.root bs <;> simp

/-- The code of a single leaf is "0" (43_encoder.md R107). -/
theorem isCodeOf_iff_single {s : State} (h1 : s.treeN = 1) {x : Sym} {bs : List Bool} :
    IsCodeOf s x bs ↔ (s.nodeAt 0).sym = x ∧ bs = [false] := by
  rw [IsCodeOf, if_pos h1]

/-- A code has at most TREE_N - 1 bits, and 1 for a single leaf (R102, R106, R107). -/
theorem HeldTree.code_length_le {s : State} (hT : HeldTree s) {x : Sym} {bs : List Bool} (h : IsCodeOf s x bs) :
    bs.length ≤ max 1 (s.treeN.toNat - 1) := by
  by_cases h1 : s.treeN = 1
  · obtain ⟨-, rfl⟩ := (isCodeOf_iff_single h1).mp h
    exact le_max_left _ _
  · obtain ⟨y, hpath, -, -⟩ := (isCodeOf_iff_path h1).mp h
    exact le_max_of_le_right (Nat.le_sub_one_of_lt (hT.path_length_lt_treeN hpath))

/-! The entries of no symbol. -/

/-- Every entry that is not valid is cleared (43_encoder.md R105). -/
def OthersCleared (table : Memory Code) : Prop :=
  ∀ a, (table.read codeDefault a).valid = false → table.read codeDefault a = codeDefault

theorem othersCleared_nil : OthersCleared [] := fun _ _ => rfl

theorem OthersCleared.write {table : Memory Code} (h : OthersCleared table) (a : Nat) {c : Code} (hc : c.valid = true) :
    OthersCleared (table.write codeDefault a c) := by
  intro b
  rw [Memory.read_write]
  split
  · exact fun hv => absurd (hc.symm.trans hv) (by decide)
  · exact h b

theorem othersCleared_walkCodes (s : State) (fuel : Nat) (x : NodeId) (depth : Nat) (path : CodeBits) {table : Memory Code}
    (h : OthersCleared table) : OthersCleared (walkCodes s fuel x depth path table) := by
  induction fuel generalizing x depth path table with
  | zero => exact h
  | succ fuel ih =>
    unfold walkCodes
    split
    · exact h.write _ rfl
    · exact ih _ _ _ (ih _ _ _ h)

theorem othersCleared_derivedTable (s : State) : OthersCleared (derivedTable s) := by
  unfold derivedTable
  split
  · exact othersCleared_nil.write _ rfl
  · exact othersCleared_walkCodes s _ _ _ _ othersCleared_nil

/-- Settles O30: DERIVE's walk starts from the empty table and writes the path of every leaf. -/
theorem deriveGivesPathCodes : Obligations.DeriveGivesPathCodes := by
  refine ⟨encodedAs_row (i := .derive) rfl, fun s hs hv => ?_, fun s hv => exec_failsWith (if_pos hv)⟩
  have hT := hs.held hv
  obtain ⟨hgood, hall⟩ := hT.derivedTable_codes
  have hrule : ruleOf .derive s = .ok { s with code := derivedTable s, codesValid := true } := if_neg (by simp [hv])
  refine ⟨_, exec_of_ruleOf_ok hrule, completes_retire .ok rfl, rfl, fun x => ⟨fun h => (hgood x h).leaf, hall x⟩,
    fun x hx => ?_, fun x hx => ?_, ⟨rfl, rfl, rfl⟩, ⟨rfl, rfl, rfl, rfl⟩, rfl, ⟨rfl, rfl⟩, ⟨rfl, rfl⟩,
    ⟨rfl, rfl⟩, ⟨rfl, rfl, rfl, rfl, rfl, rfl, rfl, rfl, rfl⟩⟩
  · have hclear := othersCleared_derivedTable s x.toNat hx
    exact ⟨congrArg Code.len hclear, congrArg Code.bits hclear⟩
  · obtain ⟨-, hpath, ⟨hpos, -⟩, habove⟩ := hgood x hx
    exact ⟨hpath, hpos, Code.toBits_length _ ▸ hT.code_length_le hpath, habove⟩

end Sys2Proof.Machine

end

/-! 43_encoder.md R108: the codes of a held tree are the paths of its leaves, so no code begins another, and a long enough
bit string leads to exactly one leaf. -/
section

namespace Sys2Proof.Machine

/-! Paths that begin with a path. -/

theorem followBits_append (s : State) (x : NodeId) (bs cs : List Bool) :
    followBits s x (bs ++ cs) = (followBits s x bs).bind fun y => followBits s y cs := by
  induction bs generalizing x with
  | nil => rfl
  | cons b rest ih =>
    rw [List.cons_append, followBits, followBits]
    split
    · rfl
    · exact ih _

/-- No path goes on from a leaf. -/
theorem followBits_of_leaf {s : State} {x y : NodeId} (hx : (s.nodeAt x).isLeaf = true) {bs : List Bool}
    (h : followBits s x bs = some y) : bs = [] := by
  cases bs with
  | nil => rfl
  | cons b rest => rw [followBits, if_pos hx] at h; cases h

/-- A path that begins with a leaf's path ends at that leaf. -/
theorem eq_of_leaf_path_prefix {s : State} {r x y : NodeId} {bs cs : List Bool} (hb : followBits s r bs = some x)
    (hx : (s.nodeAt x).isLeaf = true) (hc : followBits s r cs = some y) (hp : bs <+: cs) : x = y := by
  obtain ⟨ds, rfl⟩ := hp
  rw [followBits_append, hb, Option.bind_some] at hc
  obtain rfl := followBits_of_leaf hx hc
  exact Option.some.inj hc

/-- Where one symbol's code begins with another's, the two symbols are one. -/
theorem isCodeOf_prefix {s : State} {x y : Sym} {bs cs : List Bool} (hx : IsCodeOf s x bs) (hy : IsCodeOf s y cs)
    (hp : bs <+: cs) : x = y := by
  by_cases h1 : s.treeN = 1
  · exact ((isCodeOf_iff_single h1).mp hx).1.symm.trans ((isCodeOf_iff_single h1).mp hy).1
  · obtain ⟨a, ha, hleaf, rfl⟩ := (isCodeOf_iff_path h1).mp hx
    obtain ⟨b, hb, -, rfl⟩ := (isCodeOf_iff_path h1).mp hy
    rw [eq_of_leaf_path_prefix ha hleaf hb hp]

/-! One path to each node, and a leaf on every long enough bit string. -/

theorem Node.one_le_names_child {x : Node} (h : x.isLeaf = false) (b : Bool) : 1 ≤ x.names (x.child b).toNat := by
  rw [Node.names, if_neg (by simp [h])]
  cases b <;> simp

section Held

variable {s : State} (hT : HeldTree s)
include hT

/-- The two children of an internal node are different nodes (10_state.md R46). -/
theorem HeldTree.child_injective {p : NodeId} (hp : IsInternal s p) {b c : Bool}
    (h : (s.nodeAt p).child b = (s.nodeAt p).child c) : b = c := by
  obtain ⟨hlo, hhi⟩ := hp
  have hsize := hT.size
  have hroot := hT.root
  obtain ⟨-, -, -, hne, -⟩ := hT.internal p.toNat (by omega) hlo
  cases b <;> cases c
  · rfl
  · exact absurd h hne
  · exact absurd h.symm hne
  · rfl

/-- A node is a child of one node only (42_tree_builder.md R99). -/
theorem HeldTree.parent_unique {p q : NodeId} {b c : Bool} (hp : IsInternal s p) (hq : IsInternal s q)
    (h : (s.nodeAt p).child b = (s.nodeAt q).child c) : p = q := by
  by_contra hne
  have hmem : ∀ x : NodeId, IsInternal s x → x.toNat ∈ Finset.range (s.root.toNat + 1) := fun x hx =>
    Finset.mem_range.mpr (Nat.lt_succ_of_le hx.2)
  have htwo := Finset.add_le_sum (f := fun k => (s.nodeNo k).names ((s.nodeAt p).child b).toNat) (fun _ _ => Nat.zero_le _)
    (hmem p hp) (hmem q hq) fun he => hne (BitVec.eq_of_toNat_eq he)
  have hone : ∑ k ∈ Finset.range (s.root.toNat + 1), (s.nodeNo k).names ((s.nodeAt p).child b).toNat = 1 :=
    hT.parent _ ((hT.child_lt hp b).trans_le hp.2)
  have hp1 := Node.one_le_names_child ((hT.isInternal_iff hp.2).mp hp) b
  have hq1 := Node.one_le_names_child ((hT.isInternal_iff hq.2).mp hq) c
  rw [← h] at hq1
  simp only [nodeAt_eq_nodeNo] at *
  omega

/-- Each node has one path from the root. -/
theorem HeldTree.path_unique {y : NodeId} {bs cs : List Bool} (hb : followBits s s.root bs = some y)
    (hc : followBits s s.root cs = some y) : bs = cs := by
  have hroot : ∀ {ds}, followBits s s.root ds = some s.root → ds = [] := fun h => by
    have := hT.followBits_le le_rfl h
    exact List.length_eq_zero_iff.mp (by omega)
  induction bs using List.reverseRecOn generalizing y cs with
  | nil =>
    obtain rfl : s.root = y := by simpa [followBits] using hb
    exact (hroot hc).symm
  | append_singleton bs b ih =>
    obtain rfl | ⟨cs, c, rfl⟩ := List.eq_nil_or_concat' cs
    · obtain rfl : s.root = y := by simpa [followBits] using hc
      exact hroot hb
    · obtain ⟨p, hbp, hp, hpy⟩ := hT.last_step hb
      obtain ⟨q, hcq, hq, hqy⟩ := hT.last_step hc
      obtain rfl := hT.parent_unique hp hq (hpy.trans hqy.symm)
      rw [ih hbp hcq, hT.child_injective hp (hpy.trans hqy.symm)]

/-- The leaf a path ends at is one of the first TREE_N nodes. -/
theorem HeldTree.leaf_of_path {y : NodeId} {bs : List Bool} (h : followBits s s.root bs = some y)
    (hy : (s.nodeAt y).isLeaf = true) : y.toNat < s.treeN.toNat :=
  (hT.isLeaf_iff ((Nat.le_add_right _ _).trans (hT.followBits_le le_rfl h))).mp hy

/-- Different leaves have different symbols (42_tree_builder.md R96). -/
theorem HeldTree.sym_injective {y z : NodeId} (hy : y.toNat < s.treeN.toNat) (hz : z.toNat < s.treeN.toNat)
    (h : (s.nodeAt y).sym = (s.nodeAt z).sym) : y = z := by
  obtain hlt | heq | hgt := Nat.lt_trichotomy y.toNat z.toNat
  · exact absurd h (BitVec.ne_of_lt (hT.order _ hz _ hlt))
  · exact BitVec.eq_of_toNat_eq heq
  · exact absurd h.symm (BitVec.ne_of_lt (hT.order _ hy _ hgt))

/-- A symbol has one code. -/
theorem HeldTree.isCodeOf_unique {x : Sym} {bs cs : List Bool} (hb : IsCodeOf s x bs) (hc : IsCodeOf s x cs) : bs = cs := by
  by_cases h1 : s.treeN = 1
  · exact ((isCodeOf_iff_single h1).mp hb).2.trans ((isCodeOf_iff_single h1).mp hc).2.symm
  · obtain ⟨y, hy, hyleaf, hysym⟩ := (isCodeOf_iff_path h1).mp hb
    obtain ⟨z, hz, hzleaf, hzsym⟩ := (isCodeOf_iff_path h1).mp hc
    obtain rfl := hT.sym_injective (hT.leaf_of_path hy hyleaf) (hT.leaf_of_path hz hzleaf) (hysym.trans hzsym.symm)
    exact hT.path_unique hy hz

/-- A bit string longer than every path from an internal node leads to a leaf: each step lowers the node's number, and there
are no internal nodes below TREE_N. -/
theorem HeldTree.exists_leaf_prefix {x : NodeId} {bs : List Bool} (hx : x.toNat ≤ s.root.toNat)
    (hlong : x.toNat < s.treeN.toNat + bs.length) :
    ∃ y cs, cs <+: bs ∧ followBits s x cs = some y ∧ (s.nodeAt y).isLeaf = true := by
  induction bs generalizing x with
  | nil => exact ⟨x, [], List.prefix_rfl, rfl, (hT.isLeaf_iff hx).mpr hlong⟩
  | cons b rest ih =>
    by_cases hleaf : (s.nodeAt x).isLeaf = true
    · exact ⟨x, [], List.nil_prefix, rfl, hleaf⟩
    · have hlt := hT.child_lt ((hT.isInternal_iff hx).mpr (Bool.eq_false_iff.mpr hleaf)) b
      rw [List.length_cons] at hlong
      obtain ⟨y, cs, hp, hy, hyleaf⟩ := ih (x := (s.nodeAt x).child b) (by omega) (by omega)
      exact ⟨y, b :: cs, List.cons_prefix_cons.mpr ⟨rfl, hp⟩, by rwa [followBits, if_neg hleaf], hyleaf⟩

/-- With two leaves or more, every bit string of LMAX bits begins with some symbol's code. -/
theorem HeldTree.exists_code_prefix (h1 : s.treeN ≠ 1) {bs : List Bool} (hlen : Config.lmax ≤ bs.length) :
    ∃ x cs, HasLeaf s x ∧ IsCodeOf s x cs ∧ cs <+: bs := by
  have hroot := hT.root
  obtain ⟨-, hsize⟩ := hT.size
  have hnsym : Config.nsym = 256 := rfl
  have hlmax : Config.lmax = 255 := rfl
  obtain ⟨y, cs, hp, hy, hleaf⟩ := hT.exists_leaf_prefix (bs := bs) le_rfl (by omega)
  exact ⟨_, cs, ⟨y.toNat, hT.leaf_of_path hy hleaf, rfl⟩, (isCodeOf_iff_path h1).mpr ⟨y, hy, hleaf, rfl⟩, hp⟩

end Held

/-- The one symbol of a single-leaf tree. -/
theorem hasLeaf_iff_of_single {s : State} (h1 : s.treeN = 1) (x : Sym) : HasLeaf s x ↔ x = (s.nodeNo 0).sym := by
  simp [HasLeaf, h1, eq_comm]

/-- Settles O31: a path ends at the first leaf it meets, and every long enough bit string runs into one. -/
theorem codesArePrefixFreeAndComplete : Obligations.CodesArePrefixFreeAndComplete := by
  intro s hs hcodes hc
  have hT := hs.held (hcodes.tree hc)
  have hpath := hcodes.path hc
  refine ⟨fun x y hx hy hne hp => hne (isCodeOf_prefix (hpath x hx) (hpath y hy) hp),
    fun h1 => ⟨(s.nodeNo 0).sym, fun y => (hcodes.exactly hc y).trans (hasLeaf_iff_of_single h1 y)⟩, fun h2 bs hlen => ?_⟩
  have h1 : s.treeN ≠ 1 := fun h => by rw [h] at h2; exact absurd h2 (by decide)
  obtain ⟨x, cs, hleaf, hcode, hp⟩ := hT.exists_code_prefix h1 hlen
  have hx := (hcodes.exactly hc x).mpr hleaf
  obtain rfl := hT.isCodeOf_unique hcode (hpath x hx)
  refine ⟨x, ⟨hx, hp⟩, fun y hy hpy => ?_⟩
  obtain h | h := List.prefix_or_prefix_of_prefix hp hpy
  · exact (isCodeOf_prefix hcode (hpath y hy) h).symm
  · exact isCodeOf_prefix (hpath y hy) hcode h

end Sys2Proof.Machine

end

/-! 43_encoder.md R109 to R111: ENC and WRBITS are one append behind a check of the room, and the appends of a sequence are its
concatenation. -/
section

namespace Sys2Proof.Machine

/-! The append both commands make. -/

/-- `bs` stands from the BITLEN of `s` on, every other bit is as it was, and nothing else has changed but, possibly, the result
registers and the completion fields. -/
structure Appended (bs : List Bool) (s t : State) : Prop where
  bitlen : t.bitlen = s.bitlen + bs.length
  inside : ∀ j (hj : j < bs.length), t.bitAt (s.bitlen + j) = bs[j]
  outside : ∀ p, p < s.bitlen ∨ s.bitlen + bs.length ≤ p → t.bitAt p = s.bitAt p
  freq : SameFreq s t
  tree : SameTree s t
  codes : SameCodes s t
  cursor : t.cursor = s.cursor
  syms : SameSyms s t
  host : SameHost s t

theorem appended_appendBits (bs : List Bool) (s : State) (r0 r1 : Word) (e : ErrCode) :
    Appended bs s (retire e ((s.appendBits bs).setResults r0 r1)) where
  bitlen := rfl
  inside j hj := Memory.read_writeList_inside bitDefault s.bitbuf s.bitlen j bs hj
  outside p hp := Memory.read_writeList_outside bitDefault s.bitbuf s.bitlen p bs hp
  freq := by constructor <;> simp
  tree := by constructor <;> simp
  codes := by constructor <;> simp
  cursor := by simp
  syms := by constructor <;> simp
  host := by constructor <;> simp

theorem appendOrFull_of_fits {bs : List Bool} {s : State} (h : s.bitlen + bs.length ≤ s.params.bitcap) :
    appendOrFull bs s = .ok (s.appendBits bs) := if_neg (Nat.not_lt.mpr h)

theorem appendOrFull_of_full {bs : List Bool} {s : State} (h : s.bitlen + bs.length > s.params.bitcap) :
    appendOrFull bs s = .error .bufFull := if_pos h

/-! WRBITS (R110). -/

theorem wrbitsRule_eq_appendOrFull {n : BitVec 5} (v : BitVec 16) (s : State) (hn : n ≠ 0) (h16 : n.toNat ≤ 16) :
    wrbitsRule n v s = appendOrFull (literalBits n v) s :=
  if_neg (not_or.mpr ⟨hn, Nat.not_lt.mpr h16⟩)

theorem literalBits_getElem {n : BitVec 5} {v : BitVec 16} {j : Nat} (hj : j < (literalBits n v).length) :
    (literalBits n v)[j] = v.getLsbD j := by
  simp [literalBits]

theorem wf_wrbits_iff {n : BitVec 5} {v : BitVec 16} : (Instr.wrbits n v).wf = true ↔ n ≠ 0 ∧ n.toNat ≤ 16 := by
  simp [Instr.wf]

/-- Settles O34: WRBITS appends its literal where there is room, and its row refuses the two ranges of n. -/
theorem wrbitsAppendsLiteralBits : Obligations.WrbitsAppendsLiteralBits := by
  intro n v s
  refine ⟨fun hn h16 => encodedAs_row (i := .wrbits n v) (wf_wrbits_iff.mpr ⟨hn, h16⟩), fun hn => ?_,
    fun hn h16 hfit => ?_, fun hn h16 hfull => ?_⟩
  · exact decode_encode_of_not_wf (i := .wrbits n v) (Bool.eq_false_iff.mpr fun hwf => by
      obtain ⟨hne, hle⟩ := wf_wrbits_iff.mp hwf
      exact hn.elim hne (Nat.not_lt.mpr hle))
  · rw [← literalBits_length n v] at hfit ⊢
    have hrule := (wrbitsRule_eq_appendOrFull v s hn h16).trans (appendOrFull_of_fits hfit)
    obtain ⟨bitlen, inside, outside, freq, tree, codes, cursor, syms, host⟩ :=
      appended_appendBits (literalBits n v) s s.result0 s.result1 .ok
    exact ⟨_, exec_of_ruleOf_ok hrule, completes_retire .ok rfl, bitlen,
      fun j hj => (inside j hj).trans (literalBits_getElem hj), outside, freq, tree, codes, cursor, syms,
      ⟨rfl, rfl⟩, host⟩
  · rw [← literalBits_length n v] at hfull
    exact exec_failsWith ((wrbitsRule_eq_appendOrFull v s hn h16).trans (appendOrFull_of_full hfull))

/-! ENC (R109). -/

section Enc

variable {s : State} {x : Sym}

theorem encRule_of_unknown (h : s.codesValid = false ∨ (s.codeAt x).valid = false) : encRule x s = .error .unknownSymbol := by
  rw [encRule, validCode_eq_none.mpr h]

theorem encRule_of_full (hc : s.codesValid = true) (hv : (s.codeAt x).valid = true)
    (hfull : s.bitlen + (s.codeAt x).toBits.length > s.params.bitcap) : encRule x s = .error .bufFull := by
  rw [encRule, validCode_eq_some.mpr ⟨hc, hv, rfl⟩]
  simp only [appendOrFull_of_full hfull]

/-- The state ENC leaves: the code appended, its length and the new BITLEN returned. -/
def encoded (x : Sym) (s : State) : State :=
  (s.appendBits (s.codeAt x).toBits).setResults (zext32 (s.codeAt x).len) (zextLen (s.bitlen + (s.codeAt x).toBits.length))

theorem encRule_of_fits (hc : s.codesValid = true) (hv : (s.codeAt x).valid = true)
    (hfit : s.bitlen + (s.codeAt x).toBits.length ≤ s.params.bitcap) : encRule x s = .ok (encoded x s) := by
  rw [encRule, validCode_eq_some.mpr ⟨hc, hv, rfl⟩]
  simp only [appendOrFull_of_fits hfit]
  rfl

theorem appended_encoded (x : Sym) (s : State) : Appended (s.codeAt x).toBits s (retire .ok (encoded x s)) :=
  appended_appendBits _ s _ _ .ok

end Enc

theorem Code.toBits_getElem {c : Code} {j : Nat} (hj : j < c.toBits.length) : c.toBits[j] = c.bits.getLsbD j := by
  simp [Code.toBits]

/-- Settles O32: ENC looks the code up, then checks the room, then appends. -/
theorem encAppendsCode : Obligations.EncAppendsCode := by
  intro x s
  refine ⟨encodedAs_row (i := .enc x) rfl, fun hc hv hfit => ?_, fun h => exec_failsWith (encRule_of_unknown h),
    fun hc hv hfull => ?_⟩
  · rw [← Code.toBits_length] at hfit ⊢
    obtain ⟨bitlen, inside, outside, freq, tree, codes, cursor, syms, host⟩ := appended_encoded x s
    exact ⟨_, exec_of_ruleOf_ok (encRule_of_fits hc hv hfit), completes_retire .ok rfl, bitlen,
      fun j hj => (inside j hj).trans (Code.toBits_getElem hj), outside, rfl, rfl, freq, tree, codes, cursor, syms, host⟩
  · rw [← Code.toBits_length] at hfull
    exact exec_failsWith (encRule_of_full hc hv hfull)

/-! Encoding a sequence (R111). -/

/-- `t` holds the bits of `s` and the codes of `ss` after them, and every command completed with code 0. -/
structure Encoded (ss : List Sym) (s t : State) : Prop where
  lastErr : t.lastErr = .ok
  err : t.err = s.err
  held : t.heldBits = s.heldBits ++ encodeSyms s ss

theorem heldBits_length (s : State) : s.heldBits.length = s.bitlen := by simp [State.heldBits]

theorem heldBits_retire_encoded (x : Sym) (s : State) :
    (retire .ok (encoded x s)).heldBits = s.heldBits ++ (s.codeAt x).toBits :=
  heldBits_appendBits s (s.codeAt x).toBits

theorem heldBits_congr {s t : State} (h : SameBits s t) : t.heldBits = s.heldBits := by
  rw [State.heldBits, State.heldBits, h.bitlen]
  exact List.map_congr_left fun p _ => State.bitAt_congr h.bitbuf p

theorem encodeSyms_cons (s : State) (x : Sym) (ss : List Sym) :
    encodeSyms s (x :: ss) = (s.codeAt x).toBits ++ encodeSyms s ss := List.flatMap_cons

theorem SameCodes.encodeSyms {s t : State} (h : SameCodes s t) (ss : List Sym) : encodeSyms t ss = encodeSyms s ss := by
  simp only [Machine.encodeSyms, State.codeAt_congr h.code]

theorem SameCodes.allCoded {s t : State} (h : SameCodes s t) {ss : List Sym} (hs : AllCoded s ss) : AllCoded t ss :=
  fun x hx => (congrArg Code.valid (State.codeAt_congr h.code x)).trans (hs x hx)

theorem execAll_map_enc {ss : List Sym} {s : State} (hc : s.codesValid = true) (hcoded : AllCoded s ss)
    (hfit : s.bitlen + (encodeSyms s ss).length ≤ s.params.bitcap) (hok : s.lastErr = .ok) :
    ∃ t, execAll (ss.map .enc) s = .next t ∧ Encoded ss s t := by
  induction ss generalizing s with
  | nil => exact ⟨s, rfl, hok, rfl, (List.append_nil _).symm⟩
  | cons x xs ih =>
    rw [encodeSyms_cons, List.length_append] at hfit
    obtain ⟨hx, hxs⟩ := List.forall_mem_cons.mp hcoded
    have happ := appended_encoded x s
    obtain ⟨t, hrun, hlast, herr, hheld⟩ := ih (s := retire .ok (encoded x s)) (happ.codes.codesValid.trans hc)
      (happ.codes.allCoded hxs) (by rw [happ.bitlen, happ.host.params, happ.codes.encodeSyms]; omega) (retire_lastErr _ _)
    refine ⟨t, (execAll_cons (exec_of_ruleOf_ok (i := .enc x) (encRule_of_fits hc hx (by omega)))).trans hrun, hlast,
      herr.trans (Bool.or_false _), ?_⟩
    rw [hheld, heldBits_retire_encoded, happ.codes.encodeSyms, encodeSyms_cons, List.append_assoc]

/-- The mask of CLR B takes the fourth step of CLR alone (40_control.md R86). -/
theorem clrRule_B (s : State) : clrRule 8 s = clearBits s := rfl

/-- Every command answers a next state. -/
theorem exec_next (i : Instr) (s : State) : ∃ u, exec i s = .next u := by
  rw [exec_eq_runRule]
  cases ruleOf i s with
  | ok u => exact ⟨_, runRule_ok s u⟩
  | error e => exact ⟨_, runRule_error s e⟩

/-- A command that ends in an error leaves the held bits (60_exceptions.md R145). -/
theorem heldBits_of_failed {i : Instr} {s u : State} (h : exec i s = .next u) (hne : u.lastErr ≠ .ok) :
    u.heldBits = s.heldBits := by
  obtain ⟨v, -, rfl⟩ | ⟨e, -, rfl⟩ := exec_cases h
  · exact absurd rfl hne
  · exact heldBits_congr (sameBlock_raiseError e s).bits

/-- Settles O33: CLR B leaves the empty bit string, and each ENC appends its symbol's code. -/
theorem encodingConcatenatesCodes : Obligations.EncodingConcatenatesCodes := by
  intro ss s hc hcoded hfit
  have hclr : exec (.clr 8) s = .next (retire .ok (clearBits s)) := exec_of_ruleOf_ok (congrArg Except.ok (clrRule_B s))
  obtain ⟨t, hrun, hlast, herr, hheld⟩ := execAll_map_enc (ss := ss) (s := retire .ok (clearBits s)) hc hcoded
    (by rw [retire_bitlen, clearBits_bitlen, Nat.zero_add]; exact hfit) rfl
  have hheld : t.heldBits = encodeSyms s ss := hheld
  refine ⟨t, (execAll_cons hclr).trans hrun, hlast, herr.trans (Bool.or_false _), hheld, ?_, fun x => ?_⟩
  · rw [← hheld, heldBits_length]
  · obtain ⟨u, hu⟩ := exec_next (.enc x) t
    exact ⟨u, hu, fun hne => (heldBits_of_failed hu hne).trans hheld⟩

end Sys2Proof.Machine

end

/-! 44_decoder.md R116 to R118: one step of the decoder. DECBIT is `decStep` behind a check of the room for a symbol, and
DECEND only looks at the cursor. -/
section

namespace Sys2Proof.Machine

/-! `step(cur, b)` (R116), an equation a case. -/

theorem child_internal (f : Count) (l r : NodeId) (b : Bool) : (Node.internal f l r).child b = if b then r else l := by
  cases b <;> rfl

theorem decStep_single_zero {s : State} (h1 : s.treeN = 1) (c : NodeId) :
    decStep s c false = .ok (s.root, some (s.nodeAt 0).sym) := by
  rw [decStep, if_pos h1, if_neg Bool.false_ne_true]

theorem decStep_single_one {s : State} (h1 : s.treeN = 1) (c : NodeId) : decStep s c true = .error .malformed := by
  rw [decStep, if_pos h1, if_pos rfl]

theorem decStep_leaf {s : State} (h1 : s.treeN ≠ 1) {c : NodeId} {b : Bool}
    (h : (s.nodeAt ((s.nodeAt c).child b)).isLeaf = true) :
    decStep s c b = .ok (s.root, some (s.nodeAt ((s.nodeAt c).child b)).sym) := by
  rw [decStep, if_neg h1]
  cases hnode : s.nodeAt ((s.nodeAt c).child b) with
  | leaf x f => rfl
  | internal f l r => rw [hnode] at h; cases h

theorem decStep_inner {s : State} (h1 : s.treeN ≠ 1) {c : NodeId} {b : Bool}
    (h : (s.nodeAt ((s.nodeAt c).child b)).isLeaf = false) : decStep s c b = .ok ((s.nodeAt c).child b, none) := by
  rw [decStep, if_neg h1]
  cases hnode : s.nodeAt ((s.nodeAt c).child b) with
  | leaf x f => rw [hnode] at h; cases h
  | internal f l r => rfl

/-- The only error a step of the walk can give. -/
theorem decStep_error {s : State} {c : NodeId} {b : Bool} {e : ErrCode} (h : decStep s c b = .error e) : e = .malformed := by
  unfold decStep at h
  split at h
  · split at h
    · cases h; rfl
    · cases h
  · split at h
    · cases h
    · cases h

/-- The walk reads the tree alone. -/
theorem SameTree.decStep {s t : State} (h : SameTree s t) (c : NodeId) (b : Bool) : decStep t c b = decStep s c b := by
  have hat : t.nodeAt = s.nodeAt := funext (State.nodeAt_congr h.node)
  unfold Machine.decStep
  rw [h.treeN, h.root, hat]

/-! DECBIT (R117). -/

/-- What a decoding command leaves: `ss` after the symbols held, the results written and the cursor moved. -/
def advanced (ss : List Sym) (r0 r1 : Word) (c : NodeId) (s : State) : State :=
  { (s.appendSyms ss).setResults r0 r1 with cursor := c }

theorem advanced_frame (ss : List Sym) (r0 r1 : Word) (c : NodeId) (s : State) :
    SameFreq s (retire .ok (advanced ss r0 r1 c s)) ∧ SameTree s (retire .ok (advanced ss r0 r1 c s)) ∧
      SameCodes s (retire .ok (advanced ss r0 r1 c s)) ∧ SameBits s (retire .ok (advanced ss r0 r1 c s)) ∧
      SameHost s (retire .ok (advanced ss r0 r1 c s)) := by
  refine ⟨?_, ?_, ?_, ?_, ?_⟩ <;> constructor <;> simp [advanced]

theorem advanced_syms (ss : List Sym) (r0 r1 : Word) (c : NodeId) (s : State) :
    SameSyms (s.appendSyms ss) (retire .ok (advanced ss r0 r1 c s)) := by
  constructor <;> simp [advanced]

/-- The state DECBIT leaves where the step emits `x`. -/
def emitted (x : Sym) (s : State) : State := advanced [x] (emitWord x) (zext32 s.root) s.root s

/-- The state DECBIT leaves where the step goes on to node `y`. -/
def moved (y : NodeId) (s : State) : State := advanced [] 0 (zext32 y) y s

theorem emitted_retire (x : Sym) (s : State) : Emitted x s (retire .ok (emitted x s)) where
  completes := completes_retire .ok rfl
  cursor := rfl
  symlen := rfl
  symbol := Memory.read_writeList_inside symDefault s.symbuf s.symlen 0 [x] Nat.one_pos
  others i hi := Memory.read_writeList_outside symDefault s.symbuf s.symlen i [x] (by rw [List.length_singleton]; omega)
  result0 := rfl
  result1 := rfl
  frame := advanced_frame ..

theorem moved_retire (y : NodeId) (s : State) : Moved y s (retire .ok (moved y s)) where
  completes := completes_retire .ok rfl
  cursor := rfl
  result0 := rfl
  result1 := rfl
  frame := by
    obtain ⟨freq, tree, codes, bits, host⟩ := advanced_frame [] 0 (zext32 y) y s
    obtain ⟨symlen, symbuf⟩ := advanced_syms [] 0 (zext32 y) y s
    exact ⟨freq, tree, codes, bits, ⟨symlen, symbuf⟩, host⟩

section Decbit

variable {s : State} {b : Bool} {c : NodeId} {x : Sym} (hv : s.treeValid = true)
include hv

theorem decbitRule_of_emits (hd : decStep s s.cursor b = .ok (c, some x)) (hroom : s.symlen ≠ s.params.symcap) :
    decbitRule b s = .ok (emitted x s) := by
  rw [decbitRule, if_neg (ne_false_of_eq_true hv), hd]
  exact (if_neg hroom).trans (by rw [decStep_some hd]; rfl)

theorem decbitRule_of_moves (hd : decStep s s.cursor b = .ok (c, none)) : decbitRule b s = .ok (moved c s) := by
  rw [decbitRule, if_neg (ne_false_of_eq_true hv), hd]
  rfl

theorem decbitRule_of_full (hd : decStep s s.cursor b = .ok (c, some x)) (hfull : s.symlen = s.params.symcap) :
    decbitRule b s = .error .bufFull := by
  rw [decbitRule, if_neg (ne_false_of_eq_true hv), hd]
  exact if_pos hfull

theorem decbitRule_of_malformed {e : ErrCode} (hd : decStep s s.cursor b = .error e) : decbitRule b s = .error e := by
  rw [decbitRule, if_neg (ne_false_of_eq_true hv), hd]

theorem exec_decbit_emits (hd : decStep s s.cursor b = .ok (c, some x)) (hroom : s.symlen ≠ s.params.symcap) :
    ∃ t, exec (.decbit b) s = .next t ∧ Emitted x s t :=
  ⟨_, exec_of_ruleOf_ok (decbitRule_of_emits hv hd hroom), emitted_retire x s⟩

end Decbit

/-- The step from an internal node to a leaf (R116). -/
theorem decStep_to_leaf {s : State} (h1 : s.treeN ≠ 1) {c l r : NodeId} {f g : Count} {b : Bool} {x : Sym}
    (hc : s.nodeAt c = .internal f l r) (hx : s.nodeAt (if b then r else l) = .leaf x g) :
    decStep s c b = .ok (s.root, some x) := by
  rw [← child_internal f, ← hc] at hx
  rw [decStep_leaf h1 (by rw [hx]; rfl), hx, Node.sym]

/-- The step from an internal node to an internal node (R116). -/
theorem decStep_to_inner {s : State} (h1 : s.treeN ≠ 1) {c l r l' r' : NodeId} {f g : Count} {b : Bool}
    (hc : s.nodeAt c = .internal f l r) (hy : s.nodeAt (if b then r else l) = .internal g l' r') :
    decStep s c b = .ok (if b then r else l, none) := by
  rw [← child_internal f, ← hc] at hy ⊢
  exact decStep_inner h1 (by rw [hy]; rfl)

/-- Settles O35: the step emits or moves, and DECBIT's rule commits just that. -/
theorem decbitMovesOrEmits : Obligations.DecbitMovesOrEmits := by
  refine ⟨fun b => encodedAs_row (i := .decbit b) rfl, fun s hv => ⟨fun h1 hroom => ?_, fun h1 f l r hc b =>
    ⟨fun x g hx hroom => ?_, fun g l' r' hy => ?_⟩⟩⟩
  · exact exec_decbit_emits hv (decStep_single_zero h1 _) hroom
  · exact exec_decbit_emits hv (decStep_to_leaf h1 hc hx) hroom
  · exact ⟨_, exec_of_ruleOf_ok (decbitRule_of_moves hv (decStep_to_inner h1 hc hy)), moved_retire _ s⟩

/-- Settles O36: the walk's own error comes before the check of the room, and both leave the state before the command. -/
theorem decbitErrorsConsumeNothing : Obligations.DecbitErrorsConsumeNothing := by
  refine fun s hv => ⟨fun h1 => ?_, fun h1 hfull => ?_, fun h1 f l r hc b x g hx hfull => ?_⟩
  · exact exec_failsWith (decbitRule_of_malformed hv (decStep_single_one h1 _))
  · exact exec_failsWith (decbitRule_of_full hv (decStep_single_zero h1 _) hfull)
  · exact exec_failsWith (decbitRule_of_full hv (decStep_to_leaf h1 hc hx) hfull)

/-! DECEND (R118). -/

theorem decendRule_of_away {s : State} (hv : s.treeValid = true) (hc : s.cursor ≠ s.root) :
    decendRule s = .error .truncated := by
  rw [decendRule, if_neg (ne_false_of_eq_true hv), if_pos hc]

theorem decendRule_of_root {s : State} (hv : s.treeValid = true) (hc : s.cursor = s.root) : decendRule s = .ok s := by
  rw [decendRule, if_neg (ne_false_of_eq_true hv), if_neg (not_not_intro hc)]

/-- Settles O37: each branch of DECEND's rule is an error or the state before it. -/
theorem decendChecksRoot : Obligations.DecendChecksRoot := by
  refine ⟨encodedAs_row (i := .decend) rfl, fun s => ⟨fun hv => ?_, fun hv hc => ?_, fun hv hc => ?_⟩⟩
  · exact exec_failsWith (if_pos hv)
  · exact exec_failsWith (decendRule_of_away hv hc)
  · exact ⟨retire .ok s, exec_of_ruleOf_ok (decendRule_of_root hv hc), completes_retire .ok rfl, sameBlock_retire .ok s,
      sameHost_retire (.refl s) .ok⟩

end Sys2Proof.Machine

end

/-! 44_decoder.md R119 to R121: DECBUF over the codes of a sequence. The loop moves along each code and emits its symbol at
the leaf, so over a string of codes it either emits all the symbols or runs out of room. -/
section

namespace Sys2Proof.Machine

/-! The loop (R119), an equation a case. -/

section Loop

variable {s : State} {c c' : NodeId} {b : Bool}

theorem decLoop_moves (h : decStep s c b = .ok (c', none)) (rest : List Bool) (out : List Sym) :
    decLoop s (b :: rest) c out = decLoop s rest c' out := by
  rw [decLoop, h]

theorem decLoop_emits {x : Sym} (h : decStep s c b = .ok (c', some x)) (rest : List Bool) (out : List Sym) :
    decLoop s (b :: rest) c out =
      if s.symlen + out.length = s.params.symcap then .error .bufFull else decLoop s rest s.root (out ++ [x]) := by
  rw [decLoop, h, decStep_some h]

theorem decLoop_malformed {e : ErrCode} (h : decStep s c b = .error e) (rest : List Bool) (out : List Sym) :
    decLoop s (b :: rest) c out = .error e := by
  rw [decLoop, h]

end Loop

/-- The loop's errors are MALFORMED and BUF_FULL. -/
theorem decLoop_error {s : State} {bits : List Bool} {c : NodeId} {out : List Sym} {e : ErrCode}
    (h : decLoop s bits c out = .error e) : e = .malformed ∨ e = .bufFull := by
  induction bits generalizing c out with
  | nil => cases h
  | cons b rest ih =>
    rw [decLoop] at h
    split at h
    · rename_i e' hd
      obtain rfl : e' = e := by simpa using h
      exact .inl (decStep_error hd)
    · exact ih h
    · split at h
      · exact .inr (by simpa using h.symm)
      · exact ih h

/-! The loop along a path, a code and the codes of a sequence. -/

/-- Along a path to an internal node the loop emits nothing. -/
theorem decLoop_inner_path {s : State} (h1 : s.treeN ≠ 1) {c y : NodeId} {bs : List Bool} (h : followBits s c bs = some y)
    (hy : (s.nodeAt y).isLeaf = false) (rest : List Bool) (out : List Sym) :
    decLoop s (bs ++ rest) c out = decLoop s rest y out := by
  induction bs generalizing c with
  | nil => rw [Option.some.inj h, List.nil_append]
  | cons b bs ih =>
    rw [followBits] at h
    split at h
    · cases h
    · cases hchild : (s.nodeAt ((s.nodeAt c).child b)).isLeaf with
      | true =>
        obtain rfl := followBits_of_leaf hchild h
        obtain rfl := Option.some.inj h
        exact absurd (hchild.symm.trans hy) (by decide)
      | false => exact (decLoop_moves (decStep_inner h1 hchild) _ out).trans (ih h)

/-- With two leaves or more a proper beginning of a code is the path of an internal node (R121). -/
theorem inner_of_properPrefix {s : State} (h1 : s.treeN ≠ 1) {r : List Bool} (h : ProperPrefixOfPath s r) :
    ∃ y, followBits s s.root r = some y ∧ (s.nodeAt y).isLeaf = false := by
  obtain ⟨x, code, hcode, ⟨d, rfl⟩, hne⟩ := h
  obtain ⟨z, hpath, -⟩ := (isCodeOf_iff_path h1).mp hcode
  rw [followBits_append] at hpath
  obtain ⟨y, hy, hd⟩ := Option.bind_eq_some_iff.mp hpath
  refine ⟨y, hy, Bool.eq_false_iff.mpr fun hleaf => hne ?_⟩
  rw [followBits_of_leaf hleaf hd, List.append_nil]

section Held

variable {s : State} (hT : HeldTree s)
include hT

/-- No code is empty. -/
theorem HeldTree.code_ne_nil {x : Sym} {code : List Bool} (h : IsCodeOf s x code) : code ≠ [] := by
  rintro rfl
  by_cases h1 : s.treeN = 1
  · cases ((isCodeOf_iff_single h1).mp h).2
  · obtain ⟨y, hpath, hleaf, -⟩ := (isCodeOf_iff_path h1).mp h
    exact absurd (hT.path_length h1 hpath hleaf).1 (by simp)

/-- A code takes the loop from the root back to the root, and its symbol is emitted where there is room. -/
theorem HeldTree.decLoop_code {x : Sym} {code : List Bool} (h : IsCodeOf s x code) (rest : List Bool) (out : List Sym) :
    decLoop s (code ++ rest) s.root out =
      if s.symlen + out.length = s.params.symcap then .error .bufFull else decLoop s rest s.root (out ++ [x]) := by
  by_cases h1 : s.treeN = 1
  · obtain ⟨rfl, rfl⟩ := (isCodeOf_iff_single h1).mp h
    exact decLoop_emits (decStep_single_zero h1 _) rest out
  · obtain ⟨y, hpath, hleaf, rfl⟩ := (isCodeOf_iff_path h1).mp h
    obtain rfl | ⟨pre, b, rfl⟩ := List.eq_nil_or_concat' code
    · exact absurd rfl (hT.code_ne_nil h)
    · obtain ⟨p, hpre, hp, rfl⟩ := hT.last_step hpath
      rw [List.append_assoc, decLoop_inner_path h1 hpre ((hT.isInternal_iff hp.2).mp hp)]
      exact decLoop_emits (decStep_leaf h1 hleaf) rest out

/-- The codes of a sequence, `out` being emitted before them: all its symbols, or more than there is room for. -/
theorem HeldTree.decLoop_codes_after {ss : List Sym} {codes : List Bool} (h : PathsSpell s ss codes) (rest : List Bool)
    {out : List Sym} (hle : s.symlen + out.length ≤ s.params.symcap) :
    decLoop s (codes ++ rest) s.root out =
      if s.symlen + out.length + ss.length ≤ s.params.symcap then decLoop s rest s.root (out ++ ss)
      else .error .bufFull := by
  induction ss generalizing codes out with
  | nil =>
    obtain rfl : codes = [] := h
    rw [List.nil_append, List.append_nil]
    exact (if_pos hle).symm
  | cons x ss ih =>
    obtain ⟨code, codes, rfl, hcode, hcodes⟩ := h
    rw [List.append_assoc, hT.decLoop_code hcode, List.length_cons]
    split
    · exact (if_neg (by omega)).symm
    · have hroom : s.symlen + (out ++ [x]).length ≤ s.params.symcap := by
        rw [List.length_append, List.length_singleton]
        omega
      rw [ih hcodes hroom, List.length_append, List.length_singleton, List.append_assoc, List.singleton_append]
      exact if_congr (by omega) rfl rfl

theorem HeldTree.decLoop_codes {ss : List Sym} {codes : List Bool} (h : PathsSpell s ss codes) (rest : List Bool)
    (hle : s.symlen ≤ s.params.symcap) :
    decLoop s (codes ++ rest) s.root [] =
      if s.symlen + ss.length ≤ s.params.symcap then decLoop s rest s.root ss else .error .bufFull :=
  hT.decLoop_codes_after h rest hle

/-- A proper beginning that is not empty leaves the loop away from the root. -/
theorem HeldTree.decLoop_rest (h1 : s.treeN ≠ 1) {r : List Bool} (h : ProperPrefixOfPath s r) (hne : r ≠ [])
    (out : List Sym) : ∃ y, decLoop s r s.root out = .ok (y, out) ∧ y ≠ s.root := by
  obtain ⟨y, hy, hinner⟩ := inner_of_properPrefix h1 h
  refine ⟨y, by simpa [decLoop] using decLoop_inner_path h1 hy hinner [] out, fun hroot => ?_⟩
  have hle := hT.followBits_le le_rfl hy
  rw [hroot] at hle
  exact hne (List.length_eq_zero_iff.mp (by omega))

end Held

/-! DECBUF's rule around the loop (R119). -/

/-- The state DECBUF leaves where the loop emits `ss` and ends at the root. -/
def decoded (ss : List Sym) (s : State) : State :=
  advanced ss (zextLen ss.length) (zextLen (s.symlen + ss.length)) s.root s

theorem heldSyms_congr {s t : State} (h : SameSyms s t) : t.heldSyms = s.heldSyms := by
  rw [State.heldSyms, State.heldSyms, h.symlen]
  exact List.map_congr_left fun i _ => State.symAt_congr h.symbuf i

theorem decoded_retire (ss : List Sym) (s : State) : Decoded ss s (retire .ok (decoded ss s)) where
  completes := completes_retire .ok rfl
  symlen := rfl
  symbols := (heldSyms_congr (advanced_syms ss _ _ _ s)).trans (heldSyms_appendSyms s ss)
  others i hi := Memory.read_writeList_outside symDefault s.symbuf s.symlen i ss hi
  cursor := rfl
  result0 := rfl
  result1 := rfl
  frame := advanced_frame ..

section Decbuf

variable {s : State} (hv : s.treeValid = true)
include hv

theorem exec_decbuf_of_root {ss : List Sym} (h : decLoop s s.heldBits s.root [] = .ok (s.root, ss)) :
    exec .decbuf s = .next (retire .ok (decoded ss s)) := by
  refine exec_of_ruleOf_ok (i := .decbuf) ?_
  rw [ruleOf, decbufRule, if_neg (ne_false_of_eq_true hv), h]
  exact if_neg (not_not_intro rfl)

theorem decbufRule_of_away {c : NodeId} {out : List Sym} (h : decLoop s s.heldBits s.root [] = .ok (c, out))
    (hc : c ≠ s.root) : decbufRule s = .error .truncated := by
  rw [decbufRule, if_neg (ne_false_of_eq_true hv), h]
  exact if_pos hc

theorem decbufRule_of_error {e : ErrCode} (h : decLoop s s.heldBits s.root [] = .error e) : decbufRule s = .error e := by
  rw [decbufRule, if_neg (ne_false_of_eq_true hv), h]

/-- A held string that is the codes of `ss`, with room for them, decodes to `ss`. -/
theorem HeldTree.exec_decbuf_codes (hT : HeldTree s) {ss : List Sym} (h : PathsSpell s ss s.heldBits)
    (hroom : s.symlen + ss.length ≤ s.params.symcap) : exec .decbuf s = .next (retire .ok (decoded ss s)) := by
  refine exec_decbuf_of_root hv ?_
  rw [← List.append_nil s.heldBits, hT.decLoop_codes h [] (by omega)]
  exact if_pos hroom

/-- A held string that begins with the codes of more symbols than there is room for is BUF_FULL. -/
theorem HeldTree.exec_decbuf_full (hT : HeldTree s) {ss : List Sym} {codes rest : List Bool} (h : PathsSpell s ss codes)
    (hbits : s.heldBits = codes ++ rest) (hle : s.symlen ≤ s.params.symcap)
    (hfull : s.symlen + ss.length > s.params.symcap) : ∃ t, exec .decbuf s = .next t ∧ FailsWith .bufFull s t := by
  refine exec_failsWith (i := .decbuf) (decbufRule_of_error hv ?_)
  rw [hbits, hT.decLoop_codes h rest hle]
  exact if_neg (Nat.not_le.mpr hfull)

end Decbuf

theorem treeN_ne_one {s : State} (h : 2 ≤ s.treeN.toNat) : s.treeN ≠ 1 := fun h1 => by
  rw [h1] at h
  exact absurd h (by decide)

/-- Settles O38: the loop emits a symbol for each code and then follows the rest to an internal node. -/
theorem decbufDecodesCodes : Obligations.DecbufDecodesCodes := by
  refine ⟨encodedAs_row (i := .decbuf) rfl, fun s ss r hs hv h2 hsplit => ?_⟩
  have hT := hs.tree.held hv
  obtain ⟨codes, hcodes, hbits, hr⟩ := hsplit
  refine ⟨fun hroom hnil => ?_, fun hroom hne => ?_, fun hfull => ?_⟩
  · subst hnil
    rw [List.append_nil] at hbits
    exact ⟨_, hT.exec_decbuf_codes hv (hbits ▸ hcodes) hroom, decoded_retire ss s⟩
  · obtain ⟨y, hrest, hy⟩ := hT.decLoop_rest (treeN_ne_one h2) hr hne ss
    refine exec_failsWith (i := .decbuf) (decbufRule_of_away hv (out := ss) (c := y) ?_ hy)
    rw [hbits, hT.decLoop_codes hcodes r hs.store.symlen]
    exact (if_pos hroom).trans hrest
  · exact hT.exec_decbuf_full hv hcodes hbits hs.store.symlen hfull

/-- Zeros are the codes of the symbol of a single leaf (R120). -/
theorem pathsSpell_replicate {s : State} (h1 : s.treeN = 1) (k : Nat) :
    PathsSpell s (List.replicate k (s.nodeAt 0).sym) (List.replicate k false) := by
  induction k with
  | zero => rfl
  | succ k ih => exact ⟨[false], _, List.replicate_succ, (isCodeOf_iff_single h1).mpr ⟨rfl, rfl⟩, ih⟩

/-- Settles O39: each 0 is a code of the leaf's symbol, and no step of the walk takes a 1. -/
theorem decbufDecodesSingleLeaf : Obligations.DecbufDecodesSingleLeaf := by
  intro s k hs hv h1
  have hT := hs.tree.held hv
  have hcodes := pathsSpell_replicate h1 k
  refine ⟨fun hbits hroom => ?_, fun rest hbits hroom => ?_, fun rest hbits hfull => ?_⟩
  · exact ⟨_, hT.exec_decbuf_codes hv (hbits ▸ hcodes) (by rwa [List.length_replicate]), decoded_retire _ s⟩
  · refine exec_failsWith (i := .decbuf) (decbufRule_of_error hv ?_)
    rw [hbits, hT.decLoop_codes hcodes _ hs.store.symlen, List.length_replicate]
    exact (if_pos hroom).trans (decLoop_malformed (decStep_single_one h1 _) rest _)
  · exact hT.exec_decbuf_full hv hcodes hbits hs.store.symlen (by rwa [List.length_replicate])

end Sys2Proof.Machine

end

/-! 44_decoder.md R119, R121: DECBUF against the stream of its bits. Each DECBIT takes one step of DECBUF's loop, emitting into
the symbol buffer what the loop collects. -/
section

namespace Sys2Proof.Machine

theorem SameTree.trans {s t u : State} (h : SameTree s t) (k : SameTree t u) : SameTree s u :=
  ⟨k.treeValid.trans h.treeValid, k.treeN.trans h.treeN, k.root.trans h.root, k.node.trans h.node⟩

theorem SameBits.trans {s t u : State} (h : SameBits s t) (k : SameBits t u) : SameBits s u :=
  ⟨k.bitlen.trans h.bitlen, k.bitbuf.trans h.bitbuf⟩

theorem execAll_append {is js : List Instr} {s t : State} (h : execAll is s = .next t) :
    execAll (is ++ js) s = execAll js t := by
  induction is generalizing s with
  | nil => cases h; rfl
  | cons i is ih =>
    obtain ⟨u, hu⟩ := exec_next i s
    rw [execAll_cons hu] at h
    rw [List.cons_append, execAll_cons hu, ih h]

/-- `t` is `s` with the symbols `ss` appended and the cursor at `c`, and no command in between ended in an error. -/
structure Streamed (ss : List Sym) (c : NodeId) (s t : State) : Prop where
  err : t.err = s.err
  cursor : t.cursor = c
  syms : SameSyms (s.appendSyms ss) t
  tree : SameTree s t
  bits : SameBits s t
  params : t.params = s.params

theorem streamed_nil (s : State) : Streamed [] s.cursor s s :=
  ⟨rfl, rfl, ⟨rfl, rfl⟩, ⟨rfl, rfl, rfl, rfl⟩, ⟨rfl, rfl⟩, rfl⟩

theorem Streamed.trans {as bs : List Sym} {c d : NodeId} {s t u : State} (h : Streamed as c s t) (k : Streamed bs d t u) :
    Streamed (as ++ bs) d s u where
  err := k.err.trans h.err
  cursor := k.cursor
  syms := by
    obtain ⟨hlen, hbuf⟩ := h.syms
    obtain ⟨klen, kbuf⟩ := k.syms
    simp only [State.appendSyms_symlen, State.appendSyms_symbuf] at hlen hbuf klen kbuf
    constructor
    · simp [klen, hlen, Nat.add_assoc]
    · simp [kbuf, hbuf, hlen, Memory.writeList_append]
  tree := h.tree.trans k.tree
  bits := h.bits.trans k.bits
  params := k.params.trans h.params

theorem streamed_advanced (ss : List Sym) (r0 r1 : Word) (c : NodeId) (s : State) :
    Streamed ss c s (retire .ok (advanced ss r0 r1 c s)) := by
  obtain ⟨-, tree, -, bits, host⟩ := advanced_frame ss r0 r1 c s
  exact ⟨Bool.or_false _, rfl, advanced_syms ss r0 r1 c s, tree, bits, host.params⟩

theorem Streamed.retire {ss : List Sym} {c : NodeId} {s t : State} (h : Streamed ss c s t) :
    Streamed ss c s (retire .ok t) where
  err := (Bool.or_false _).trans h.err
  cursor := h.cursor
  syms := ⟨h.syms.symlen, h.syms.symbuf⟩
  tree := ⟨h.tree.treeValid, h.tree.treeN, h.tree.root, h.tree.node⟩
  bits := ⟨h.bits.bitlen, h.bits.bitbuf⟩
  params := h.params

/-- What is streamed alike from one state agrees in all it holds of it. -/
theorem Streamed.agree {ss : List Sym} {c : NodeId} {s t u : State} (h : Streamed ss c s t) (k : Streamed ss c s u) :
    SameSyms t u ∧ u.cursor = t.cursor ∧ SameTree t u ∧ SameBits t u := by
  obtain ⟨-, hc, ⟨hlen, hbuf⟩, ⟨hv, hn, hr, hnode⟩, ⟨hbl, hbb⟩, -⟩ := h
  obtain ⟨-, kc, ⟨klen, kbuf⟩, ⟨kv, kn, kr, knode⟩, ⟨kbl, kbb⟩, -⟩ := k
  exact ⟨⟨klen.trans hlen.symm, kbuf.trans hbuf.symm⟩, kc.trans hc.symm,
    ⟨kv.trans hv.symm, kn.trans hn.symm, kr.trans hr.symm, knode.trans hnode.symm⟩,
    ⟨kbl.trans hbl.symm, kbb.trans hbb.symm⟩⟩

/-- Where the loop over the bits raises no error, DECBIT over them follows it from any state streamed so far. -/
theorem Streamed.execAll_decbits {s u : State} {bits : List Bool} {c c' : NodeId} {out out' : List Sym}
    (hv : s.treeValid = true) (hu : Streamed out c s u) (h : decLoop s bits c out = .ok (c', out')) :
    ∃ t, execAll (bits.map .decbit) u = .next t ∧ Streamed out' c' s t := by
  induction bits generalizing c out u with
  | nil =>
    obtain ⟨rfl, rfl⟩ : c = c' ∧ out = out' := by simpa [decLoop] using h
    exact ⟨u, rfl, hu⟩
  | cons b rest ih =>
    have huv : u.treeValid = true := hu.tree.treeValid.trans hv
    have hstep : decStep u u.cursor b = decStep s c b := by rw [hu.tree.decStep, hu.cursor]
    rw [decLoop] at h
    split at h
    · cases h
    · rename_i y hd
      have hexec := exec_of_ruleOf_ok (i := .decbit b) (decbitRule_of_moves huv (hstep.trans hd))
      rw [List.map_cons, execAll_cons hexec]
      exact ih (List.append_nil out ▸ hu.trans (streamed_advanced [] 0 (zext32 y) y u)) h
    · rename_i y x hd
      split at h
      · cases h
      · rename_i hroom
        have hroom : u.symlen ≠ u.params.symcap := by rwa [hu.syms.symlen, hu.params]
        have hexec := exec_of_ruleOf_ok (i := .decbit b) (decbitRule_of_emits huv (hstep.trans hd) hroom)
        rw [List.map_cons, execAll_cons hexec]
        rw [decStep_some hd, ← hu.tree.root] at h
        exact ih (hu.trans (streamed_advanced [x] _ _ u.root u)) h

/-- A DECBUF that reports no error is one whose loop ended at the root (R119). -/
theorem decLoop_of_exec_decbuf_ok {s t : State} (h : exec .decbuf s = .next t) (hok : t.lastErr = .ok) :
    s.treeValid = true ∧ ∃ ss, decLoop s s.heldBits s.root [] = .ok (s.root, ss) ∧ t = retire .ok (decoded ss s) := by
  obtain ⟨u, hu, rfl⟩ | ⟨e, he, rfl⟩ := exec_cases h
  · obtain ⟨hv, ss, hloop, rfl⟩ := decbufRule_ok hu
    exact ⟨hv, ss, hloop, rfl⟩
  · obtain rfl : e = .ok := hok
    obtain ⟨-, he⟩ | ⟨-, he⟩ | ⟨-, he, -⟩ := decbufRule_error he
    · cases he
    · obtain he | he := decLoop_error he <;> cases he
    · cases he

/-- Settles O40: DECBIT follows DECBUF's loop, which ended at the root, where DECEND finds the cursor. -/
theorem decbufEqualsStreaming : Obligations.DecbufEqualsStreaming := by
  intro s t hc h hok
  obtain ⟨hv, ss, hloop, rfl⟩ := decLoop_of_exec_decbuf_ok h hok
  obtain ⟨u, hrun, hu⟩ := (hc ▸ streamed_nil s).execAll_decbits hv hloop
  have hend : exec .decend u = .next (retire .ok u) :=
    exec_of_ruleOf_ok (i := .decend) (decendRule_of_root (hu.tree.treeValid.trans hv) (hu.cursor.trans hu.tree.root.symm))
  refine ⟨retire .ok u, (execAll_append hrun).trans (execAll_cons hend), rfl, hu.retire.err, ?_⟩
  exact (streamed_advanced ss _ _ s.root s).agree hu.retire

end Sys2Proof.Machine

end

/-! 44_decoder.md R121: every bit string is codes and a proper beginning of a code, in one way only. A long enough
continuation of the string begins with a code, which the string either begins with or is a proper beginning of; and no code
begins another. -/
section

namespace Sys2Proof.Machine

/-! The codes the table holds are the paths (R106). -/

/-- The symbol of a code has a leaf. -/
theorem HeldTree.hasLeaf_of_isCodeOf {s : State} (hT : HeldTree s) {x : Sym} {code : List Bool} (h : IsCodeOf s x code) :
    HasLeaf s x := by
  by_cases h1 : s.treeN = 1
  · exact ⟨0, hT.size.1, ((isCodeOf_iff_single h1).mp h).1⟩
  · obtain ⟨y, hpath, hleaf, rfl⟩ := (isCodeOf_iff_path h1).mp h
    exact ⟨y.toNat, hT.leaf_of_path hpath hleaf, rfl⟩

theorem CodeInv.isCodeOf_iff {s : State} (hs : CodeInv s) (hT : HeldTree s) (hc : s.codesValid = true) {x : Sym}
    {code : List Bool} : IsCodeOf s x code ↔ (s.codeAt x).valid = true ∧ code = (s.codeAt x).toBits := by
  constructor
  · intro h
    have hv := (hs.exactly hc x).mpr (hT.hasLeaf_of_isCodeOf h)
    exact ⟨hv, hT.isCodeOf_unique h (hs.path hc x hv)⟩
  · rintro ⟨hv, rfl⟩
    exact hs.path hc x hv

/-- The strings that are paths of a sequence are the concatenations of the table's codes. -/
theorem CodeInv.pathsSpell_iff {s : State} (hs : CodeInv s) (hT : HeldTree s) (hc : s.codesValid = true) {ss : List Sym}
    {bs : List Bool} : PathsSpell s ss bs ↔ AllCoded s ss ∧ bs = encodeSyms s ss := by
  induction ss generalizing bs with
  | nil => exact (and_iff_right (List.forall_mem_nil _)).symm
  | cons x ss ih =>
    rw [AllCoded, List.forall_mem_cons, encodeSyms_cons]
    constructor
    · rintro ⟨code, codes, rfl, hcode, hcodes⟩
      obtain ⟨hv, rfl⟩ := (hs.isCodeOf_iff hT hc).mp hcode
      obtain ⟨hall, rfl⟩ := ih.mp hcodes
      exact ⟨⟨hv, hall⟩, rfl⟩
    · rintro ⟨⟨hv, hall⟩, rfl⟩
      exact ⟨_, _, rfl, (hs.isCodeOf_iff hT hc).mpr ⟨hv, rfl⟩, ih.mpr ⟨hall, rfl⟩⟩

/-! Existence. -/

theorem SplitsInto.cons {s : State} {x : Sym} {code bs r : List Bool} {ss : List Sym} (hcode : IsCodeOf s x code)
    (h : SplitsInto s bs ss r) : SplitsInto s (code ++ bs) (x :: ss) r := by
  obtain ⟨codes, hcodes, rfl, hr⟩ := h
  exact ⟨code ++ codes, ⟨code, codes, rfl, hcode, hcodes⟩, (List.append_assoc ..).symm, hr⟩

section Held

variable {s : State} (hT : HeldTree s)
include hT

/-- A bit string begins with a code or is a proper beginning of one. -/
theorem HeldTree.code_prefix_or_properPrefix (h1 : s.treeN ≠ 1) (bs : List Bool) :
    (∃ x code, IsCodeOf s x code ∧ code <+: bs) ∨ ProperPrefixOfPath s bs := by
  obtain ⟨x, code, -, hcode, hp⟩ := hT.exists_code_prefix h1 (bs := bs ++ List.replicate Config.lmax false) (by simp)
  by_cases hle : code <+: bs
  · exact .inl ⟨x, code, hcode, hle⟩
  · have hbs : bs <+: code := (List.prefix_or_prefix_of_prefix hp (List.prefix_append _ _)).resolve_left hle
    exact .inr ⟨x, code, hcode, hbs, fun he => hle (he ▸ List.prefix_rfl)⟩

theorem HeldTree.exists_split (h1 : s.treeN ≠ 1) (bs : List Bool) : ∃ ss r, SplitsInto s bs ss r := by
  induction hn : bs.length using Nat.strong_induction_on generalizing bs with
  | _ n ih =>
    obtain ⟨x, code, hcode, d, rfl⟩ | hr := hT.code_prefix_or_properPrefix h1 bs
    · have hpos := List.length_pos_iff.mpr (hT.code_ne_nil hcode)
      rw [List.length_append] at hn
      obtain ⟨ss, r, h⟩ := ih d.length (by omega) d rfl
      exact ⟨x :: ss, r, h.cons hcode⟩
    · exact ⟨[], bs, [], rfl, rfl, hr⟩

/-! Uniqueness. -/

/-- Two codes that begin one string are the same code of the same symbol. -/
theorem HeldTree.code_unique {x y : Sym} {code code' bs : List Bool} (hx : IsCodeOf s x code) (hy : IsCodeOf s y code')
    (hp : code <+: bs) (hp' : code' <+: bs) : x = y ∧ code = code' := by
  obtain rfl : x = y := by
    obtain h | h := List.prefix_or_prefix_of_prefix hp hp'
    · exact isCodeOf_prefix hx hy h
    · exact (isCodeOf_prefix hy hx h).symm
  exact ⟨rfl, hT.isCodeOf_unique hx hy⟩

/-- A proper beginning of a code begins with no code. -/
theorem HeldTree.not_code_prefix {r code : List Bool} {x : Sym} (hr : ProperPrefixOfPath s r) (hx : IsCodeOf s x code) :
    ¬code <+: r := by
  obtain ⟨y, code', hy, hp, hne⟩ := hr
  intro h
  obtain ⟨-, rfl⟩ := hT.code_unique hx hy (h.trans hp) List.prefix_rfl
  exact hne (hp.eq_of_length_le h.length_le)

theorem HeldTree.split_unique {codes codes' r r' : List Bool} {ss ss' : List Sym} (hcodes : PathsSpell s ss codes)
    (hcodes' : PathsSpell s ss' codes') (heq : codes ++ r = codes' ++ r') (hr : ProperPrefixOfPath s r)
    (hr' : ProperPrefixOfPath s r') : ss' = ss ∧ r' = r := by
  induction ss generalizing codes codes' ss' with
  | nil =>
    obtain rfl : codes = [] := hcodes
    cases ss' with
    | nil =>
      obtain rfl : codes' = [] := hcodes'
      exact ⟨rfl, heq.symm⟩
    | cons y ss' =>
      obtain ⟨code', rest', rfl, hy, -⟩ := hcodes'
      rw [List.nil_append, List.append_assoc] at heq
      exact absurd (heq ▸ List.prefix_append _ _) (hT.not_code_prefix hr hy)
  | cons x ss ih =>
    obtain ⟨code, rest, rfl, hx, hrest⟩ := hcodes
    rw [List.append_assoc] at heq
    cases ss' with
    | nil =>
      obtain rfl : codes' = [] := hcodes'
      rw [List.nil_append] at heq
      exact absurd (heq ▸ List.prefix_append _ _) (hT.not_code_prefix hr' hx)
    | cons y ss' =>
      obtain ⟨code', rest', rfl, hy, hrest'⟩ := hcodes'
      rw [List.append_assoc] at heq
      obtain ⟨rfl, rfl⟩ := hT.code_unique hx hy (List.prefix_append _ _) (heq.symm ▸ List.prefix_append _ _)
      obtain ⟨rfl, rfl⟩ := ih hrest hrest' (List.append_cancel_left heq)
      exact ⟨rfl, rfl⟩

end Held

/-- Settles O41: codes are split off until a proper beginning is left, each of them forced by the string. -/
theorem bitStringsSplitUniquely : Obligations.BitStringsSplitUniquely := by
  intro s hs hv h2
  have hT := hs.held hv
  refine ⟨fun bs => ?_, fun hcodes hc ss bs => hcodes.pathsSpell_iff hT hc⟩
  obtain ⟨ss, r, codes, hcodes, rfl, hr⟩ := hT.exists_split (treeN_ne_one h2) bs
  refine ⟨ss, r, ⟨codes, hcodes, rfl, hr⟩, fun ss' r' h => ?_⟩
  obtain ⟨codes', hcodes', heq, hr'⟩ := h
  exact hT.split_unique hcodes hcodes' heq hr hr'

end Sys2Proof.Machine

end

/-! 44_decoder.md R122: ENCODE, then DECODE. The first part of ENCODE leaves a code for every symbol of the sequence, the
second their concatenation, and DECBUF takes that apart again. -/
section

namespace Sys2Proof.Machine

/-! What a list of commands keeps. -/

theorem execAll_keeps {P : State → Prop} {is : List Instr} {s t : State}
    (hstep : ∀ i ∈ is, ∀ u v, exec i u = .next v → P u → P v) (h : execAll is s = .next t) (hs : P s) : P t := by
  induction is generalizing s with
  | nil => cases h; exact hs
  | cons i is ih =>
    obtain ⟨hi, his⟩ := List.forall_mem_cons.mp hstep
    obtain ⟨u, hu⟩ := exec_next i s
    rw [execAll_cons hu] at h
    exact ih his h (hi s u hu hs)

theorem exec_count_keeps {x : Sym} {s t : State} (h : exec (.count x) s = .next t) :
    t.bitlen = s.bitlen ∧ t.params = s.params := by
  obtain ⟨u, hu, rfl⟩ | ⟨e, -, rfl⟩ := exec_cases h
  · obtain ⟨-, rfl⟩ := countRule_ok hu
    exact ⟨rfl, rfl⟩
  · exact ⟨rfl, rfl⟩

theorem exec_enc_keeps {x : Sym} {s t : State} (h : exec (.enc x) s = .next t) : SameTree s t ∧ t.params = s.params := by
  obtain ⟨u, hu, rfl⟩ | ⟨e, -, rfl⟩ := exec_cases h
  · obtain ⟨c, -, -, rfl⟩ := encRule_ok hu
    have happ := appended_appendBits c.toBits s (zext32 c.len) (zextLen (s.bitlen + c.toBits.length)) .ok
    exact ⟨happ.tree, happ.host.params⟩
  · exact ⟨(sameBlock_raiseError e s).tree, rfl⟩

theorem execAll_counts_keeps {ss : List Sym} {s t : State} (h : execAll (ss.map .count) s = .next t) :
    t.bitlen = s.bitlen ∧ t.params = s.params := by
  refine execAll_keeps (P := fun u => u.bitlen = s.bitlen ∧ u.params = s.params) (fun i hi u v huv hu => ?_) h ⟨rfl, rfl⟩
  obtain ⟨x, -, rfl⟩ := List.mem_map.mp hi
  obtain ⟨hbitlen, hparams⟩ := exec_count_keeps huv
  exact ⟨hbitlen.trans hu.1, hparams.trans hu.2⟩

theorem execAll_encs_keeps {ss : List Sym} {s t : State} (h : execAll (ss.map .enc) s = .next t) :
    SameTree s t ∧ t.params = s.params := by
  refine execAll_keeps (P := fun u => SameTree s u ∧ u.params = s.params) (fun i hi u v huv hu => ?_) h
    ⟨⟨rfl, rfl, rfl, rfl⟩, rfl⟩
  obtain ⟨x, -, rfl⟩ := List.mem_map.mp hi
  obtain ⟨htree, hparams⟩ := exec_enc_keeps huv
  exact ⟨hu.1.trans htree, hparams.trans hu.2⟩

/-! The first part of ENCODE (30_encoding.md R81): a new session, the counts, the tree and the table. -/

/-- The table counts just the symbols of `ss`, the bit buffer is empty, and no command on the way from `s` ended in an
error. -/
structure CountedSession (ss : List Sym) (s t : State) : Prop where
  inv : FreqInv t
  err : t.err = s.err
  params : t.params = s.params
  bitlen : t.bitlen = 0
  ndist : t.ndist.toNat = ss.dedup.length
  counted : ∀ x ∈ ss, t.freqAt x ≠ 0

theorem exists_countedSession {ss : List Sym} (s : State) (hlen : ss.length < 2 ^ 32) :
    ∃ t, execAll (pseudoNewsession ++ pseudoCounts ss) s = .next t ∧ CountedSession ss s t := by
  have hclr : exec (.clr 0x3B) s = .next (retire .ok (clrRule 0x3B s)) := exec_of_ruleOf_ok rfl
  have hinv : FreqInv (retire .ok (clrRule 0x3B s)) := freqInv_of_freq_empty rfl rfl rfl
  obtain ⟨t, hrun, ht⟩ := execAll_map_count (ss := ss) hinv rfl ((Nat.zero_add _).trans_lt hlen)
  obtain ⟨hbitlen, hparams⟩ := execAll_counts_keeps hrun
  refine ⟨t, (execAll_cons hclr).trans hrun, ht.inv, ht.err.trans (Bool.or_false _), hparams, hbitlen,
    ht.ndist fun _ => rfl, fun x hx h0 => ?_⟩
  have hcount : (t.freqAt x).toNat = ss.count x := (ht.freqAt x).trans (Nat.zero_add _)
  exact (List.count_pos_iff.mpr hx).ne (hcount ▸ congrArg BitVec.toNat h0).symm

/-- Every symbol of `ss` has its code in a table derived from a held tree, the bit buffer is empty, and no command on the way
from `s` ended in an error. -/
structure Prepared (ss : List Sym) (s d : State) : Prop where
  lastErr : d.lastErr = .ok
  err : d.err = s.err
  params : d.params = s.params
  bitlen : d.bitlen = 0
  treeValid : d.treeValid = true
  tree : HeldTree d
  codesValid : d.codesValid = true
  codes : CodeInv d
  coded : AllCoded d ss

/-- BUILD places a leaf for every symbol that has a count (42_tree_builder.md R96). -/
theorem hasLeaf_commitTree {s : State} {x : Sym} (h : s.freqAt x ≠ 0) : HasLeaf (commitTree s) x := by
  obtain ⟨k, hk, hget⟩ := List.getElem_of_mem (mem_leaves.mpr ⟨x, rfl, h⟩)
  exact ⟨k, by rwa [toNat_commitTree_treeN], by rw [nodeNo_commitTree_leaf hk, hget]; rfl⟩

theorem exec_derive {s : State} (hv : s.treeValid = true) :
    exec .derive s = .next (retire .ok { s with code := derivedTable s, codesValid := true }) :=
  exec_of_ruleOf_ok (i := .derive) (if_neg (ne_false_of_eq_true hv))

/-- BUILD and DERIVE prepare a counted session that is not empty. -/
theorem CountedSession.exists_prepared {ss : List Sym} {s t : State} (h : CountedSession ss s t) (hne : ss ≠ []) :
    ∃ d, execAll [.build, .derive] t = .next d ∧ Prepared ss s d := by
  have hn : t.ndist ≠ 0 := fun h0 =>
    hne ((List.dedup_eq_nil ss).mp (List.length_eq_zero_iff.mp (h.ndist.symm.trans (congrArg BitVec.toNat h0))))
  have htree : HeldTree (retire .ok (commitTree t)) :=
    (heldTree_commitTree h.inv hn).congr (sameBlock_retire .ok _).tree
  have hderive := exec_derive (s := retire .ok (commitTree t)) rfl
  have hcodes := codeInv_derive htree rfl
  have hsame := sameBlock_retire .ok
    { retire .ok (commitTree t) with code := derivedTable (retire .ok (commitTree t)), codesValid := true }
  refine ⟨_, (execAll_cons (exec_build hn)).trans (execAll_cons hderive), rfl, ?_, h.params, h.bitlen, rfl,
    htree.congr ⟨rfl, rfl, rfl, rfl⟩, rfl, hcodes.congr hsame.tree hsame.codes, fun x hx => ?_⟩
  · simpa using h.err
  · exact (hcodes.exactly rfl x).mpr (hasLeaf_commitTree (h.counted x hx))

/-! The second part of ENCODE, and DECODE. -/

theorem SameTree.pathsSpell {s t : State} (h : SameTree s t) {ss : List Sym} {bs : List Bool} (hs : PathsSpell s ss bs) :
    PathsSpell t ss bs := by
  induction ss generalizing bs with
  | nil => exact hs
  | cons x ss ih =>
    obtain ⟨code, codes, rfl, hcode, hcodes⟩ := hs
    exact ⟨code, codes, rfl, (isCodeOf_congr h x code).mpr hcode, ih hcodes⟩

/-- `t` holds the codes of `ss` and the tree to decode them by, and no command on the way from `s` ended in an error. -/
structure EncodedSession (ss : List Sym) (s t : State) : Prop where
  err : t.err = s.err
  params : t.params = s.params
  treeValid : t.treeValid = true
  tree : HeldTree t
  held : PathsSpell t ss t.heldBits

theorem Prepared.exists_encoded {ss : List Sym} {s d : State} (h : Prepared ss s d)
    (hfit : (encodeSyms d ss).length ≤ s.params.bitcap) :
    ∃ t, execAll (pseudoEncs ss) d = .next t ∧ EncodedSession ss s t := by
  obtain ⟨t, hrun, -, herr, hheld⟩ := execAll_map_enc h.codesValid h.coded
    (by rw [h.bitlen, h.params]; omega) h.lastErr
  obtain ⟨htree, hparams⟩ := execAll_encs_keeps hrun
  have hempty : d.heldBits = [] := List.length_eq_zero_iff.mp ((heldBits_length d).trans h.bitlen)
  have hspell := (h.codes.pathsSpell_iff h.tree h.codesValid).mpr ⟨h.coded, rfl⟩
  refine ⟨t, hrun, herr.trans h.err, hparams.trans h.params, htree.treeValid.trans h.treeValid, h.tree.congr htree, ?_⟩
  rw [hheld, hempty, List.nil_append]
  exact htree.pathsSpell hspell

/-- The mask of CLR S takes the fifth step of CLR alone (40_control.md R86). -/
theorem clrRule_S (s : State) : clrRule 0x10 s = clearSyms s := rfl

theorem EncodedSession.exists_decoded {ss : List Sym} {s t : State} (h : EncodedSession ss s t)
    (hroom : ss.length ≤ s.params.symcap) :
    ∃ u, execAll pseudoDecode t = .next u ∧ u.lastErr = .ok ∧ u.err = s.err ∧ u.symlen = ss.length ∧ u.heldSyms = ss := by
  have hclr : exec (.clr 0x10) t = .next (retire .ok (clearSyms t)) := exec_of_ruleOf_ok (congrArg Except.ok (clrRule_S t))
  have htree : SameTree t (retire .ok (clearSyms t)) := ⟨rfl, rfl, rfl, rfl⟩
  have hfits : (0 : Nat) + ss.length ≤ t.params.symcap := by rwa [Nat.zero_add, h.params]
  have hdec := (h.tree.congr htree).exec_decbuf_codes (s := retire .ok (clearSyms t)) h.treeValid (htree.pathsSpell h.held)
    hfits
  have hu := decoded_retire ss (retire .ok (clearSyms t))
  refine ⟨_, (execAll_cons hclr).trans (execAll_cons hdec), rfl, ?_, hu.symlen.trans (Nat.zero_add _), hu.symbols⟩
  rw [hu.completes.err]
  simpa using h.err

/-- Settles O42: the symbols are counted, so they have leaves and codes, and DECBUF reads the codes back in order. -/
theorem encodeThenDecodeRoundTrips : Obligations.EncodeThenDecodeRoundTrips := by
  intro ss s hne hlen
  obtain ⟨hsymcap, hmax⟩ := Nat.le_min.mp hlen
  obtain ⟨c, hcount, hc⟩ := exists_countedSession (ss := ss) s (by omega)
  obtain ⟨d, hbuild, hd⟩ := hc.exists_prepared hne
  have hprepare := (execAll_append hcount).trans hbuild
  refine ⟨d, hprepare, hd.codesValid, hd.coded, fun hfit => ?_⟩
  obtain ⟨e, hencode, he⟩ := hd.exists_encoded hfit
  obtain ⟨t, hdecode, ht⟩ := he.exists_decoded hsymcap
  exact ⟨t, (execAll_append ((execAll_append hprepare).trans hencode)).trans hdecode, ht⟩

end Sys2Proof.Machine

end

/-! 45_readback.md R125 to R129: the read-back commands. Each rule checks its operand and writes the result registers; what is
left is the result words read field by field. -/
section

namespace Sys2Proof.Machine

/-! What a read-back command leaves. -/

/-- The result registers and the completion fields are all that `SameButResults` leaves open. -/
theorem sameButResults_withResults (s : State) (r0 r1 : Word) (p : Option Word) (d e : Bool) (l : ErrCode) :
    SameButResults s { s with result0 := r0, result1 := r1, pend := p, done := d, err := e, lastErr := l } :=
  ⟨⟨rfl, rfl, rfl⟩, ⟨rfl, rfl, rfl, rfl⟩, ⟨rfl, rfl⟩, rfl, ⟨rfl, rfl⟩, ⟨rfl, rfl⟩,
    ⟨rfl, rfl, rfl, rfl, rfl, rfl, rfl, rfl, rfl⟩⟩

theorem exec_setResults {i : Instr} {s : State} {r0 r1 : Word} (h : ruleOf i s = .ok (s.setResults r0 r1)) :
    ∃ t, exec i s = .next t ∧ Completes .ok s t ∧ SameButResults s t ∧ t.result0 = r0 ∧ t.result1 = r1 :=
  ⟨_, exec_of_ruleOf_ok h, completes_retire .ok rfl, sameButResults_withResults s .., rfl, rfl⟩

/-! The fields of the result words. -/

/-- A field that holds a narrower number reads as the number and zeros above it. -/
theorem extractLsb'_of_zeroExtended {n k m p : Nat} {word : Word} {v : BitVec n} (hm : n + k = m)
    (h : word.extractLsb' p m = v.setWidth m) : word.extractLsb' p n = v ∧ word.extractLsb' (p + n) k = 0 := by
  have hbit (j : Nat) (hj : j < m) : word.getLsbD (p + j) = v.getLsbD j := by
    simpa [hj] using congrArg (BitVec.getLsbD · j) h
  refine ⟨BitVec.eq_of_getLsbD_eq fun j hj => ?_, BitVec.eq_of_getLsbD_eq fun j hj => ?_⟩
  · simp [hj, hbit j (by omega)]
  · simp [Nat.add_assoc, hbit (n + j) (by omega)]

/-- Bit 31 set above a number: RESULT1 for a leaf (R126), RESULT0 for a code (R127). -/
theorem flagged_fields {n k : Nat} (v : BitVec n) (hk : n + k = 31) :
    (0x80000000#32 ||| zext32 v).getLsbD 31 = true ∧ (0x80000000#32 ||| zext32 v).extractLsb' 0 n = v ∧
      (0x80000000#32 ||| zext32 v).extractLsb' n k = 0 := by
  have hword : 0x80000000#32 ||| zext32 v = (1#1).setWidth 32 <<< 31 ||| (v.setWidth 31).setWidth 32 := by
    rw [zext32, BitVec.setWidth_setWidth (by omega)]
    rfl
  have hlow : (0x80000000#32 ||| zext32 v).extractLsb' 0 31 = v.setWidth 31 :=
    hword ▸ Laws.extractLsb'_lowField _ _ (by decide)
  obtain ⟨hv, hzero⟩ := extractLsb'_of_zeroExtended hk hlow
  exact ⟨by simp, hv, by rwa [Nat.zero_add] at hzero⟩

theorem nodeWord_internal_fields (f : Count) (l r : NodeId) :
    (nodeWord (.internal f l r)).extractLsb' 0 9 = l ∧ (nodeWord (.internal f l r)).extractLsb' 9 7 = 0 ∧
      (nodeWord (.internal f l r)).extractLsb' 16 9 = r ∧ (nodeWord (.internal f l r)).extractLsb' 25 7 = 0 := by
  have hword : nodeWord (.internal f l r) = (r.setWidth 16).setWidth 32 <<< 16 ||| (l.setWidth 16).setWidth 32 := by
    simp [nodeWord, zext32]
  rw [hword]
  obtain ⟨hleft, hzero9⟩ := extractLsb'_of_zeroExtended (k := 7) rfl
    (Laws.extractLsb'_lowField (n := 32) (r.setWidth 16) (l.setWidth 16) (by decide))
  obtain ⟨hright, hzero25⟩ := extractLsb'_of_zeroExtended (k := 7) rfl
    (Laws.extractLsb'_highField (n := 32) (r.setWidth 16) (l.setWidth 16) (by decide))
  exact ⟨hleft, hzero9, hright, hzero25⟩

/-! RDNODE by its two checks (R126). -/

theorem rdnodeRule_of_le_root {s : State} {id : NodeId} (hv : s.treeValid = true) (hid : id ≤ s.root) :
    rdnodeRule id s = .ok (s.setResults (s.nodeAt id).freq (nodeWord (s.nodeAt id))) := by
  rw [rdnodeRule, if_neg (ne_false_of_eq_true hv), if_neg (BitVec.not_lt.mpr hid)]

theorem rdnodeRule_of_root_lt {s : State} {id : NodeId} (hv : s.treeValid = true) (hid : s.root < id) :
    rdnodeRule id s = .error .range := by
  rw [rdnodeRule, if_neg (ne_false_of_eq_true hv), if_pos hid]

/-! The obligations. -/

/-- Settles O43: RDFREQ's rule writes the results in every state. -/
theorem rdfreqReturnsCount : Obligations.RdfreqReturnsCount := by
  intro x s
  obtain ⟨t, ht, hcomp, hsame, hr0, hr1⟩ := exec_setResults (s := s) (i := .rdfreq x) rfl
  exact ⟨encodedAs_row (i := .rdfreq x) rfl, t, ht, hcomp, hr0, hr1, hsame⟩

/-- Settles O44: up to ROOT RDNODE's rule writes the node's word, whose fields are read back by kind. -/
theorem rdnodeReturnsNode : Obligations.RdnodeReturnsNode := by
  refine fun id s => ⟨encodedAs_row (i := .rdnode id) rfl, fun hv hid => ?_, fun hv => exec_failsWith (if_pos hv),
    fun hv hid => exec_failsWith (rdnodeRule_of_root_lt hv hid)⟩
  obtain ⟨t, ht, hcomp, hsame, hr0, hr1⟩ := exec_setResults (i := .rdnode id) (rdnodeRule_of_le_root hv hid)
  refine ⟨t, ht, hcomp, hsame, fun x f hnode => ?_, fun f l r hnode => ?_⟩
  · rw [hr0, hr1, hnode]
    exact ⟨rfl, flagged_fields x rfl⟩
  · rw [hr0, hr1, hnode]
    exact ⟨rfl, nodeWord_internal_fields f l r⟩

/-- Settles O45: RDCODE's rule asks whether the symbol has a code, and writes the entry's words or zeros. -/
theorem rdcodeReturnsCode : Obligations.RdcodeReturnsCode := by
  intro x w s
  refine ⟨encodedAs_row (i := .rdcode x w) rfl, ?_⟩
  cases hcode : s.validCode x with
  | none =>
    have hno := validCode_eq_none.mp hcode
    obtain ⟨t, ht, hcomp, hsame, hr0, hr1⟩ :=
      exec_setResults (i := .rdcode x w) (r0 := 0) (r1 := 0) (by rw [ruleOf, rdcodeRule, hcode])
    exact ⟨t, ht, hcomp, hsame, fun hc hv => by simp [hc, hv] at hno, fun _ => ⟨hr0, hr1⟩⟩
  | some c =>
    obtain ⟨hc, hv, rfl⟩ := validCode_eq_some.mp hcode
    obtain ⟨t, ht, hcomp, hsame, hr0, hr1⟩ :=
      exec_setResults (i := .rdcode x w) (r1 := codeWord (s.codeAt x) w) (by rw [ruleOf, rdcodeRule, hcode])
    obtain ⟨hvalid, hlen, hzero⟩ := flagged_fields (k := 22) (s.codeAt x).len rfl
    refine ⟨t, ht, hcomp, hsame, fun _ _ => ⟨hr0 ▸ hvalid, hr0 ▸ hlen, hr0 ▸ hzero, fun j hj => ?_⟩, fun hno => ?_⟩
    · rw [hr1, codeWord, BitVec.getLsbD_extractLsb', decide_eq_true hj, Bool.true_and]
    · simp [hc, hv] at hno

/-- Settles O46: RDBITS packs the stream bits below BITLEN, one a position of the word. -/
theorem rdbitsReturnsWord : Obligations.RdbitsReturnsWord := by
  refine fun k s => ⟨encodedAs_row (i := .rdbits k) rfl, fun hk => ?_, fun hk => exec_failsWith (if_pos hk)⟩
  obtain ⟨t, ht, hcomp, hsame, hr0, hr1⟩ := exec_setResults (i := .rdbits k) (if_neg (not_le_of_gt hk))
  refine ⟨t, ht, hcomp, hsame, fun j hj => ?_, hr1⟩
  rw [hr0, bitWord, getLsbD_packBits _ _ _ le_rfl, decide_eq_true hj, Bool.true_and]

/-- Settles O47: RDSYM's rule checks the index against SYMLEN and writes the results. -/
theorem rdsymReturnsSymbol : Obligations.RdsymReturnsSymbol := by
  refine fun idx s => ⟨encodedAs_row (i := .rdsym idx) rfl, fun hidx => ?_, fun hidx => exec_failsWith (if_pos hidx)⟩
  exact exec_setResults (i := .rdsym idx) (if_neg (not_le_of_gt hidx))

end Sys2Proof.Machine

end

/-! 45_readback.md R130: a command's rule reads neither the result registers nor the completion fields, so what a read-back
command writes there changes nothing the next command does. -/
section

namespace Sys2Proof.Machine

/-! What the rules leave of the result registers and the completion fields. -/

/-- `s` with the completion fields of `o`. -/
def State.withCompletionOf (s o : State) : State :=
  { s with pend := o.pend, done := o.done, err := o.err, lastErr := o.lastErr }

/-- `s` with the completion fields and the result registers of `o`. -/
def State.withEndOf (s o : State) : State := (s.withCompletionOf o).setResults o.result0 o.result1

theorem SameButResults.eq_withEndOf {s t : State} (h : SameButResults s t) : t = s.withEndOf t := by
  obtain ⟨⟨hf, ht, hn⟩, ⟨htv, htn, hr, hnode⟩, ⟨hcv, hcode⟩, hc, ⟨hbl, hbb⟩, ⟨hsl, hsb⟩, hh⟩ := h
  obtain ⟨hp, hov, hdi, hei, hir, hq, hhd, hdr, hde⟩ := hh
  cases s
  cases t
  simp only at *
  subst_vars
  rfl

/-- What command `j` leaves in place of `u` where it begins with the results and the completion fields of `o`: those of `o`,
but for results that `j` writes itself. -/
def endingOf (j : Instr) (o u : State) : State := if writesResults j then u.withCompletionOf o else u.withEndOf o

section Rules

variable (s o : State)

/-! What the rules read. -/

theorem State.withEndOf_params : (s.withEndOf o).params = s.params := rfl

theorem State.withEndOf_total : (s.withEndOf o).total = s.total := rfl

theorem State.withEndOf_ndist : (s.withEndOf o).ndist = s.ndist := rfl

theorem State.withEndOf_treeValid : (s.withEndOf o).treeValid = s.treeValid := rfl

theorem State.withEndOf_root : (s.withEndOf o).root = s.root := rfl

theorem State.withEndOf_cursor : (s.withEndOf o).cursor = s.cursor := rfl

theorem State.withEndOf_bitlen : (s.withEndOf o).bitlen = s.bitlen := rfl

theorem State.withEndOf_symlen : (s.withEndOf o).symlen = s.symlen := rfl

theorem heldBits_withEndOf : (s.withEndOf o).heldBits = s.heldBits := rfl

theorem validCode_withEndOf (x : Sym) : (s.withEndOf o).validCode x = s.validCode x := rfl

theorem decStep_withEndOf (c : NodeId) (b : Bool) : decStep (s.withEndOf o) c b = decStep s c b := rfl

theorem decLoop_withEndOf (bits : List Bool) (c : NodeId) (out : List Sym) :
    decLoop (s.withEndOf o) bits c out = decLoop s bits c out := by
  induction bits generalizing c out with
  | nil => rfl
  | cons b rest ih =>
    simp only [decLoop, ih]
    rfl

theorem walkCodes_withEndOf (fuel : Nat) (x : NodeId) (depth : Nat) (path : CodeBits) (table : Memory Code) :
    walkCodes (s.withEndOf o) fuel x depth path table = walkCodes s fuel x depth path table := by
  induction fuel generalizing x depth path table with
  | zero => rfl
  | succ fuel ih =>
    simp only [walkCodes, ih]
    rfl

theorem derivedTable_withEndOf : derivedTable (s.withEndOf o) = derivedTable s := by
  unfold derivedTable
  rw [walkCodes_withEndOf]
  rfl

/-! The rules. -/

theorem clrRule_withEndOf (mask : BitVec 6) : clrRule mask (s.withEndOf o) = (clrRule mask s).withEndOf o := by
  rw [clrRule_eq, clrRule_eq]
  rfl

theorem countRule_withEndOf (x : Sym) : countRule x (s.withEndOf o) = (countRule x s).map (·.withEndOf o) := by
  unfold countRule
  rw [State.withEndOf_total]
  split
  · rfl
  · rfl

theorem countnRule_withEndOf (x : Sym) (n : BitVec 16) :
    countnRule x n (s.withEndOf o) = (countnRule x n s).map (·.withEndOf o) := by
  unfold countnRule
  rw [State.withEndOf_total]
  split
  · rfl
  · split
    · rfl
    · rfl

theorem buildRule_withEndOf : buildRule (s.withEndOf o) = (buildRule s).map (·.withEndOf o) := by
  unfold buildRule
  rw [State.withEndOf_ndist]
  split
  · rfl
  · rfl

theorem deriveRule_withEndOf : deriveRule (s.withEndOf o) = (deriveRule s).map (·.withEndOf o) := by
  unfold deriveRule
  rw [State.withEndOf_treeValid, derivedTable_withEndOf]
  split
  · rfl
  · rfl

theorem appendOrFull_withEndOf (bs : List Bool) :
    appendOrFull bs (s.withEndOf o) = (appendOrFull bs s).map (·.withEndOf o) := by
  unfold appendOrFull
  rw [State.withEndOf_bitlen, State.withEndOf_params]
  split
  · rfl
  · rfl

theorem encRule_withEndOf (x : Sym) : encRule x (s.withEndOf o) = (encRule x s).map (·.withCompletionOf o) := by
  unfold encRule
  rw [validCode_withEndOf]
  cases s.validCode x with
  | none => rfl
  | some c =>
    simp only [appendOrFull_withEndOf]
    cases appendOrFull c.toBits s with
    | error e => rfl
    | ok u => rfl

theorem wrbitsRule_withEndOf (n : BitVec 5) (v : BitVec 16) :
    wrbitsRule n v (s.withEndOf o) = (wrbitsRule n v s).map (·.withEndOf o) := by
  unfold wrbitsRule
  split
  · rfl
  · exact appendOrFull_withEndOf s o _

theorem decbitRule_withEndOf (b : Bool) :
    decbitRule b (s.withEndOf o) = (decbitRule b s).map (·.withCompletionOf o) := by
  unfold decbitRule
  rw [State.withEndOf_treeValid, State.withEndOf_cursor, decStep_withEndOf, State.withEndOf_symlen, State.withEndOf_params]
  split
  · rfl
  · split
    · rfl
    · split
      · rfl
      · rfl
    · rfl

theorem decendRule_withEndOf : decendRule (s.withEndOf o) = (decendRule s).map (·.withEndOf o) := by
  unfold decendRule
  rw [State.withEndOf_treeValid, State.withEndOf_cursor, State.withEndOf_root]
  split
  · rfl
  · split
    · rfl
    · rfl

theorem decbufRule_withEndOf : decbufRule (s.withEndOf o) = (decbufRule s).map (·.withCompletionOf o) := by
  unfold decbufRule
  rw [State.withEndOf_treeValid, heldBits_withEndOf, State.withEndOf_root, decLoop_withEndOf]
  split
  · rfl
  · split
    · rfl
    · split
      · rfl
      · rfl

theorem rdnodeRule_withEndOf (id : NodeId) :
    rdnodeRule id (s.withEndOf o) = (rdnodeRule id s).map (·.withCompletionOf o) := by
  unfold rdnodeRule
  rw [State.withEndOf_treeValid, State.withEndOf_root]
  split
  · rfl
  · split
    · rfl
    · rfl

theorem rdcodeRule_withEndOf (x : Sym) (w : BitVec 3) :
    rdcodeRule x w (s.withEndOf o) = (rdcodeRule x w s).withCompletionOf o := by
  unfold rdcodeRule
  rw [validCode_withEndOf]
  split
  · rfl
  · rfl

theorem rdbitsRule_withEndOf (k : BitVec 11) :
    rdbitsRule k (s.withEndOf o) = (rdbitsRule k s).map (·.withCompletionOf o) := by
  unfold rdbitsRule
  rw [State.withEndOf_params]
  split
  · rfl
  · rfl

theorem rdsymRule_withEndOf (idx : BitVec 16) :
    rdsymRule idx (s.withEndOf o) = (rdsymRule idx s).map (·.withCompletionOf o) := by
  unfold rdsymRule
  rw [State.withEndOf_symlen]
  split
  · rfl
  · rfl

/-- No rule reads the result registers or the completion fields. -/
theorem ruleOf_withEndOf (j : Instr) : ruleOf j (s.withEndOf o) = (ruleOf j s).map (endingOf j o) := by
  cases j with
  | nop => rfl
  | clr mask => exact congrArg Except.ok (clrRule_withEndOf s o mask)
  | count x => exact countRule_withEndOf s o x
  | countn x n => exact countnRule_withEndOf s o x n
  | build => exact buildRule_withEndOf s o
  | derive => exact deriveRule_withEndOf s o
  | enc x => exact encRule_withEndOf s o x
  | wrbits n v => exact wrbitsRule_withEndOf s o n v
  | decbit b => exact decbitRule_withEndOf s o b
  | decend => exact decendRule_withEndOf s o
  | decbuf => exact decbufRule_withEndOf s o
  | rdfreq x => rfl
  | rdnode id => exact rdnodeRule_withEndOf s o id
  | rdcode x w => exact congrArg Except.ok (rdcodeRule_withEndOf s o x w)
  | rdbits k => exact rdbitsRule_withEndOf s o k
  | rdsym idx => exact rdsymRule_withEndOf s o idx

end Rules

/-! The codes a rule raises (60_exceptions.md R144, R147). -/

theorem ruleOf_error_mem_mayRaise {i : Instr} {s : State} {e : ErrCode} (h : ruleOf i s = .error e) : e ∈ mayRaise i := by
  cases i with
  | nop | clr | rdfreq | rdcode => cases h
  | count x => obtain ⟨-, rfl⟩ := countRule_error h; simp [mayRaise]
  | countn x n => obtain ⟨-, rfl⟩ | ⟨-, -, rfl⟩ := countnRule_error h <;> simp [mayRaise]
  | build => obtain ⟨-, rfl⟩ := buildRule_error h; simp [mayRaise]
  | derive => obtain ⟨-, rfl⟩ := deriveRule_error h; simp [mayRaise]
  | enc x => obtain ⟨-, rfl⟩ | ⟨c, -, -, rfl⟩ := encRule_error h <;> simp [mayRaise]
  | wrbits n v => obtain ⟨-, rfl⟩ | ⟨-, -, -, rfl⟩ := wrbitsRule_error h <;> simp [mayRaise]
  | decbit b =>
    obtain ⟨-, rfl⟩ | ⟨-, hd⟩ | ⟨-, -, rfl, -⟩ := decbitRule_error h
    · simp [mayRaise]
    · simp [mayRaise, decStep_error hd]
    · simp [mayRaise]
  | decend => obtain ⟨-, rfl⟩ | ⟨-, -, rfl⟩ := decendRule_error h <;> simp [mayRaise]
  | decbuf =>
    obtain ⟨-, rfl⟩ | ⟨-, hl⟩ | ⟨-, rfl, -⟩ := decbufRule_error h
    · simp [mayRaise]
    · obtain rfl | rfl := decLoop_error hl <;> simp [mayRaise]
    · simp [mayRaise]
  | rdnode id => obtain ⟨-, rfl⟩ | ⟨-, -, rfl⟩ := rdnodeRule_error h <;> simp [mayRaise]
  | rdbits k => obtain ⟨-, rfl⟩ := rdbitsRule_error h; simp [mayRaise]
  | rdsym idx => obtain ⟨-, rfl⟩ := rdsymRule_error h; simp [mayRaise]

/-- LASTERR tells a command that ended in an error from one that succeeded. -/
theorem ne_ok_of_ruleOf_error {i : Instr} {s : State} {e : ErrCode} (h : ruleOf i s = .error e) : e ≠ .ok := by
  rintro rfl
  have hmem := ruleOf_error_mem_mayRaise h
  cases i <;> simp [mayRaise] at hmem

/-! A read-back command, and the command after it. -/

theorem ruleOf_readback_ok {i : Instr} {s u : State} (hi : isReadback i = true) (h : ruleOf i s = .ok u) :
    ∃ r0 r1, u = s.setResults r0 r1 := by
  cases effect_of_ruleOf h with
  | readback => exact ⟨_, _, rfl⟩
  | none hi' => obtain rfl | rfl := hi' <;> cases hi
  | count hi' => obtain rfl | ⟨m, rfl⟩ := hi' <;> cases hi
  | decode hi' => obtain ⟨b, rfl⟩ | rfl := hi' <;> cases hi
  | clear | build | derive | write | encode => cases hi

theorem exec_readback_sameButResults {i : Instr} {s t : State} (hi : isReadback i = true) (h : exec i s = .next t) :
    SameButResults s t := by
  obtain ⟨u, hu, rfl⟩ | ⟨e, -, rfl⟩ := exec_cases h
  · obtain ⟨r0, r1, rfl⟩ := ruleOf_readback_ok hi hu
    exact sameButResults_withResults s ..
  · exact sameButResults_withResults s ..

theorem sameButResults_retire_endingOf (j : Instr) (o u : State) (e : ErrCode) :
    SameButResults (retire e u) (retire e (endingOf j o u)) := by
  unfold endingOf
  split
  · exact sameButResults_withResults (retire e u) ..
  · exact sameButResults_withResults (retire e u) ..

theorem sameResults_retire_endingOf {j : Instr} (hj : writesResults j = true) (o u : State) (e : ErrCode) :
    SameResults (retire e u) (retire e (endingOf j o u)) := by
  rw [endingOf, if_pos hj]
  exact ⟨rfl, rfl⟩

/-- Settles O48: the next command's rule gives the same answer, so what it leaves differs only where the read-back command
wrote and it does not. -/
theorem readbackChangesNoStore : Obligations.ReadbackChangesNoStore := by
  refine ⟨fun i s t hi h => exec_readback_sameButResults hi h, fun i j s t u v hi ht hu hv => ?_⟩
  obtain ⟨o, rfl⟩ : ∃ o, t = s.withEndOf o := ⟨t, (exec_readback_sameButResults hi ht).eq_withEndOf⟩
  rw [exec_eq_runRule, ruleOf_withEndOf] at hv
  obtain ⟨w, hw, rfl⟩ | ⟨e, he, rfl⟩ := exec_cases hu
  · rw [hw] at hv
    cases hv
    exact ⟨sameButResults_retire_endingOf j o w .ok, rfl, fun hj _ => sameResults_retire_endingOf hj o w .ok⟩
  · rw [he] at hv
    cases hv
    exact ⟨sameButResults_withResults (raiseError e s) .., rfl, fun _ hok => absurd hok (ne_ok_of_ruleOf_error he)⟩

end Sys2Proof.Machine

end

/-! 60_exceptions.md R140 to R149, R158: the ends of commands, and the events of the outside world between them. -/
section

namespace Sys2Proof.Machine

open Sys2Proof.Laws

/-! How the engine's step ends (R141, R142, R145). -/

theorem sameHost_clrRule (mask : BitVec 6) (s : State) : SameHost s (clrRule mask s) := by
  rw [clrRule_eq]
  exact ⟨rfl, rfl, rfl, rfl, rfl, rfl, rfl, rfl, rfl⟩

theorem effect_sameHost {s u : State} {i : Instr} (h : Effect s i u) : SameHost s u := by
  cases h with
  | clear mask => exact sameHost_clrRule mask s
  | none | count | build | derive | write | encode | decode | readback =>
    exact ⟨rfl, rfl, rfl, rfl, rfl, rfl, rfl, rfl, rfl⟩

/-- ERR is left to the completion. -/
theorem effect_err {s u : State} {i : Instr} (h : Effect s i u) : u.err = s.err := by
  cases h with
  | clear mask => rw [clrRule_eq]
  | none | count | build | derive | write | encode | decode | readback => rfl

theorem exec_completes {i : Instr} {s t : State} (h : exec i s = .next t) : Completes t.lastErr s t ∧ SameHost s t := by
  obtain ⟨u, hu, rfl⟩ | ⟨e, -, rfl⟩ := exec_cases h
  · have heffect := effect_of_ruleOf hu
    exact ⟨completes_retire .ok (effect_err heffect), sameHost_retire (effect_sameHost heffect) .ok⟩
  · obtain ⟨hends, -, hhost⟩ := failsWith_raiseError e s
    exact ⟨hends, hhost⟩

theorem step_completes {s : State} (hd : engineDue s = true) :
    ∃ t, step s = .next t ∧ Completes t.lastErr s t ∧ SameHost s t := by
  obtain ⟨⟨w, hp⟩, -⟩ := engineDue_pend hd
  cases hw : decode w with
  | ok i =>
    obtain ⟨t, ht⟩ := exec_next i s
    exact ⟨t, (step_of_decode_ok hd hp hw).trans ht, exec_completes ht⟩
  | error r =>
    obtain ⟨t, ht, hends, -, hhost⟩ := step_of_decode_error hd hp hw
    exact ⟨t, ht, hends.lastErr.symm ▸ hends, hhost⟩

/-! What an event of the outside world does to PEND, the status bits and the enables. -/

theorem SameStatus.refl (s : State) : SameStatus s s := ⟨rfl, rfl, rfl, rfl, rfl, rfl, rfl⟩

theorem sameStatus_readReg (r : Reg) (s : State) : SameStatus s (readReg r s) := by
  obtain ⟨v, -, h⟩ | ⟨-, h⟩ := readReg_cases r s <;> rw [h] <;> exact ⟨rfl, rfl, rfl, rfl, rfl, rfl, rfl⟩

/-- What event `e` leaves of `s`, by the status fields it works on. -/
inductive EventEffect (s : State) : HostEvent → State → Prop
  /-- A read, a write elsewhere or in reset, or a release of reset (20_memory.md R64, 70_reset_and_hazards.md R161). -/
  | quiet {e : HostEvent} {t : State} (h : SameStatus s t) : EventEffect s e t
  /-- A CMD write into an empty PEND (60_exceptions.md R140). -/
  | accepted {addr : Nat} {width : Width} {v : Word} (ht : targetOf s.params addr width = .reg .cmd) (hp : s.pend = none) :
      EventEffect s (.write addr width v)
        { s with pend := some v, delay := Config.engineLatency s.draws, draws := s.draws + 1 }
  /-- A CMD write while a command is pending (60_exceptions.md R140). -/
  | dropped {addr : Nat} {width : Width} {v : Word} (ht : targetOf s.params addr width = .reg .cmd)
      (hp : ∃ w, s.pend = some w) : EventEffect s (.write addr width v) { s with ovr := true }
  /-- A STATUS write (10_state.md R37). -/
  | cleared {addr : Nat} {width : Width} {v : Word} (ht : targetOf s.params addr width = .reg .status) :
      EventEffect s (.write addr width v) (s.clearStatus v)
  /-- An IE write (10_state.md R38). -/
  | enabled {addr : Nat} {width : Width} {v : Word} (ht : targetOf s.params addr width = .reg .ie) :
      EventEffect s (.write addr width v) (s.setEnables v)
  /-- Reset asserted (70_reset_and_hazards.md R161). -/
  | reset : EventEffect s .assertReset (assertReset s)

theorem eventEffect_writeReg {s : State} {addr : Nat} {width : Width} {r : Reg} (v : Word)
    (ht : targetOf s.params addr width = .reg r) : EventEffect s (.write addr width v) (writeReg r v s) := by
  obtain ⟨rfl, h⟩ | ⟨rfl, h⟩ | ⟨rfl, h⟩ | ⟨-, -, -, h⟩ := writeReg_cases r v s <;> rw [h]
  · obtain ⟨hp, h⟩ | ⟨hp, h⟩ := submit_cases v s <;> rw [h]
    · exact .accepted ht hp
    · exact .dropped ht hp
  · exact .cleared ht
  · exact .enabled ht
  · exact .quiet (.refl s)

theorem eventEffect_of_perform {e : HostEvent} {s t : State} (h : perform e s = .next t) : EventEffect s e t := by
  obtain ⟨addr, width, r, rfl, -, rfl⟩ | ⟨addr, width, v, r, rfl, ht, rfl⟩ | ⟨rfl, rfl⟩ | ⟨rfl, rfl⟩ := perform_cases h
  · refine .quiet ?_
    split
    · exact ⟨rfl, rfl, rfl, rfl, rfl, rfl, rfl⟩
    · exact sameStatus_readReg r s
  · split
    · exact .quiet (.refl s)
    · exact eventEffect_writeReg v ht
  · exact .reset
  · exact .quiet ⟨rfl, rfl, rfl, rfl, rfl, rfl, rfl⟩

/-- A step that is not the engine's waits, or is the effect of the next event. -/
theorem step_event {s t : State} (h : step s = .next t) (hd : engineDue s = false) :
    t = s ∨ ∃ e rest, NextEvent s e rest ∧ EventEffect (takeEvent rest s) e t := by
  obtain ⟨hd', -⟩ | ⟨hd', -⟩ | ⟨-, -, rfl⟩ | ⟨-, e, rest, hq, hp⟩ := step_cases h
  · rw [hd] at hd'; cases hd'
  · rw [hd] at hd'; cases hd'
  · exact .inl rfl
  · exact .inr ⟨e, rest, ⟨hd, hq⟩, eventEffect_of_perform hp⟩

/-! The obligations on the ends of commands. -/

/-- Settles O49: a nonzero code is an error raised from the state before the command. -/
theorem failedCommandChangesNothing : Obligations.FailedCommandChangesNothing := by
  intro i s t h hne
  obtain ⟨u, -, rfl⟩ | ⟨e, -, rfl⟩ := exec_cases h
  · exact absurd rfl hne
  · exact failsWith_raiseError e s

/-- Settles O51: a command ends with code 0 or with an error of its rule. -/
theorem errorCodesOfEachCommand : Obligations.ErrorCodesOfEachCommand := by
  refine ⟨⟨rfl, rfl, rfl, rfl, rfl, rfl, rfl, rfl, rfl, rfl⟩, fun i s t h => ?_⟩
  obtain ⟨u, -, rfl⟩ | ⟨e, he, rfl⟩ := exec_cases h
  · exact .inl rfl
  · exact .inr (ruleOf_error_mem_mayRaise he)

/-- An event sets neither DONE nor ERR, and only a reset changes LASTERR. -/
theorem EventEffect.reports {s t : State} {e : HostEvent} (h : EventEffect s e t) :
    (t.done = true → s.done = true) ∧ (t.err = true → s.err = true) ∧
      (t.lastErr = s.lastErr ∨ e = .assertReset ∧ t.lastErr = .ok) := by
  cases h with
  | quiet h => exact ⟨h.done.symm.trans, h.err.symm.trans, .inl h.lastErr⟩
  | accepted | dropped | enabled => exact ⟨id, id, .inl rfl⟩
  | cleared => exact ⟨Bool.and_elim_left, Bool.and_elim_left, .inl rfl⟩
  | reset => exact ⟨nofun, nofun, .inr ⟨rfl, rfl⟩⟩

/-- Settles O50: the engine's step ends in a completion, and no event sets what a completion sets. -/
theorem completionReportsEveryCommand : Obligations.CompletionReportsEveryCommand := by
  refine ⟨fun i s => ?_, fun s hd => ?_, fun s t h hd => ?_⟩
  · obtain ⟨t, ht⟩ := exec_next i s
    exact ⟨t, ht, (exec_completes ht).1⟩
  · obtain ⟨t, ht, hends, -⟩ := step_completes hd
    exact ⟨t, ht, hends⟩
  · obtain rfl | ⟨e, rest, hnext, heffect⟩ := step_event h hd
    · exact ⟨id, id, .inl rfl⟩
    · obtain ⟨hdone, herr, hlast⟩ := heffect.reports
      exact ⟨hdone, herr, hlast.imp_right fun ⟨he, hok⟩ => ⟨rest, he ▸ hnext, hok⟩⟩

/-! The interrupt level (R148, R149). -/

theorem irq_iff (s : State) :
    s.irq = true ↔ (s.done = true ∧ s.doneIE = true) ∨ ((s.err = true ∨ s.ovr = true) ∧ s.errIE = true) := by
  simp [State.irq]

/-- Under the same enables the level rises with DONE, ERR and OVR. -/
theorem irq_mono {s t : State} (h : s.irq = true) (hdone : s.done = true → t.done = true)
    (herr : s.err = true → t.err = true) (hovr : s.ovr = true → t.ovr = true) (hdoneIE : t.doneIE = s.doneIE)
    (herrIE : t.errIE = s.errIE) : t.irq = true := by
  rw [irq_iff] at h ⊢
  rw [hdoneIE, herrIE]
  exact h.imp (.imp_left hdone) (.imp_left (.imp herr hovr))

theorem SameStatus.irq {s t : State} (h : SameStatus s t) : t.irq = s.irq := by
  rw [State.irq, h.done, h.err, h.ovr, h.doneIE, h.errIE]
  rfl

theorem Completes.irq {e : ErrCode} {s t : State} (h : Completes e s t) (hhost : SameHost s t) (hirq : s.irq = true) :
    t.irq = true :=
  irq_mono hirq (fun _ => h.done) (fun herr => by rw [h.err, herr, Bool.true_or]) hhost.ovr.trans hhost.doneIE hhost.errIE

/-- An event that raises irq is a dropped CMD write or an IE write. -/
theorem EventEffect.irq_rises {s t : State} {e : HostEvent} (h : EventEffect s e t) (h0 : s.irq = false) (h1 : t.irq = true) :
    ∃ addr width v, e = .write addr width v ∧
      ((targetOf s.params addr width = .reg .cmd ∧ s.pend.isSome = true) ∨ targetOf s.params addr width = .reg .ie) := by
  have hne : s.irq ≠ true := Bool.eq_false_iff.mp h0
  cases h with
  | quiet h => exact absurd (h.irq ▸ h1) hne
  | accepted => exact absurd h1 hne
  | dropped ht hp => exact ⟨_, _, _, rfl, .inl ⟨ht, Option.isSome_iff_exists.mpr hp⟩⟩
  | cleared => exact (hne (irq_mono h1 Bool.and_elim_left Bool.and_elim_left Bool.and_elim_left rfl rfl)).elim
  | enabled ht => exact ⟨_, _, _, rfl, .inr ht⟩
  | reset => cases h1

/-- An event that lowers irq is a STATUS write, an IE write or reset. -/
theorem EventEffect.irq_falls {s t : State} {e : HostEvent} (h : EventEffect s e t) (h1 : s.irq = true) (h0 : t.irq = false) :
    e = .assertReset ∨ ∃ addr width v, e = .write addr width v ∧
      (targetOf s.params addr width = .reg .status ∨ targetOf s.params addr width = .reg .ie) := by
  have hne : t.irq ≠ true := Bool.eq_false_iff.mp h0
  cases h with
  | quiet h => exact absurd (h.irq.trans h1) hne
  | accepted => exact absurd h1 hne
  | dropped => exact (hne (irq_mono h1 id id (fun _ => rfl) rfl rfl)).elim
  | cleared ht => exact .inr ⟨_, _, _, rfl, .inl ht⟩
  | enabled ht => exact .inr ⟨_, _, _, rfl, .inr ht⟩
  | reset => exact .inl rfl

/-- Settles O16: a completion cannot lower the level, and of the events few can move it. -/
theorem interruptLevelChanges : Obligations.InterruptLevelChanges := by
  refine ⟨irq_iff, fun s t h h0 h1 => ?_, fun s t h h1 h0 => ?_⟩
  · cases hd : engineDue s with
    | true => exact .inl rfl
    | false =>
      obtain rfl | ⟨e, rest, hnext, heffect⟩ := step_event h hd
      · rw [h0] at h1; cases h1
      · obtain ⟨addr, width, v, rfl, hto⟩ := heffect.irq_rises h0 h1
        exact .inr ⟨addr, width, v, rest, hnext, hto⟩
  · cases hd : engineDue s with
    | true =>
      obtain ⟨u, hu, hends, hhost⟩ := step_completes hd
      obtain rfl := Host.Outcome.next.inj (hu.symm.trans h)
      rw [hends.irq hhost h1] at h0
      cases h0
    | false =>
      obtain rfl | ⟨e, rest, hnext, heffect⟩ := step_event h hd
      · rw [h1] at h0; cases h0
      · exact ⟨e, rest, hnext, heffect.irq_falls h1 h0⟩

/-! When the engine is due (R141, log 1). -/

theorem engineDue_eq_false_iff (s : State) :
    engineDue s = false ↔ s.pend = none ∨ s.inReset = true ∨ (s.delay ≠ 0 ∧ s.hostQueue ≠ []) := by
  cases hr : s.inReset <;> simp [engineDue, State.busy, hr, imp_iff_not_or]

/-- Settles O6: the three clauses are the engine due, the queue empty, and an event in it. -/
theorem stepRunsDecodedCommandOrEvent : Obligations.StepRunsDecodedCommandOrEvent := by
  refine ⟨fun s w i hp hr hdue hw => ?_, fun s hidle hq => ?_, fun s e rest hwait hq => ?_⟩
  · have hd : engineDue s = true := hdue.elim (engineDue_of_delay hp hr) (engineDue_of_idle hp hr)
    exact step_of_decode_ok hd hp hw
  · have hd : engineDue s = false := (engineDue_eq_false_iff s).mpr (hidle.imp_right .inl)
    simp [step, hd, hostStep, hq]
  · have hd : engineDue s = false :=
      (engineDue_eq_false_iff s).mpr (hwait.imp_right (.imp_right fun hdelay => ⟨hdelay, by simp [hq]⟩))
    exact step_of_nextEvent ⟨hd, hq⟩

/-! A CMD write (R140). -/

/-- Settles O7: the write takes the event from the queue and submits the word. -/
theorem cmdWriteAcceptedOrDropped : Obligations.CmdWriteAcceptedOrDropped := by
  intro s rest w hr h
  have hstep : step s = .next (submit w (takeEvent rest s)) := by
    rw [step_write h (r := .cmd) rfl, hr]
    rfl
  have hblock := (sameBlock_takeEvent rest s).trans (sameBlock_submit w (takeEvent rest s))
  refine ⟨_, hstep, hblock, ?_⟩
  obtain ⟨hp, ht⟩ | ⟨⟨v, hp⟩, ht⟩ := submit_cases w (takeEvent rest s)
  · rw [ht]
    exact ⟨rfl, rfl, rfl, hr, rfl, rfl, rfl, rfl, rfl, fun _ => ⟨rfl, getLsbD_statusWord _ 0, rfl⟩,
      fun _ hsome => absurd (hp.symm.trans hsome) nofun⟩
  · rw [ht]
    exact ⟨rfl, rfl, rfl, hr, rfl, rfl, rfl, rfl, rfl, fun hnone => absurd (hp.symm.trans hnone) nofun,
      fun _ hsome => ⟨hsome, rfl⟩⟩

/-! A pending command under harmless events (R158). -/

/-- From `s` to `t` command `w` stays pending, reset stays released, and what is still to come is the same. -/
structure KeepsPending (w : Word) (s t : State) : Prop where
  pend : t.pend = some w
  inReset : t.inReset = false
  params : t.params = s.params
  hostQueue : t.hostQueue = s.hostQueue
  delay : t.delay = s.delay

section Pending

variable {s : State} {w : Word} (hp : s.pend = some w) (hr : s.inReset = false)
include hp hr

theorem keepsPending_readReg (r : Reg) : KeepsPending w s (readReg r s) := by
  obtain ⟨v, -, h⟩ | ⟨-, h⟩ := readReg_cases r s <;> rw [h] <;> exact ⟨hp, hr, rfl, rfl, rfl⟩

theorem keepsPending_submit (v : Word) : KeepsPending w s (submit v s) := by
  obtain ⟨hnone, -⟩ | ⟨-, h⟩ := submit_cases v s
  · rw [hp] at hnone; cases hnone
  · rw [h]; exact ⟨hp, hr, rfl, rfl, rfl⟩

theorem keepsPending_writeReg (r : Reg) (v : Word) : KeepsPending w s (writeReg r v s) := by
  obtain ⟨-, h⟩ | ⟨-, h⟩ | ⟨-, h⟩ | ⟨-, -, -, h⟩ := writeReg_cases r v s <;> rw [h]
  · exact keepsPending_submit hp hr v
  · exact ⟨hp, hr, rfl, rfl, rfl⟩
  · exact ⟨hp, hr, rfl, rfl, rfl⟩
  · exact ⟨hp, hr, rfl, rfl, rfl⟩

theorem perform_harmless {e : HostEvent} (he : Harmless s.params e) :
    ∃ t, perform e s = .next t ∧ KeepsPending w s t := by
  cases e with
  | read addr width =>
    obtain ⟨r, ht⟩ := he
    exact ⟨readReg r s, by simp [perform, hostRead, ht, hr], keepsPending_readReg hp hr r⟩
  | write addr width v =>
    obtain ⟨r, ht⟩ := he
    exact ⟨writeReg r v s, by simp [perform, hostWrite, ht, hr], keepsPending_writeReg hp hr r v⟩
  | assertReset => exact he.elim
  | releaseReset => exact ⟨releaseReset s, rfl, hp, rfl, rfl, rfl, rfl⟩

end Pending

theorem run_succ {M : Host.Core} {s t : M.State} (h : M.step s = .next t) (k : Nat) : M.run (k + 1) s = M.run k t := by
  rw [Host.Core.run, h]

/-- Every harmless event taken lowers the delay by one, so the engine is due within that many steps. -/
theorem exists_run_engineDue {s : State} {w : Word} (hp : s.pend = some w) (hr : s.inReset = false)
    (hharmless : ∀ e ∈ s.hostQueue, Harmless s.params e) :
    ∃ k ≤ s.delay, ∃ u, core.run k s = .next u ∧ u.pend = some w ∧ engineDue u = true := by
  induction hn : s.delay generalizing s with
  | zero => exact ⟨0, le_refl 0, s, rfl, hp, engineDue_of_delay hp hr hn⟩
  | succ n ih =>
    cases hq : s.hostQueue with
    | nil => exact ⟨0, Nat.zero_le _, s, rfl, hp, engineDue_of_idle hp hr hq⟩
    | cons e rest =>
      rw [hq, List.forall_mem_cons] at hharmless
      obtain ⟨he, hrest⟩ := hharmless
      have hd : engineDue s = false := (engineDue_eq_false_iff s).mpr (.inr (.inr ⟨by omega, by simp [hq]⟩))
      obtain ⟨t, ht, hkeeps⟩ := perform_harmless (s := takeEvent rest s) hp hr he
      obtain ⟨k, hk, u, hu, hend⟩ := ih hkeeps.pend hkeeps.inReset
        (by rw [hkeeps.hostQueue, hkeeps.params]; exact hrest) (by rw [hkeeps.delay, takeEvent_delay]; omega)
      have hstep : step s = .next t := (step_of_nextEvent ⟨hd, hq⟩).trans ht
      exact ⟨k + 1, by omega, u, (run_succ (M := core) hstep k).trans hu, hend⟩

/-- Settles O54: the engine comes to be due, and its step ends in a completion. -/
theorem acceptedCommandCompletes : Obligations.AcceptedCommandCompletes := by
  intro s w hp hr hharmless
  obtain ⟨k, hk, u, hu, hpend, hd⟩ := exists_run_engineDue hp hr hharmless
  obtain ⟨t, ht, hends, -⟩ := step_completes hd
  exact ⟨k, hk, u, t, hu, hpend, hd, ht, hends.pend, hends.done⟩

end Sys2Proof.Machine

end

/-! 70_reset_and_hazards.md R161, R162: the reset input, and the accesses of the window while it is asserted. -/
section

namespace Sys2Proof.Machine

/-- Reset asserted leaves the values of the state after reset: the fields it keeps are none of R50's. -/
theorem resetForm_assertReset (s : State) : ResetForm (assertReset s) :=
  { resetForm_resetWith s.params with }

/-- An aligned 32-bit read during reset returns a free word, whatever the register (log 4). -/
theorem step_read_inReset {s : State} {rest : List HostEvent} {off : Nat} {r : Reg} (hr : s.inReset = true)
    (h : NextEvent s (.read (s.params.base + off) .w32) rest) (hoff : Reg.ofOffset off = some r) :
    step s = .next (returnDraw (takeEvent rest s)) := by
  rw [step_of_nextEvent h, perform, hostRead, takeEvent_params, targetOf_base_add s.params hoff]
  simp [hr]

/-- An aligned 32-bit write during reset is dropped, whatever the register. -/
theorem step_write_inReset {s : State} {rest : List HostEvent} {off : Nat} {r : Reg} {v : Word} (hr : s.inReset = true)
    (h : NextEvent s (.write (s.params.base + off) .w32 v) rest) (hoff : Reg.ofOffset off = some r) :
    step s = .next (takeEvent rest s) := by
  rw [step_write h hoff, if_pos hr]

/-- Settles O18: the two events are `assertReset` and `releaseReset` on the state with the event taken from the queue. -/
theorem resetInput : Obligations.ResetInput := by
  refine ⟨fun s rest h => ?_, fun s rest h => ?_⟩
  · exact ⟨assertReset (takeEvent rest s), step_of_nextEvent h, resetForm_assertReset _, rfl, rfl, rfl⟩
  · exact ⟨releaseReset (takeEvent rest s), step_of_nextEvent h, rfl,
      (sameBlock_takeEvent rest s).trans (sameBlock_releaseReset _), ⟨rfl, rfl, rfl, rfl, rfl, rfl, rfl⟩⟩

/-- Settles O19: only an aligned 32-bit access reaches a register, and in reset it leaves no more than a free word. -/
theorem accessDuringResetHasNoEffect : Obligations.AccessDuringResetHasNoEffect := by
  refine ⟨fun s rest off width _ hlt hbad => ?_, fun s rest off hr hlt hmod => ?_⟩
  · exact step_badAccess (targetOf_badAccess s.params hlt hbad) rest
  · obtain ⟨r, hreg⟩ := exists_ofOffset hlt hmod
    have hblock := sameBlock_takeEvent rest s
    refine ⟨fun h => ?_, fun v h => ?_⟩
    · exact ⟨_, step_read_inReset hr h hreg, hblock.trans (sameBlock_returnDraw _), ⟨rfl, rfl, rfl, rfl, rfl, rfl, rfl⟩,
        hr, rfl, rfl⟩
    · exact ⟨_, step_write_inReset hr h hreg, hblock, sameStatus_takeEvent rest s, hr⟩

end Sys2Proof.Machine

end
